-- ==== Sys2Proof/Word.lean ====
section
/-! DEFINITION. The word types of the block and the plain-data form of its internal memories. -/

namespace Sys2Proof

/-- A command word or a response word: 64 bits, bit 0 the least significant (R7, R90, R280). -/
abbrev Word := BitVec 64

/-- A byte of a packed stream, a palette index or a colour channel. -/
abbrev Byte := BitVec 8

/-- An LZW code as a register holds it: 12 bits (R29, R33). -/
abbrev Code := BitVec 12

/-- An internal memory (R70): the entries that differ from what an unlisted index reads as, by index.
Reading, writing and the canonical form are in Machine/Memory.lean. -/
abbrev Mem (α : Type) := List (Nat × α)

end Sys2Proof
end

