-- ==== Sys2Proof/Config.lean ====
section
/-! DEFINITION. What an implementation fixes: the parameters of R5, and the model's one free value. -/

namespace Sys2Proof.Config

/-- `MIN_CODE_SIZE` (R5). -/
abbrev minCodeSize : Nat := 2

/-- `MAX_CODE_SIZE` (R5). -/
abbrev maxCodeSize : Nat := 8

/-- `MAX_WIDTH` (R5): the widest LZW code. -/
abbrev maxWidth : Nat := 12

/-- `DICT_SLOTS` (R5): 2^`MAX_WIDTH`. -/
abbrev dictSlots : Nat := 4096

/-- `HASH_SLOTS` (R5): four times the number of codes. -/
abbrev hashSlots : Nat := 16384

/-- `SUBBLOCK_MAX` (R5): the longest sub-block. -/
abbrev subblockMax : Nat := 255

/-- `PALETTE_MAX` (R5): the most entries a colour table has. -/
abbrev paletteMax : Nat := 256

/-- The value `MAX_CANVAS_PIXELS` has in the machine that `State.reset` describes.
DESIGN CHOICE, unsafe (log 3): the parameter is OPEN (R5); 2^20 is the value the spec's own vectors use.
The parameter itself is the field `canvasCap` of State, so a statement about every state holds for every value of it. -/
abbrev maxCanvasPixels : Nat := 1048576

/-- FREE VALUE (log 6): what `Expand` (R159) collects from code `c` on when the chain of prefixes it has walked
does not end in a literal. R159 and R31 exclude the case; nothing constrains the value. -/
opaque brokenChain : Nat → List Byte

end Sys2Proof.Config
end

