-- ==== Sys2Proof/Syntax.lean ====
section
/-! DEFINITION. The commands of the block: one constructor per row of the opcode map (R94). -/

namespace Sys2Proof

/-- A table select `t` (R91): 0 is the global colour table, 1 the local one. -/
inductive Table where
  | gct
  | lct
  deriving DecidableEq, Repr

/-- The registers `RD_REG` can read (R45), by name. -/
inductive Reg where
  | sysStatus | config | canvasCap
  | sbuStatus | sbuCount
  | sbfStatus | sbfFill
  | lzdStatus | lzdCs | lzdWidth | lzdNext | lzdPrev | lzdBits
  | lzeStatus | lzeCs | lzeWidth | lzeNext | lzePending | lzeBits
  | cmpStatus | cmpScreen | cmpGctSize | cmpLctSize | cmpGce | cmpImgPos | cmpImgSize
  | cmpPixCount | cmpFrameCount
  deriving DecidableEq, Repr

/-- The commands of R94 with their operand fields (R91, R93). -/
inductive Instr where
  /-- R281 -/
  | nop
  /-- R282 -/
  | reset
  /-- R283 -/
  | cfg (cfg : BitVec 6)
  /-- R284 -/
  | rdReg (reg : Reg)
  /-- R285 -/
  | rdCanvas (x y : BitVec 16)
  /-- R286 -/
  | rdCt (t : Table) (i : Byte)
  /-- R120 -/
  | sbuBegin
  /-- R121 -/
  | sbuFeed (b : Byte)
  /-- R122 -/
  | sbuFinish
  /-- R130 -/
  | sbfBegin
  /-- R131 -/
  | sbfPut (b : Byte)
  /-- R132 -/
  | sbfEnd
  /-- R150 -/
  | lzdBegin (cs : Byte)
  /-- R151 -/
  | lzdFeed (b : Byte)
  /-- R163 -/
  | lzdFinish
  /-- R190 -/
  | lzeBegin (cs : Byte)
  /-- R192 -/
  | lzeFeed (b : Byte)
  /-- R198 -/
  | lzeFinish
  /-- R230 -/
  | cmpScreen (w h : BitVec 16)
  /-- R231 -/
  | cmpCtSize (t : Table) (n : BitVec 9)
  /-- R232 -/
  | cmpCtWrite (t : Table) (i r g bl : Byte)
  /-- R233 -/
  | cmpGce (d : BitVec 3) (u f : Bool) (ti : Byte) (dl : BitVec 16)
  /-- R234 -/
  | cmpImagePos (left top : BitVec 16)
  /-- R235 -/
  | cmpImageBegin (l : Bool) (w h : BitVec 16)
  /-- R237 -/
  | cmpPixel (idx : Byte)
  /-- R244 -/
  | cmpImageEnd
  /-- R245 -/
  | cmpFinish
  deriving DecidableEq, Repr

end Sys2Proof
end

