-- ==== Sys2Proof/WellFormed.lean ====
section
/-! DEFINITION. Which commands a word can spell: the constraint column of R94, as far as the command alone decides it. -/

namespace Sys2Proof

/-- The constraint column of R94. `RD_REG`'s is met by the type `Reg`; `RD_CANVAS`'s depends on the canvas and is
checked by its meaning (R285, log 9). -/
def Instr.wellFormed : Instr → Bool
  | .cmpCtSize _ n => n.toNat ≤ Config.paletteMax
  | .nop | .reset | .cfg _ | .rdReg _ | .rdCanvas _ _ | .rdCt _ _ => true
  | .sbuBegin | .sbuFeed _ | .sbuFinish => true
  | .sbfBegin | .sbfPut _ | .sbfEnd => true
  | .lzdBegin _ | .lzdFeed _ | .lzdFinish => true
  | .lzeBegin _ | .lzeFeed _ | .lzeFinish => true
  | .cmpScreen _ _ | .cmpCtWrite _ _ _ _ _ | .cmpGce _ _ _ _ _ | .cmpImagePos _ _ => true
  | .cmpImageBegin _ _ _ | .cmpPixel _ | .cmpImageEnd | .cmpFinish => true

end Sys2Proof
end

