-- ==== Sys2Proof/Decode.lean ====
section
/-! DEFINITION. Command words: fields, formats, the decoder (total on every word and every byte string) and the encoder. -/

namespace Sys2Proof

/-- Why a command word is illegal (R302); all three have the same effect. -/
inductive Illegal where
  /-- the opcode is not in R94 (R95) -/
  | unassignedOpcode
  /-- a reserved-zero bit of the opcode's format is set (R92) -/
  | reservedBit
  /-- a field violates the constraint column of R94 (R92) -/
  | constraint
  /-- fewer than the eight bytes of a word were given (byte transport only, R77) -/
  | shortWord
  deriving DecidableEq, Repr

/-- `c[lo+len-1 : lo]` (R7, R93). -/
def field (w : Word) (lo len : Nat) : BitVec len := w.extractLsb' lo len

/-- Bits [63:56] (R90). -/
def opcodeOf (w : Word) : Byte := field w 56 8

/-- A single-bit field as a Boolean (R93). -/
def flag (w : Word) (i : Nat) : Bool := w.getLsbD i

/-- The table select `t`, bit [48] of formats TR, TS and TW (R91). -/
def tableField (w : Word) : Table := if flag w 48 then .lct else .gct

/-- The formats of R91. -/
inductive Format where
  | N | B | C | P | TR | TS | TW | G | IB
  deriving DecidableEq, Repr

/-- The reserved-zero bits of each format (R91); bits [31:29] of format G are don't-care. -/
def Format.reserved : Format → Word
  | .N  => 0x00FFFFFFFFFFFFFF#64
  | .B  => 0x00FFFFFFFFFFFF00#64
  | .C  => 0x00FFFFFFFFFFFFC0#64
  | .P  => 0x00FFFFFF00000000#64
  | .TR => 0x00FE00FFFFFFFFFF#64
  | .TS => 0x00FEFFFFFFFFFE00#64
  | .TW => 0x00FE00FFFF000000#64
  | .G  => 0x00FFFFFF00000000#64
  | .IB => 0x00FEFFFF00000000#64

/-- The register of a register number (R45); any other number is unassigned. -/
def Reg.ofNumber (n : Byte) : Option Reg :=
  match n with
  | 0x00#8 => some .sysStatus
  | 0x01#8 => some .config
  | 0x02#8 => some .canvasCap
  | 0x10#8 => some .sbuStatus
  | 0x11#8 => some .sbuCount
  | 0x18#8 => some .sbfStatus
  | 0x19#8 => some .sbfFill
  | 0x20#8 => some .lzdStatus
  | 0x21#8 => some .lzdCs
  | 0x22#8 => some .lzdWidth
  | 0x23#8 => some .lzdNext
  | 0x24#8 => some .lzdPrev
  | 0x25#8 => some .lzdBits
  | 0x30#8 => some .lzeStatus
  | 0x31#8 => some .lzeCs
  | 0x32#8 => some .lzeWidth
  | 0x33#8 => some .lzeNext
  | 0x34#8 => some .lzePending
  | 0x35#8 => some .lzeBits
  | 0x40#8 => some .cmpStatus
  | 0x41#8 => some .cmpScreen
  | 0x42#8 => some .cmpGctSize
  | 0x43#8 => some .cmpLctSize
  | 0x44#8 => some .cmpGce
  | 0x45#8 => some .cmpImgPos
  | 0x46#8 => some .cmpImgSize
  | 0x47#8 => some .cmpPixCount
  | 0x48#8 => some .cmpFrameCount
  | _ => none

/-- A word of format `f` whose reserved-zero bits are all 0 is read by `k`; any other is illegal (R92). -/
def guarded (f : Format) (w : Word) (k : Except Illegal Instr) : Except Illegal Instr :=
  if w &&& f.reserved = 0#64 then k else .error .reservedBit

/-- `RD_REG`'s operand (R45, R94). -/
def decodeRdReg (w : Word) : Except Illegal Instr :=
  match Reg.ofNumber (field w 0 8) with
  | some r => .ok (.rdReg r)
  | none => .error .constraint

/-- `CMP_CT_SIZE`'s operands; `n <= 256` (R94). -/
def decodeCtSize (w : Word) : Except Illegal Instr :=
  if (field w 0 9).toNat ≤ Config.paletteMax then .ok (.cmpCtSize (tableField w) (field w 0 9))
  else .error .constraint

/-- The decoder (R90 to R96): the opcode first, then the reserved bits, then the fields and their constraint. -/
def decode (w : Word) : Except Illegal Instr :=
  match opcodeOf w with
  | 0x00#8 => guarded .N w (.ok .nop)
  | 0x01#8 => guarded .N w (.ok .reset)
  | 0x02#8 => guarded .C w (.ok (.cfg (field w 0 6)))
  | 0x03#8 => guarded .B w (decodeRdReg w)
  | 0x04#8 => guarded .P w (.ok (.rdCanvas (field w 16 16) (field w 0 16)))
  | 0x05#8 => guarded .TR w (.ok (.rdCt (tableField w) (field w 40 8)))
  | 0x10#8 => guarded .N w (.ok .sbuBegin)
  | 0x11#8 => guarded .B w (.ok (.sbuFeed (field w 0 8)))
  | 0x12#8 => guarded .N w (.ok .sbuFinish)
  | 0x18#8 => guarded .N w (.ok .sbfBegin)
  | 0x19#8 => guarded .B w (.ok (.sbfPut (field w 0 8)))
  | 0x1A#8 => guarded .N w (.ok .sbfEnd)
  | 0x20#8 => guarded .B w (.ok (.lzdBegin (field w 0 8)))
  | 0x21#8 => guarded .B w (.ok (.lzdFeed (field w 0 8)))
  | 0x22#8 => guarded .N w (.ok .lzdFinish)
  | 0x30#8 => guarded .B w (.ok (.lzeBegin (field w 0 8)))
  | 0x31#8 => guarded .B w (.ok (.lzeFeed (field w 0 8)))
  | 0x32#8 => guarded .N w (.ok .lzeFinish)
  | 0x40#8 => guarded .P w (.ok (.cmpScreen (field w 16 16) (field w 0 16)))
  | 0x41#8 => guarded .TS w (decodeCtSize w)
  | 0x42#8 => guarded .TW w (.ok (.cmpCtWrite (tableField w) (field w 40 8) (field w 16 8) (field w 8 8) (field w 0 8)))
  | 0x43#8 => guarded .G w (.ok (.cmpGce (field w 26 3) (flag w 25) (flag w 24) (field w 16 8) (field w 0 16)))
  | 0x44#8 => guarded .P w (.ok (.cmpImagePos (field w 16 16) (field w 0 16)))
  | 0x45#8 => guarded .IB w (.ok (.cmpImageBegin (flag w 48) (field w 16 16) (field w 0 16)))
  | 0x46#8 => guarded .B w (.ok (.cmpPixel (field w 0 8)))
  | 0x47#8 => guarded .N w (.ok .cmpImageEnd)
  | 0x48#8 => guarded .N w (.ok .cmpFinish)
  | _ => .error .unassignedOpcode

/-- A command word carried as eight bytes (R77): byte `k` holds bits `[8k+7 : 8k]`. -/
def transportWord (b0 b1 b2 b3 b4 b5 b6 b7 : Byte) : Word :=
  b7 ++ b6 ++ b5 ++ b4 ++ b3 ++ b2 ++ b1 ++ b0

/-- The decoder on a byte transport (R77): the command of the first eight bytes, and the bytes after it. -/
def decodeBytes : List Byte → Except Illegal (Instr × List Byte)
  | b0 :: b1 :: b2 :: b3 :: b4 :: b5 :: b6 :: b7 :: rest =>
    match decode (transportWord b0 b1 b2 b3 b4 b5 b6 b7) with
    | .ok i => .ok (i, rest)
    | .error e => .error e
  | _ => .error .shortWord

/-! ## The encoder -/

/-- The opcode of each command (R94). -/
def Instr.opcode : Instr → Byte
  | .nop => 0x00#8
  | .reset => 0x01#8
  | .cfg _ => 0x02#8
  | .rdReg _ => 0x03#8
  | .rdCanvas _ _ => 0x04#8
  | .rdCt _ _ => 0x05#8
  | .sbuBegin => 0x10#8
  | .sbuFeed _ => 0x11#8
  | .sbuFinish => 0x12#8
  | .sbfBegin => 0x18#8
  | .sbfPut _ => 0x19#8
  | .sbfEnd => 0x1A#8
  | .lzdBegin _ => 0x20#8
  | .lzdFeed _ => 0x21#8
  | .lzdFinish => 0x22#8
  | .lzeBegin _ => 0x30#8
  | .lzeFeed _ => 0x31#8
  | .lzeFinish => 0x32#8
  | .cmpScreen _ _ => 0x40#8
  | .cmpCtSize _ _ => 0x41#8
  | .cmpCtWrite _ _ _ _ _ => 0x42#8
  | .cmpGce _ _ _ _ _ => 0x43#8
  | .cmpImagePos _ _ => 0x44#8
  | .cmpImageBegin _ _ _ => 0x45#8
  | .cmpPixel _ => 0x46#8
  | .cmpImageEnd => 0x47#8
  | .cmpFinish => 0x48#8

/-- The format of each command (R94). -/
def Instr.format : Instr → Format
  | .cfg _ => .C
  | .rdReg _ | .sbuFeed _ | .sbfPut _ | .lzdBegin _ | .lzdFeed _ | .lzeBegin _ | .lzeFeed _ | .cmpPixel _ => .B
  | .rdCanvas _ _ | .cmpScreen _ _ | .cmpImagePos _ _ => .P
  | .rdCt _ _ => .TR
  | .cmpCtSize _ _ => .TS
  | .cmpCtWrite _ _ _ _ _ => .TW
  | .cmpGce _ _ _ _ _ => .G
  | .cmpImageBegin _ _ _ => .IB
  | .nop | .reset | .sbuBegin | .sbuFinish | .sbfBegin | .sbfEnd | .lzdFinish | .lzeFinish | .cmpImageEnd
  | .cmpFinish => .N

/-- The number of each register (R45). -/
def Reg.number : Reg → Byte
  | .sysStatus => 0x00#8
  | .config => 0x01#8
  | .canvasCap => 0x02#8
  | .sbuStatus => 0x10#8
  | .sbuCount => 0x11#8
  | .sbfStatus => 0x18#8
  | .sbfFill => 0x19#8
  | .lzdStatus => 0x20#8
  | .lzdCs => 0x21#8
  | .lzdWidth => 0x22#8
  | .lzdNext => 0x23#8
  | .lzdPrev => 0x24#8
  | .lzdBits => 0x25#8
  | .lzeStatus => 0x30#8
  | .lzeCs => 0x31#8
  | .lzeWidth => 0x32#8
  | .lzeNext => 0x33#8
  | .lzePending => 0x34#8
  | .lzeBits => 0x35#8
  | .cmpStatus => 0x40#8
  | .cmpScreen => 0x41#8
  | .cmpGctSize => 0x42#8
  | .cmpLctSize => 0x43#8
  | .cmpGce => 0x44#8
  | .cmpImgPos => 0x45#8
  | .cmpImgSize => 0x46#8
  | .cmpPixCount => 0x47#8
  | .cmpFrameCount => 0x48#8

/-- A table select as its bit (R91). -/
def Table.bit : Table → BitVec 1
  | .gct => 0#1
  | .lct => 1#1

/-- Bits [55:0]: the fields at their places, every other bit 0 (R91, R101). -/
def Instr.operands : Instr → BitVec 56
  | .cfg c => 0#50 ++ c
  | .rdReg r => 0#48 ++ r.number
  | .rdCanvas x y => 0#24 ++ x ++ y
  | .rdCt t i => 0#7 ++ t.bit ++ i ++ 0#40
  | .sbuFeed b => 0#48 ++ b
  | .sbfPut b => 0#48 ++ b
  | .lzdBegin cs => 0#48 ++ cs
  | .lzdFeed b => 0#48 ++ b
  | .lzeBegin cs => 0#48 ++ cs
  | .lzeFeed b => 0#48 ++ b
  | .cmpScreen w h => 0#24 ++ w ++ h
  | .cmpCtSize t n => 0#7 ++ t.bit ++ 0#39 ++ n
  | .cmpCtWrite t i r g bl => 0#7 ++ t.bit ++ i ++ 0#16 ++ r ++ g ++ bl
  | .cmpGce d u f ti dl => 0#27 ++ d ++ BitVec.ofBool u ++ BitVec.ofBool f ++ ti ++ dl
  | .cmpImagePos left top => 0#24 ++ left ++ top
  | .cmpImageBegin l w h => 0#7 ++ BitVec.ofBool l ++ 0#16 ++ w ++ h
  | .cmpPixel idx => 0#48 ++ idx
  | .nop | .reset | .sbuBegin | .sbuFinish | .sbfBegin | .sbfEnd | .lzdFinish | .lzeFinish | .cmpImageEnd
  | .cmpFinish => 0#56

/-- The word of a command (R101): `opcode << 56` OR each field at its place. -/
def encode (i : Instr) : Word := i.opcode ++ i.operands

/-- What the decoder reads from an instruction whose bits, numbered as the opcode table numbers them, are `w`
(bits at and above `nbits` are 0); a command is one 64-bit word, so its bits are the word's bits (R77, R90, log 13). -/
def decodeTableWord (nbits w : Nat) : Option Instr :=
  match decode (BitVec.ofNat 64 (w % 2 ^ nbits)) with
  | .ok i => some i
  | .error _ => none

end Sys2Proof
end

