-- ==== Sys2Proof/Machine/Memory.lean ====
section
/-! DEFINITION. The internal memories (R70): reading and writing one whole entry of a sparse memory, and its canonical form.
`d` is what an unlisted index reads as. -/

namespace Sys2Proof.Machine.Memory

/-- The listed entry of index `i`. -/
def find? {α : Type} : Mem α → Nat → Option α
  | [], _ => none
  | (k, v) :: m, i => if k = i then some v else find? m i

/-- `MemRead(M, i)` (R70). -/
def read {α : Type} (d : α) (m : Mem α) (i : Nat) : α := (find? m i).getD d

/-- List `v` at index `i`, in rising order, in the place of any entry listed there. -/
def insert {α : Type} : Mem α → Nat → α → Mem α
  | [], i, v => [(i, v)]
  | (k, x) :: m, i, v =>
    if i < k then (i, v) :: (k, x) :: m
    else if k = i then (i, v) :: m
    else (k, x) :: insert m i v

/-- List nothing at index `i`. -/
def erase {α : Type} : Mem α → Nat → Mem α
  | [], _ => []
  | (k, x) :: m, i => if k = i then erase m i else (k, x) :: erase m i

/-- `MemWrite(M, i, v)` (R70): writing what an unlisted index reads as removes the entry. -/
def write {α : Type} [DecidableEq α] (d : α) (m : Mem α) (i : Nat) (v : α) : Mem α :=
  if v = d then erase m i else insert m i v

/-- Every listed index is above `i`, and the indexes strictly rise. -/
def risingFrom {α : Type} : Nat → Mem α → Bool
  | _, [] => true
  | i, (k, _) :: m => decide (i < k) && risingFrom k m

/-- The listed indexes strictly rise. -/
def rising {α : Type} : Mem α → Bool
  | [] => true
  | (k, _) :: m => risingFrom k m

/-- The canonical form: indexes strictly rise, and no listed entry equals what an unlisted index reads as. -/
def wf {α : Type} [DecidableEq α] (d : α) (m : Mem α) : Bool :=
  rising m && m.all (fun e => decide (e.2 ≠ d))

/-- Every listed index is below `n` (the number of entries the memory has, R70). -/
def within {α : Type} (n : Nat) (m : Mem α) : Bool := m.all (fun e => decide (e.1 < n))

end Sys2Proof.Machine.Memory
end

