-- ==== Sys2Proof/Machine/State.lean ====
section
/-! DEFINITION. The state of the block (10_state.md), its reset value, and the reasons a step can stop. -/

namespace Sys2Proof.Machine

/-- The block has no fault (log 14): every command completes (R357), a unit error is a next state (R303) and an
illegal command is a next state (R302). -/
inductive Fault where
  deriving DecidableEq, Repr

/-- Why a step has no meaning. -/
inductive Refusal where
  /-- An instruction that has no meaning yet, by its mnemonic; raised by `exec`'s arm alone. Safe: the model stops. -/
  | notModelled (mnemonic : String)
  deriving DecidableEq, Repr

/-- The units of R22: those with a phase and a status word. -/
inductive UnitId where
  | sbu | sbf | lzd | lze | cmp
  deriving DecidableEq, Repr

/-- The 2-bit `PHASE` of R22; `done` is named FILLED in CMP. -/
inductive Phase where
  | idle | active | done | err
  deriving DecidableEq, Repr

/-- The error codes of R301. -/
inductive ErrCode where
  | noError | protocol | truncated | badCodeSize | invalidCode | missingEnd | badSymbol | canvasTooLarge | shortImage
  deriving DecidableEq, Repr

/-- The stored part of a unit's status word (R23). -/
structure UnitStatus where
  phase   : Phase
  errCode : ErrCode
  errInfo : BitVec 16
  deriving DecidableEq, Repr

/-- A unit after reset (R341). -/
def UnitStatus.reset : UnitStatus := { phase := .idle, errCode := .noError, errInfo := 0#16 }

/-- A unit its BEGIN has started (R305): ACTIVE, no error. -/
def UnitStatus.started : UnitStatus := { phase := .active, errCode := .noError, errInfo := 0#16 }

/-- The stored part of `SYS_STATUS` (R24). -/
structure Sys where
  illegal : Bool
  illOp   : Byte
  deriving DecidableEq, Repr

/-- The sub-block unframer (R27). -/
structure Sbu where
  st    : UnitStatus
  count : BitVec 8
  deriving DecidableEq, Repr

/-- The sub-block framer (R28). -/
structure Sbf where
  st   : UnitStatus
  fill : BitVec 8
  buf  : Mem Byte
  deriving DecidableEq, Repr

/-- The LZW decoder (R29, R30, R32); `prev` is `none` when `PREV` is EMPTY. -/
structure Lzd where
  st    : UnitStatus
  cs    : BitVec 4
  w     : BitVec 4
  next  : BitVec 13
  prev  : Option Code
  full  : Bool
  acc   : BitVec 32
  nbits : BitVec 5
  /-- `LZD.PREFIX` -/
  pfx   : Mem Code
  /-- `LZD.SUFFIX` -/
  sfx   : Mem Byte
  deriving DecidableEq, Repr

/-- The LZW encoder (R33, R34); `pend` is `none` when `PEND` is EMPTY.
`ht` is the finite map from (prefix code, byte) to code that R206 allows for `LZE.HT` (log 4): the entry of key
`(p, x)` stands at index `p * 256 + x`. -/
structure Lze where
  st    : UnitStatus
  cs    : BitVec 4
  w     : BitVec 4
  next  : BitVec 13
  pend  : Option Code
  acc   : BitVec 32
  nbits : BitVec 5
  ht    : Mem Code
  deriving DecidableEq, Repr

/-- A colour-table entry (R38). -/
structure Rgb where
  r : Byte
  g : Byte
  b : Byte
  deriving DecidableEq, Repr

/-- A canvas entry (R37). -/
structure Rgba where
  r : Byte
  g : Byte
  b : Byte
  a : Byte
  deriving DecidableEq, Repr

/-- The cached Graphic Control Extension (R39). -/
structure Gce where
  valid       : Bool
  disposal    : BitVec 3
  userInput   : Bool
  transpEn    : Bool
  transpIndex : Byte
  delay       : BitVec 16
  deriving DecidableEq, Repr

/-- "all zeros" (R39): the GCE after reset, `CMP_SCREEN` and the frame emission. -/
def Gce.cleared : Gce :=
  { valid := false, disposal := 0#3, userInput := false, transpEn := false, transpIndex := 0#8, delay := 0#16 }

/-- The frame compositor (R36 to R42). -/
structure Cmp where
  st         : UnitStatus
  screenW    : BitVec 16
  screenH    : BitVec 16
  canvas     : Mem Rgba
  gct        : Mem Rgb
  lct        : Mem Rgb
  gctSize    : BitVec 9
  lctSize    : BitVec 9
  gce        : Gce
  imgLeft    : BitVec 16
  imgTop     : BitVec 16
  imgW       : BitVec 16
  imgH       : BitVec 16
  imgLct     : Bool
  pixCount   : BitVec 32
  frameCount : BitVec 32
  deriving DecidableEq, Repr

/-- A record of channel `FRAME_OUT` (R43). -/
inductive FrameRecord where
  | frame (width height : BitVec 16) (pixels : List Rgba) (delay : BitVec 16)
  | finished
  deriving DecidableEq, Repr

/-- The five output channels (R43), each oldest item first. -/
structure Channels where
  sbuOut   : List Byte
  sbfOut   : List Byte
  lzdOut   : List Byte
  lzeOut   : List Byte
  frameOut : List FrameRecord
  deriving DecidableEq, Repr

/-- The whole block. -/
structure State where
  /-- The command words the host has issued and the block has not executed yet, oldest first (R76, log 1). -/
  port      : List Word
  /-- The response words, one per command completed, oldest first (R280, log 2). -/
  responses : List Word
  sys       : Sys
  /-- `CONFIG` (R25). -/
  config    : BitVec 6
  /-- `CANVAS_CAP` (R26): the parameter `MAX_CANVAS_PIXELS`, which no command writes (log 3). -/
  canvasCap : BitVec 32
  sbu       : Sbu
  sbf       : Sbf
  lzd       : Lzd
  lze       : Lze
  cmp       : Cmp
  out       : Channels
  deriving DecidableEq, Repr

def Sys.reset : Sys := { illegal := false, illOp := 0#8 }

def Sbu.reset : Sbu := { st := .reset, count := 0#8 }

/-- `SBF.BUF` is unspecified at reset (R342): the model's memory lists nothing (log 5). -/
def Sbf.reset : Sbf := { st := .reset, fill := 0#8, buf := [] }

/-- `LZD.PREFIX` and `LZD.SUFFIX` are unspecified at reset (R342): the model's memories list nothing (log 5). -/
def Lzd.reset : Lzd :=
  { st := .reset, cs := 0#4, w := 0#4, next := 0#13, prev := none, full := false, acc := 0#32, nbits := 0#5,
    pfx := [], sfx := [] }

def Lze.reset : Lze :=
  { st := .reset, cs := 0#4, w := 0#4, next := 0#13, pend := none, acc := 0#32, nbits := 0#5, ht := [] }

def Cmp.reset : Cmp :=
  { st := .reset, screenW := 0#16, screenH := 0#16, canvas := [], gct := [], lct := [], gctSize := 0#9,
    lctSize := 0#9, gce := .cleared, imgLeft := 0#16, imgTop := 0#16, imgW := 0#16, imgH := 0#16, imgLct := false,
    pixCount := 0#32, frameCount := 0#32 }

def Channels.empty : Channels := { sbuOut := [], sbfOut := [], lzdOut := [], lzeOut := [], frameOut := [] }

/-- The block right after power-on reset (R341, R342), with no command issued and nothing output yet. -/
def State.reset : State :=
  { port := [], responses := [], sys := .reset, config := 0#6, canvasCap := BitVec.ofNat 32 Config.maxCanvasPixels,
    sbu := .reset, sbf := .reset, lzd := .reset, lze := .reset, cmp := .reset, out := .empty }

end Sys2Proof.Machine
end

