-- ==== Sys2Proof/Machine/HashTable.lean ====
section
/-! DEFINITION. The encoder's dictionary in both forms: the finite map that State holds (R206), and the 16384-slot open-addressing table of
R205 for any hash function (the OPEN parameter `HASH_FN`, log 4), which the finite map stands for. -/

namespace Sys2Proof.Machine

/-! ## The finite map (R206) -/

/-- The index of key `(p, x)` in the finite map. -/
def hashKey (p : Code) (x : Byte) : Nat := p.toNat * 256 + x.toNat

/-- `HashLookup(p, x)` (R205, R206); `none` is NONE. -/
def hashLookup (ht : Mem Code) (p : Code) (x : Byte) : Option Code := Memory.find? ht (hashKey p x)

/-- `HashInsert(p, x, c)` (R205, R206). -/
def hashInsert (ht : Mem Code) (p : Code) (x : Byte) (c : Code) : Mem Code := Memory.insert ht (hashKey p x) c

/-- `HashClear()` (R207). -/
def hashClear : Mem Code := []

/-! ## The open-addressing table (R34, R205, R207) -/

/-- An entry of `LZE.HT` (R34). -/
structure HashSlot where
  used    : Bool
  kprefix : Code
  kbyte   : Byte
  code    : Code
  deriving DecidableEq, Repr

/-- An entry after `HashClear()` (R207): the other fields are never read. -/
def HashSlot.unused : HashSlot := { used := false, kprefix := 0#12, kbyte := 0#8, code := 0#12 }

/-- `LZE.HT[i]`. -/
def slotAt (tab : Mem HashSlot) (i : Nat) : HashSlot := Memory.read HashSlot.unused tab i

/-- The loop of `HashLookup` (R205) from slot `i`, for at most `fuel` slots. -/
def probeLookup (tab : Mem HashSlot) (p : Code) (x : Byte) : Nat → Nat → Option Code
  | 0, _ => none
  | fuel + 1, i =>
    if (slotAt tab i).used = false then none
    else if (slotAt tab i).kprefix = p ∧ (slotAt tab i).kbyte = x then some (slotAt tab i).code
    else probeLookup tab p x fuel ((i + 1) % Config.hashSlots)

/-- The loop of `HashInsert` (R205): the first slot not in use from slot `i` on, for at most `fuel` slots. -/
def probeFree (tab : Mem HashSlot) : Nat → Nat → Nat
  | 0, i => i
  | fuel + 1, i => if (slotAt tab i).used then probeFree tab fuel ((i + 1) % Config.hashSlots) else i

/-- `HashLookup(p, x)` (R205) with hash function `h`. -/
def tableLookup (h : Code → Byte → Nat) (tab : Mem HashSlot) (p : Code) (x : Byte) : Option Code :=
  probeLookup tab p x Config.hashSlots (h p x % Config.hashSlots)

/-- `HashInsert(p, x, c)` (R205) with hash function `h`. -/
def tableInsert (h : Code → Byte → Nat) (tab : Mem HashSlot) (p : Code) (x : Byte) (c : Code) : Mem HashSlot :=
  Memory.write HashSlot.unused tab (probeFree tab Config.hashSlots (h p x % Config.hashSlots))
    { used := true, kprefix := p, kbyte := x, code := c }

/-- `HashClear()` (R207). -/
def tableClear : Mem HashSlot := []

end Sys2Proof.Machine
end

