-- ==== Sys2Proof/Machine/Operands.lean ====
section
/-! DEFINITION. What the rules compute from operands and registers: the LZW constants (R6), the `CONFIG` bits (R25), colour-table and
canvas addressing (R37, R38, R238), and colours as numbers (R285, R286). -/

namespace Sys2Proof.Machine

/-! ## LZW constants (R6) -/

/-- `CLEAR(cs) = 2^cs`. -/
def clearCode (cs : Nat) : Nat := 2 ^ cs

/-- `END(cs) = CLEAR(cs) + 1`; also `NEXT0(cs)`. -/
def endCode (cs : Nat) : Nat := 2 ^ cs + 1

/-- `CLEAR`, `END` of the LZD (R29). -/
def Lzd.clear (d : Lzd) : Nat := clearCode d.cs.toNat
def Lzd.eoi (d : Lzd) : Nat := endCode d.cs.toNat

/-- `CLEAR`, `END` of the LZE (R33). -/
def Lze.clear (e : Lze) : Nat := clearCode e.cs.toNat
def Lze.eoi (e : Lze) : Nat := endCode e.cs.toNat

/-- A code size the coders accept: 2..8 (R150, R190). -/
def codeSizeOk (cs : Byte) : Bool := decide (Config.minCodeSize ≤ cs.toNat) && decide (cs.toNat ≤ Config.maxCodeSize)

/-! ## CONFIG (R25) -/

def sbuToLzd (s : State) : Bool := s.config.getLsbD 0
def lzdToCmp (s : State) : Bool := s.config.getLsbD 1
def lzeToSbf (s : State) : Bool := s.config.getLsbD 2
def lzeLeadingClear (s : State) : Bool := s.config.getLsbD 3
def lzdEodLenient (s : State) : Bool := s.config.getLsbD 4
def cmpShortLenient (s : State) : Bool := s.config.getLsbD 5

/-! ## Colours -/

/-- A colour-table entry at reset (R38). -/
def black : Rgb := { r := 0#8, g := 0#8, b := 0#8 }

/-- Fully transparent black (R230, R240). -/
def transparent : Rgba := { r := 0#8, g := 0#8, b := 0#8, a := 0#8 }

/-- A table colour on the canvas: alpha 255 (R241). -/
def Rgb.opaqueColour (c : Rgb) : Rgba := { r := c.r, g := c.g, b := c.b, a := 255#8 }

/-- `r * 2^24 + g * 2^16 + b * 2^8 + a` (R285). -/
def Rgba.toWord (c : Rgba) : Word := 0#32 ++ c.r ++ c.g ++ c.b ++ c.a

/-- `r * 2^16 + g * 2^8 + b` (R286). -/
def Rgb.toWord (c : Rgb) : Word := 0#40 ++ c.r ++ c.g ++ c.b

/-! ## Colour tables (R38) -/

/-- The table a select names. -/
def Cmp.table (c : Cmp) : Table → Mem Rgb
  | .gct => c.gct
  | .lct => c.lct

/-- The size of the table a select names. -/
def Cmp.tableSize (c : Cmp) : Table → Nat
  | .gct => c.gctSize.toNat
  | .lct => c.lctSize.toNat

/-- Entry `i` of a table. -/
def Cmp.tableEntry (c : Cmp) (t : Table) (i : Byte) : Rgb := Memory.read black (c.table t) i.toNat

/-- The active table of the current image (R249). -/
def Cmp.activeTable (c : Cmp) : Table := if c.imgLct then .lct else .gct

/-- The colour an index is translated to (R240, R241). -/
def Cmp.colourOf (c : Cmp) (idx : Byte) : Rgba :=
  if idx.toNat < c.tableSize c.activeTable then (c.tableEntry c.activeTable idx).opaqueColour else transparent

/-- The cached GCE marks the index transparent (R239). -/
def Cmp.isTransparent (c : Cmp) (idx : Byte) : Bool := c.gce.transpEn && decide (idx = c.gce.transpIndex)

/-! ## The canvas (R37, R238) -/

/-- `SCREEN_W * SCREEN_H`, the number of canvas entries. -/
def Cmp.canvasSize (c : Cmp) : Nat := c.screenW.toNat * c.screenH.toNat

/-- `IMG_W * IMG_H`, the declared area of the image. -/
def Cmp.imageArea (c : Cmp) : Nat := c.imgW.toNat * c.imgH.toNat

/-- The canvas column of the image's `k`-th pixel (R238), not truncated. -/
def Cmp.pixelX (c : Cmp) (k : Nat) : Nat := c.imgLeft.toNat + k % c.imgW.toNat

/-- The canvas row of the image's `k`-th pixel (R238), not truncated. -/
def Cmp.pixelY (c : Cmp) (k : Nat) : Nat := c.imgTop.toNat + k / c.imgW.toNat

/-- The pixel lies on the canvas (R242, R285). -/
def Cmp.onCanvas (c : Cmp) (x y : Nat) : Bool := decide (x < c.screenW.toNat) && decide (y < c.screenH.toNat)

/-- The canvas entry of pixel `(x, y)`: `y * SCREEN_W + x` (R37). -/
def Cmp.pixelIndex (c : Cmp) (x y : Nat) : Nat := y * c.screenW.toNat + x

/-- Canvas entry `k`. -/
def Cmp.canvasEntry (c : Cmp) (k : Nat) : Rgba := Memory.read transparent c.canvas k

/-- Canvas pixel `(x, y)`. -/
def Cmp.pixelAt (c : Cmp) (x y : Nat) : Rgba := c.canvasEntry (c.pixelIndex x y)

/-- A copy of the whole canvas, entry 0 first (R80, R243). -/
def Cmp.canvasCopy (c : Cmp) : List Rgba := (List.range c.canvasSize).map c.canvasEntry

end Sys2Proof.Machine
end

