-- ==== Sys2Proof/Machine/Ops.lean ====
section
/-! DEFINITION. The shared operations: named updates of State, the error entry and exit (R303, R305), the illegal command (R302),
the output channels (R75), the response word (R280) and the command port (R76). -/

namespace Sys2Proof.Machine

/-! ## Named updates -/

def State.setPort (s : State) (p : List Word) : State := { s with port := p }
def State.setSys (s : State) (y : Sys) : State := { s with sys := y }
def State.setConfig (s : State) (c : BitVec 6) : State := { s with config := c }
def State.setSbu (s : State) (u : Sbu) : State := { s with sbu := u }
def State.setSbf (s : State) (u : Sbf) : State := { s with sbf := u }
def State.setLzd (s : State) (u : Lzd) : State := { s with lzd := u }
def State.setLze (s : State) (u : Lze) : State := { s with lze := u }
def State.setCmp (s : State) (u : Cmp) : State := { s with cmp := u }
def State.setOut (s : State) (o : Channels) : State := { s with out := o }

/-! ## Unit status -/

/-- The stored status of a unit (R23). -/
def State.status (s : State) : UnitId → UnitStatus
  | .sbu => s.sbu.st
  | .sbf => s.sbf.st
  | .lzd => s.lzd.st
  | .lze => s.lze.st
  | .cmp => s.cmp.st

def State.setStatus (s : State) (u : UnitId) (st : UnitStatus) : State :=
  match u with
  | .sbu => s.setSbu { s.sbu with st := st }
  | .sbf => s.setSbf { s.sbf with st := st }
  | .lzd => s.setLzd { s.lzd with st := st }
  | .lze => s.setLze { s.lze with st := st }
  | .cmp => s.setCmp { s.cmp with st := st }

/-- `U.PHASE <- p`. -/
def setPhase (u : UnitId) (p : Phase) (s : State) : State := s.setStatus u { s.status u with phase := p }

/-! ## Error entry and exit -/

/-- TAKING AN ERROR, `raise Err(U, code, info)` (R303): three register writes, and the rule of the unit ends.
The block has no saved return point, no vector and no handler (R303). -/
def raiseErr (u : UnitId) (code : ErrCode) (info : BitVec 16) (s : State) : State :=
  s.setStatus u { phase := .err, errCode := code, errInfo := info }

/-- LEAVING AN ERROR: what every BEGIN (CMP: `CMP_SCREEN`) does first (R305); the phase is the BEGIN's own business. -/
def clearErr (u : UnitId) (s : State) : State :=
  s.setStatus u { s.status u with errCode := .noError, errInfo := 0#16 }

/-- The phase check's error (R301, R307): `PROTOCOL` with info = the command's opcode. -/
def protocolErr (u : UnitId) (opcode : Byte) (s : State) : State := raiseErr u .protocol (opcode.setWidth 16) s

/-! ## Output channels -/

/-- `Out(SBU_OUT, x)` (R75). -/
def outSbu (x : Byte) (s : State) : State := s.setOut { s.out with sbuOut := s.out.sbuOut ++ [x] }

/-- `Out(SBF_OUT, x)` for each `x` in order (R75). -/
def outSbf (xs : List Byte) (s : State) : State := s.setOut { s.out with sbfOut := s.out.sbfOut ++ xs }

/-- `Out(LZD_OUT, x)` (R75). -/
def outLzd (x : Byte) (s : State) : State := s.setOut { s.out with lzdOut := s.out.lzdOut ++ [x] }

/-- `Out(LZE_OUT, x)` (R75). -/
def outLze (x : Byte) (s : State) : State := s.setOut { s.out with lzeOut := s.out.lzeOut ++ [x] }

/-- `Out(FRAME_OUT, x)` (R75). -/
def outFrame (x : FrameRecord) (s : State) : State := s.setOut { s.out with frameOut := s.out.frameOut ++ [x] }

/-! ## Responses, completion, illegal commands -/

/-- `respond(v)` (R280). -/
def respond (v : Word) (s : State) : State := { s with responses := s.responses ++ [v] }

/-- A host command that is not a read completes with response 0 (R280). -/
def complete (s : State) : Host.Outcome State Fault Refusal := .next (respond 0#64 s)

/-- An illegal command (R302) whose word has the opcode field `op`. -/
def illegalCommand (op : Byte) (s : State) : State :=
  respond 0#64 (s.setSys { illegal := true, illOp := if s.sys.illegal then s.sys.illOp else op })

/-! ## The command port -/

/-- The next command word the host has issued, and the block with it taken from the port (R76, log 1). -/
def takeCommand (s : State) : Option (Word × State) :=
  match s.port with
  | [] => none
  | w :: ws => some (w, s.setPort ws)

/-- With no command issued nothing happens (R20, R76, log 1). -/
def idle (s : State) : State := s

/-- The command word `w` put where the block takes its next command from. -/
def issueNext (w : Word) (s : State) : State := s.setPort (w :: s.port)

end Sys2Proof.Machine
end

