-- ==== Sys2Proof/Machine/Flags.lean ====
section
/-! DEFINITION. The status flags and the register words: PHASE, FULL, the error codes (R22, R23, R301), SYS_STATUS (R24), and the layout of
every register `RD_REG` reads (R45). The block has no arithmetic condition codes (R44). -/

namespace Sys2Proof.Machine

/-- `PHASE` as its 2-bit value (R22). -/
def Phase.bits : Phase → BitVec 2
  | .idle => 0#2
  | .active => 1#2
  | .done => 2#2
  | .err => 3#2

/-- `ERR_CODE` as its value (R301). -/
def ErrCode.bits : ErrCode → BitVec 8
  | .noError => 0x00#8
  | .protocol => 0x01#8
  | .truncated => 0x02#8
  | .badCodeSize => 0x03#8
  | .invalidCode => 0x04#8
  | .missingEnd => 0x05#8
  | .badSymbol => 0x06#8
  | .canvasTooLarge => 0x07#8
  | .shortImage => 0x08#8

/-- Bit [2] of a status word: `LZD.FULL` in the LZD, 0 in the other units (R23, R32). -/
def statusFlag (s : State) : UnitId → Bool
  | .lzd => s.lzd.full
  | .sbu | .sbf | .lze | .cmp => false

/-- A unit's status word (R23). -/
def statusWord (u : UnitId) (s : State) : Word :=
  0#32 ++ (s.status u).errInfo ++ (s.status u).errCode.bits ++ 0#5 ++ BitVec.ofBool (statusFlag s u)
    ++ (s.status u).phase.bits

/-- A unit error bit of `SYS_STATUS`: 1 exactly when the unit's PHASE is ERR (R24). -/
def unitErr (u : UnitId) (s : State) : Bool := decide ((s.status u).phase = .err)

/-- `ANY_ERR` (R24): the OR of `ILLEGAL` and the unit error bits. -/
def anyErr (s : State) : Bool :=
  s.sys.illegal || unitErr .sbu s || unitErr .sbf s || unitErr .lzd s || unitErr .lze s || unitErr .cmp s

/-- `SYS_STATUS` (R24). -/
def sysStatusWord (s : State) : Word :=
  0#42 ++ BitVec.ofBool (anyErr s) ++ BitVec.ofBool (unitErr .cmp s) ++ BitVec.ofBool (unitErr .lze s)
    ++ BitVec.ofBool (unitErr .lzd s) ++ BitVec.ofBool (unitErr .sbf s) ++ BitVec.ofBool (unitErr .sbu s)
    ++ s.sys.illOp ++ 0#7 ++ BitVec.ofBool s.sys.illegal

/-- A code register: bit [12] valid, bits [11:0] the code, 0 when EMPTY (R29, R33). -/
def codeWord : Option Code → Word
  | none => 0#64
  | some c => 0#51 ++ 1#1 ++ c

/-- A bit accumulator: bits [63:32] `ACC`, bits [4:0] `NBITS` (R29, R33). -/
def bitsWord (acc : BitVec 32) (nbits : BitVec 5) : Word := acc ++ 0#27 ++ nbits

/-- The `CMP_GCE` register (R39). -/
def gceWord (g : Gce) : Word :=
  0#31 ++ BitVec.ofBool g.valid ++ 0#3 ++ g.disposal ++ BitVec.ofBool g.userInput ++ BitVec.ofBool g.transpEn
    ++ g.transpIndex ++ g.delay

/-- The word `RD_REG` reads from a register (R45, and the rule the map names for it). -/
def regWord (r : Reg) (s : State) : Word :=
  match r with
  | .sysStatus => sysStatusWord s
  | .config => s.config.setWidth 64
  | .canvasCap => s.canvasCap.setWidth 64
  | .sbuStatus => statusWord .sbu s
  | .sbuCount => s.sbu.count.setWidth 64
  | .sbfStatus => statusWord .sbf s
  | .sbfFill => s.sbf.fill.setWidth 64
  | .lzdStatus => statusWord .lzd s
  | .lzdCs => s.lzd.cs.setWidth 64
  | .lzdWidth => s.lzd.w.setWidth 64
  | .lzdNext => s.lzd.next.setWidth 64
  | .lzdPrev => codeWord s.lzd.prev
  | .lzdBits => bitsWord s.lzd.acc s.lzd.nbits
  | .lzeStatus => statusWord .lze s
  | .lzeCs => s.lze.cs.setWidth 64
  | .lzeWidth => s.lze.w.setWidth 64
  | .lzeNext => s.lze.next.setWidth 64
  | .lzePending => codeWord s.lze.pend
  | .lzeBits => bitsWord s.lze.acc s.lze.nbits
  | .cmpStatus => statusWord .cmp s
  | .cmpScreen => 0#32 ++ s.cmp.screenW ++ s.cmp.screenH
  | .cmpGctSize => s.cmp.gctSize.setWidth 64
  | .cmpLctSize => s.cmp.lctSize.setWidth 64
  | .cmpGce => gceWord s.cmp.gce
  | .cmpImgPos => 0#32 ++ s.cmp.imgLeft ++ s.cmp.imgTop
  | .cmpImgSize => 0#15 ++ BitVec.ofBool s.cmp.imgLct ++ 0#16 ++ s.cmp.imgW ++ s.cmp.imgH
  | .cmpPixCount => s.cmp.pixCount.setWidth 64
  | .cmpFrameCount => s.cmp.frameCount.setWidth 64

end Sys2Proof.Machine
end

