-- ==== Sys2Proof/Machine/Sbf.lean ====
section
/-! DEFINITION. SBF, the sub-block framer (41_subblock.md, section 2). The first definition of each command is its rule, run by the host or by
a `Forward` (R78); the second is the host command, which also responds. -/

namespace Sys2Proof.Machine

/-- Byte `i` of `SBF.BUF`. -/
def Sbf.bufAt (f : Sbf) (i : Nat) : Byte := Memory.read 0#8 f.buf i

/-- The first `n` bytes of `SBF.BUF`. -/
def Sbf.bufBytes (f : Sbf) (n : Nat) : List Byte := (List.range n).map f.bufAt

/-- R130 -/
def sbfBegin (s : State) : State :=
  s.setSbf { s.sbf with st := .started, fill := 0#8 }

/-- `SBF.BUF[SBF.FILL] <- b; SBF.FILL <- SBF.FILL + 1` (R131). -/
def Sbf.pushed (f : Sbf) (b : Byte) : Sbf :=
  { f with buf := Memory.write 0#8 f.buf f.fill.toNat b, fill := BitVec.ofNat 8 (f.fill.toNat + 1) }

/-- R131 -/
def sbfPut (b : Byte) (s : State) : State :=
  match s.sbf.st.phase with
  | .err => s
  | .idle | .done => protocolErr .sbf 0x19#8 s
  | .active =>
    let f := s.sbf.pushed b
    if f.fill.toNat = Config.subblockMax then
      outSbf (255#8 :: f.bufBytes 255) (s.setSbf { f with fill := 0#8 })
    else s.setSbf f

/-- R132 -/
def sbfEnd (s : State) : State :=
  match s.sbf.st.phase with
  | .err => s
  | .idle | .done => protocolErr .sbf 0x1A#8 s
  | .active =>
    let last : List Byte := if 0 < s.sbf.fill.toNat then s.sbf.fill :: s.sbf.bufBytes s.sbf.fill.toNat else []
    outSbf (last ++ [0#8]) (s.setSbf { s.sbf with st := { s.sbf.st with phase := .done }, fill := 0#8 })

/-- `SBF_BEGIN` (R130) -/
def execSbfBegin (s : State) : Host.Outcome State Fault Refusal := complete (sbfBegin s)

/-- `SBF_PUT b` (R131) -/
def execSbfPut (b : Byte) (s : State) : Host.Outcome State Fault Refusal := complete (sbfPut b s)

/-- `SBF_END` (R132) -/
def execSbfEnd (s : State) : Host.Outcome State Fault Refusal := complete (sbfEnd s)

end Sys2Proof.Machine
end

