-- ==== Sys2Proof/Machine/Lze.lean ====
section
/-! DEFINITION. LZE, the LZW encoder (43_lzw_encoder.md). The rule of each command, then the host command, which also responds. -/

namespace Sys2Proof.Machine

/-- `OutByte(x)` (R196): routed to SBF (R200) or appended to `LZE_OUT`. -/
def lzeOutByte (x : Byte) (s : State) : State := if lzeToSbf s then sbfPut x s else outLze x s

/-- The `while NBITS >= 8` loop of R196, which runs `NBITS div 8` times. -/
def lzeFlushBytes : Nat → State → State
  | 0, s => s
  | n + 1, s =>
    let s1 := lzeOutByte (BitVec.ofNat 8 (s.lze.acc.toNat % 2 ^ 8)) s
    lzeFlushBytes n (s1.setLze { s1.lze with acc := BitVec.ofNat 32 (s1.lze.acc.toNat / 2 ^ 8),
                                             nbits := BitVec.ofNat 5 (s1.lze.nbits.toNat - 8) })

/-- `EmitCode(c)` (R196): the code's `W` bits above the `NBITS` bits held, then every full byte goes out. -/
def emitCode (c : Nat) (s : State) : State :=
  let e := { s.lze with acc := BitVec.ofNat 32 (s.lze.acc.toNat + c * 2 ^ s.lze.nbits.toNat),
                        nbits := BitVec.ofNat 5 (s.lze.nbits.toNat + s.lze.w.toNat) }
  lzeFlushBytes (e.nbits.toNat / 8) (s.setLze e)

/-- LZE started for code size `cs`: the register writes of R190. -/
def Lze.begun (e : Lze) (cs : Byte) : Lze :=
  { e with st := .started,
           cs := BitVec.ofNat 4 cs.toNat, w := BitVec.ofNat 4 (cs.toNat + 1),
           next := BitVec.ofNat 13 (endCode cs.toNat), ht := hashClear, pend := none, acc := 0#32, nbits := 0#5 }

/-- R190 -/
def lzeBegin (cs : Byte) (s : State) : State :=
  let s0 := clearErr .lze s
  if codeSizeOk cs then
    let s1 := s0.setLze (s0.lze.begun cs)
    if lzeLeadingClear s1 then emitCode s1.lze.clear s1 else s1
  else raiseErr .lze .badCodeSize (cs.setWidth 16) s0

/-- `NEXT <- NEXT + 1` (R194, R198). -/
def Lze.advanced (e : Lze) : Lze := { e with next := BitVec.ofNat 13 (e.next.toNat + 1) }

/-- `W <- W + 1` (R194, R198). -/
def Lze.widened (e : Lze) : Lze := { e with w := BitVec.ofNat 4 (e.w.toNat + 1) }

/-- `NEXT == 2^W`. -/
def Lze.atThreshold (e : Lze) : Bool := decide (e.next.toNat = 2 ^ e.w.toNat)

/-- `Ceiling()` (R195). -/
def lzeCeiling (s : State) : State :=
  let s1 := emitCode s.lze.clear s
  s1.setLze { s1.lze with w := BitVec.ofNat 4 (s1.lze.cs.toNat + 1), next := BitVec.ofNat 13 s1.lze.eoi, ht := hashClear }

/-- The dictionary and width step of a miss below the ceiling (R194): the mapping takes code `NEXT`, then the width check. -/
def Lze.registered (e : Lze) (p : Code) (b : Byte) : Lze :=
  let e1 := { e with ht := hashInsert e.ht p b (BitVec.ofNat 12 e.next.toNat) }
  if e1.atThreshold then e1.widened else e1

/-- `NEXT <- NEXT + 1`, the decoder's advance after a data code (R194). -/
def lzeAdvance (s : State) : State := s.setLze s.lze.advanced

/-- The step of a miss after the advance (R194): the ceiling, or the new mapping. -/
def lzeRegister (p : Code) (b : Byte) (s : State) : State :=
  if s.lze.atThreshold && decide (s.lze.w.toNat = Config.maxWidth) then lzeCeiling s
  else s.setLze (s.lze.registered p b)

/-- `PEND <- c`. -/
def lzeSetPend (c : Option Code) (s : State) : State := s.setLze { s.lze with pend := c }

/-- `Miss(b)` (R194) with pending code `p`. -/
def lzeMiss (p : Code) (b : Byte) (s : State) : State :=
  lzeSetPend (some (b.setWidth 12)) (lzeRegister p b (lzeAdvance (emitCode p.toNat s)))

/-- R192 -/
def lzeFeed (b : Byte) (s : State) : State :=
  match s.lze.st.phase with
  | .err => s
  | .idle | .done => protocolErr .lze 0x31#8 s
  | .active =>
    if s.lze.clear ≤ b.toNat then raiseErr .lze .badSymbol (b.setWidth 16) s
    else
      match s.lze.pend with
      | none => lzeSetPend (some (b.setWidth 12)) s
      | some p =>
        match hashLookup s.lze.ht p b with
        | some h => lzeSetPend (some h) s
        | none => lzeMiss p b s

/-- The width check after the last data code (R198): the end code is read at this width. -/
def Lze.finalWidth (e : Lze) : Lze := if e.atThreshold && decide (e.w.toNat < Config.maxWidth) then e.widened else e

/-- The pending code of R198, the advance after it, and the width check before the end code. -/
def lzeLastCode (s : State) : State :=
  match s.lze.pend with
  | none => s
  | some p =>
    let s1 := lzeAdvance (emitCode p.toNat s)
    s1.setLze s1.lze.finalWidth

/-- The partial byte of R198. -/
def lzeFlushPartial (s : State) : State :=
  if 0 < s.lze.nbits.toNat then
    let s1 := lzeOutByte (BitVec.ofNat 8 (s.lze.acc.toNat % 2 ^ 8)) s
    s1.setLze { s1.lze with acc := 0#32, nbits := 0#5 }
  else s

/-- `PEND <- EMPTY; PHASE <- DONE` (R198). -/
def lzeDone (s : State) : State := s.setLze { s.lze with pend := none, st := { s.lze.st with phase := .done } }

/-- R198 -/
def lzeFinish (s : State) : State :=
  match s.lze.st.phase with
  | .err => s
  | .idle | .done => protocolErr .lze 0x32#8 s
  | .active =>
    let s1 := lzeLastCode s
    let s2 := lzeFlushPartial (emitCode s1.lze.eoi s1)
    let s3 := lzeDone s2
    if lzeToSbf s3 then sbfEnd s3 else s3

/-- `LZE_BEGIN cs` (R190) -/
def execLzeBegin (cs : Byte) (s : State) : Host.Outcome State Fault Refusal := complete (lzeBegin cs s)

/-- `LZE_FEED b` (R192) -/
def execLzeFeed (b : Byte) (s : State) : Host.Outcome State Fault Refusal := complete (lzeFeed b s)

/-- `LZE_FINISH` (R198) -/
def execLzeFinish (s : State) : Host.Outcome State Fault Refusal := complete (lzeFinish s)

end Sys2Proof.Machine
end

