-- ==== Sys2Proof/Machine/Cmp.lean ====
section
/-! DEFINITION. CMP, the frame compositor (44_compositor.md). The rule of each command, then the host command, which also responds. -/

namespace Sys2Proof.Machine

/-- `EmitFrame()` (R243). -/
def emitFrame (s : State) : State :=
  let c := s.cmp
  let dly := if c.gce.valid then c.gce.delay else 0#16
  outFrame (.frame c.screenW c.screenH c.canvasCopy dly)
    (s.setCmp { c with gce := .cleared, frameCount := BitVec.ofNat 32 ((c.frameCount.toNat + 1) % 2 ^ 32),
                       st := { c.st with phase := .done } })

/-- CMP with a new, clear canvas of `w * h` pixels: the register writes of R230. -/
def Cmp.screened (c : Cmp) (w h : BitVec 16) : Cmp :=
  { c with st := .reset, screenW := w, screenH := h, canvas := [],
           gctSize := 0#9, lctSize := 0#9, gce := .cleared, pixCount := 0#32, frameCount := 0#32 }

/-- R230 -/
def cmpScreen (w h : BitVec 16) (s : State) : State :=
  let s0 := clearErr .cmp s
  if s.canvasCap.toNat < w.toNat * h.toNat then raiseErr .cmp .canvasTooLarge 0#16 s0
  else s0.setCmp (s0.cmp.screened w h)

/-- The checks R231 to R234 share: in ERR ignored, in IDLE the effect `f`, otherwise `PROTOCOL`. -/
def whenIdle (opcode : Byte) (f : Cmp → Cmp) (s : State) : State :=
  match s.cmp.st.phase with
  | .err => s
  | .active | .done => protocolErr .cmp opcode s
  | .idle => s.setCmp (f s.cmp)

/-- R231 -/
def cmpCtSize (t : Table) (n : BitVec 9) (s : State) : State :=
  whenIdle 0x41#8 (fun c => match t with | .gct => { c with gctSize := n } | .lct => { c with lctSize := n }) s

/-- R232 -/
def cmpCtWrite (t : Table) (i r g bl : Byte) (s : State) : State :=
  whenIdle 0x42#8
    (fun c => match t with
      | .gct => { c with gct := Memory.write black c.gct i.toNat { r := r, g := g, b := bl } }
      | .lct => { c with lct := Memory.write black c.lct i.toNat { r := r, g := g, b := bl } }) s

/-- R233 -/
def cmpGce (d : BitVec 3) (u f : Bool) (ti : Byte) (dl : BitVec 16) (s : State) : State :=
  whenIdle 0x43#8
    (fun c => { c with gce := { valid := true, disposal := d, userInput := u, transpEn := f, transpIndex := ti, delay := dl } }) s

/-- R234 -/
def cmpImagePos (left top : BitVec 16) (s : State) : State :=
  whenIdle 0x44#8 (fun c => { c with imgLeft := left, imgTop := top }) s

/-- CMP with an image started: the register writes of R235. -/
def Cmp.imageBegun (c : Cmp) (l : Bool) (w h : BitVec 16) : Cmp :=
  { c with imgLct := l, imgW := w, imgH := h, pixCount := 0#32, st := { c.st with phase := .active } }

/-- R235 -/
def cmpImageBegin (l : Bool) (w h : BitVec 16) (s : State) : State :=
  match s.cmp.st.phase with
  | .err => s
  | .active | .done => protocolErr .cmp 0x45#8 s
  | .idle =>
    let s1 := s.setCmp (s.cmp.imageBegun l w h)
    if w.toNat * h.toNat = 0 then emitFrame s1 else s1

/-- The canvas after the next pixel, of index `idx` (R237 to R242). -/
def Cmp.composited (c : Cmp) (idx : Byte) : Mem Rgba :=
  let x := c.pixelX c.pixCount.toNat
  let y := c.pixelY c.pixCount.toNat
  if c.isTransparent idx then c.canvas
  else if c.onCanvas x y then Memory.write transparent c.canvas (c.pixelIndex x y) (c.colourOf idx)
  else c.canvas

/-- The next pixel of the image composited and counted (R237). -/
def Cmp.pixelTaken (c : Cmp) (idx : Byte) : Cmp :=
  { c with canvas := c.composited idx, pixCount := BitVec.ofNat 32 (c.pixCount.toNat + 1) }

/-- `PIX_COUNT == IMG_W * IMG_H` (R237). -/
def Cmp.areaFilled (c : Cmp) : Bool := decide (c.pixCount.toNat = c.imageArea)

/-- `if PIX_COUNT == IMG_W * IMG_H: EmitFrame()` (R237). -/
def emitWhenFilled (s : State) : State := if s.cmp.areaFilled then emitFrame s else s

/-- R237 -/
def cmpPixel (idx : Byte) (s : State) : State :=
  match s.cmp.st.phase with
  | .err => s
  | .idle => protocolErr .cmp 0x46#8 s
  | .done => s
  | .active => emitWhenFilled (s.setCmp (s.cmp.pixelTaken idx))

/-- R244 -/
def cmpImageEnd (s : State) : State :=
  match s.cmp.st.phase with
  | .err => s
  | .idle => protocolErr .cmp 0x47#8 s
  | .active =>
    if cmpShortLenient s then setPhase .cmp .idle (emitFrame s) else raiseErr .cmp .shortImage 0#16 s
  | .done => setPhase .cmp .idle s

/-- R245 -/
def cmpFinish (s : State) : State :=
  match s.cmp.st.phase with
  | .err => s
  | .active | .done => protocolErr .cmp 0x48#8 s
  | .idle => outFrame .finished s

/-- `CMP_SCREEN w, h` (R230) -/
def execCmpScreen (w h : BitVec 16) (s : State) : Host.Outcome State Fault Refusal := complete (cmpScreen w h s)

/-- `CMP_CT_SIZE t, n` (R231); a size above 256 is an illegal command (R94, R302). -/
def execCmpCtSize (t : Table) (n : BitVec 9) (s : State) : Host.Outcome State Fault Refusal :=
  if n.toNat ≤ Config.paletteMax then complete (cmpCtSize t n s) else .next (illegalCommand 0x41#8 s)

/-- `CMP_CT_WRITE t, i, r, g, bl` (R232) -/
def execCmpCtWrite (t : Table) (i r g bl : Byte) (s : State) : Host.Outcome State Fault Refusal :=
  complete (cmpCtWrite t i r g bl s)

/-- `CMP_GCE d, u, f, ti, dl` (R233) -/
def execCmpGce (d : BitVec 3) (u f : Bool) (ti : Byte) (dl : BitVec 16) (s : State) :
    Host.Outcome State Fault Refusal :=
  complete (cmpGce d u f ti dl s)

/-- `CMP_IMAGE_POS left, top` (R234) -/
def execCmpImagePos (left top : BitVec 16) (s : State) : Host.Outcome State Fault Refusal :=
  complete (cmpImagePos left top s)

/-- `CMP_IMAGE_BEGIN l, w, h` (R235) -/
def execCmpImageBegin (l : Bool) (w h : BitVec 16) (s : State) : Host.Outcome State Fault Refusal :=
  complete (cmpImageBegin l w h s)

/-- `CMP_PIXEL idx` (R237) -/
def execCmpPixel (idx : Byte) (s : State) : Host.Outcome State Fault Refusal := complete (cmpPixel idx s)

/-- `CMP_IMAGE_END` (R244) -/
def execCmpImageEnd (s : State) : Host.Outcome State Fault Refusal := complete (cmpImageEnd s)

/-- `CMP_FINISH` (R245) -/
def execCmpFinish (s : State) : Host.Outcome State Fault Refusal := complete (cmpFinish s)

end Sys2Proof.Machine
end

