-- ==== Sys2Proof/Machine/Lzd.lean ====
section
/-! DEFINITION. LZD, the LZW decoder (42_lzw_decoder.md). The rule of each command, then the host command, which also responds. -/

namespace Sys2Proof.Machine

/-! ## The dictionary (R30, R159, R160) -/

/-- `LZD.PREFIX[c]`. -/
def Lzd.prefixAt (d : Lzd) (c : Nat) : Code := Memory.read 0#12 d.pfx c

/-- `LZD.SUFFIX[c]`. -/
def Lzd.suffixAt (d : Lzd) (c : Nat) : Byte := Memory.read 0#8 d.sfx c

/-- The `while c >= CLEAR` loop of `Expand` (R159) and the literal that ends it, in the order collected.
A chain has at most 4096 codes (R31, R159); what a longer one would give is a free value (log 6). -/
def Lzd.walk (d : Lzd) : Nat → Nat → List Byte
  | 0, c => Config.brokenChain c
  | fuel + 1, c =>
    if d.clear ≤ c then d.suffixAt c :: d.walk fuel (d.prefixAt c).toNat
    else [BitVec.ofNat 8 c]

/-- `Expand(c)` (R159). -/
def Lzd.expand (d : Lzd) (c : Nat) : List Byte := (d.walk Config.dictSlots c).reverse

/-- The registration of `Grow(c, e)` (R160): `{prefix = PREV, suffix = e[0]}` at slot `NEXT`, if there is a previous code. -/
def Lzd.registered (d : Lzd) (e : List Byte) : Lzd :=
  match d.prev with
  | none => d
  | some p => { d with pfx := Memory.write 0#12 d.pfx d.next.toNat p,
                       sfx := Memory.write 0#8 d.sfx d.next.toNat (e.headD 0#8) }

/-- The advance of `Grow(c, e)` (R160): `PREV`, `NEXT`, and the width or the ceiling. -/
def Lzd.advanced (d : Lzd) (c : Nat) : Lzd :=
  let d1 := { d with prev := some (BitVec.ofNat 12 c), next := BitVec.ofNat 13 (d.next.toNat + 1) }
  if d1.next.toNat = 2 ^ d1.w.toNat then
    if d1.w.toNat < Config.maxWidth then { d1 with w := BitVec.ofNat 4 (d1.w.toNat + 1) }
    else { d1 with full := true, prev := none }
  else d1

/-- `Grow(c, e)` (R160); nothing while the table is full (R161). -/
def Lzd.grown (d : Lzd) (c : Nat) (e : List Byte) : Lzd :=
  if d.full then d else (d.registered e).advanced c

/-! ## Output -/

/-- One byte of `Emit` (R162): routed to CMP or appended to `LZD_OUT`. -/
def lzdOutByte (x : Byte) (s : State) : State := if lzdToCmp s then cmpPixel x s else outLzd x s

/-- `Emit(e)` (R162). -/
def lzdEmit (e : List Byte) (s : State) : State := e.foldl (fun t x => lzdOutByte x t) s

/-- A data code (LIT, DICT or KWK) `c` with expansion `e`: `Emit(e); Grow(c, e)` (R153, R156, R157). -/
def lzdDataCode (c : Nat) (e : List Byte) (s : State) : State :=
  let s1 := lzdEmit e s
  s1.setLzd (s1.lzd.grown c e)

/-! ## The per-code step -/

/-- The classes of R98. -/
inductive CodeClass where
  | lit | clr | eoi | dict
  /-- "code equals table size", with the previous code -/
  | kwk (prev : Code)
  | bad
  deriving DecidableEq, Repr

/-- The class of a code (R98, R152), tested in the order of R98's table. -/
def Lzd.classify (d : Lzd) (c : Nat) : CodeClass :=
  if c < d.clear then .lit
  else if c = d.clear then .clr
  else if c = d.eoi then .eoi
  else if d.eoi < c ∧ c < d.next.toNat then .dict
  else
    match d.prev with
    | some p => if c = d.next.toNat ∧ d.eoi < c then .kwk p else .bad
    | none => .bad

/-- R154: the state after a clear code. -/
def Lzd.cleared (d : Lzd) : Lzd :=
  { d with w := BitVec.ofNat 4 (d.cs.toNat + 1), next := BitVec.ofNat 13 d.eoi, prev := none, full := false }

/-- `PHASE <- DONE; ACC <- 0; NBITS <- 0`: the state after the end code (R155) or a lenient finish (R163). -/
def Lzd.ended (d : Lzd) : Lzd := { d with st := { d.st with phase := .done }, acc := 0#32, nbits := 0#5 }

/-- R157: the expansion of the code that equals the table size, from the previous code `p`. -/
def Lzd.kwkExpansion (d : Lzd) (p : Code) : List Byte :=
  d.expand p.toNat ++ [(d.expand p.toNat).headD 0#8]

/-- `Symbol(c)` (R152 to R158). -/
def lzdSymbol (c : Nat) (s : State) : State :=
  match s.lzd.classify c with
  | .lit => lzdDataCode c [BitVec.ofNat 8 c] s
  | .clr => s.setLzd s.lzd.cleared
  | .eoi => s.setLzd s.lzd.ended
  | .dict => lzdDataCode c (s.lzd.expand c) s
  | .kwk p => lzdDataCode c (s.lzd.kwkExpansion p) s
  | .bad => raiseErr .lzd .invalidCode (BitVec.ofNat 16 c) s

/-! ## Commands -/

/-- LZD started for code size `cs`: the register writes of R150. -/
def Lzd.begun (d : Lzd) (cs : Byte) : Lzd :=
  { d with st := .started,
           cs := BitVec.ofNat 4 cs.toNat, w := BitVec.ofNat 4 (cs.toNat + 1),
           next := BitVec.ofNat 13 (endCode cs.toNat), prev := none, full := false, acc := 0#32, nbits := 0#5 }

/-- R150 -/
def lzdBegin (cs : Byte) (s : State) : State :=
  let s0 := clearErr .lzd s
  if codeSizeOk cs then s0.setLzd (s0.lzd.begun cs) else raiseErr .lzd .badCodeSize (cs.setWidth 16) s0

/-- The next code in the accumulator: its low `W` bits (R151, R73). -/
def Lzd.nextCode (d : Lzd) : Nat := d.acc.toNat % 2 ^ d.w.toNat

/-- The accumulator with the next code taken (R151). -/
def Lzd.codeTaken (d : Lzd) : Lzd :=
  { d with acc := BitVec.ofNat 32 (d.acc.toNat / 2 ^ d.w.toNat), nbits := BitVec.ofNat 5 (d.nbits.toNat - d.w.toNat) }

/-- The accumulator with byte `b` above the bits it holds (R151). -/
def Lzd.byteGiven (d : Lzd) (b : Byte) : Lzd :=
  { d with acc := BitVec.ofNat 32 (d.acc.toNat + b.toNat * 2 ^ d.nbits.toNat), nbits := BitVec.ofNat 5 (d.nbits.toNat + 8) }

/-- The loop of R151 continues: ACTIVE and a whole code held. -/
def Lzd.hasCode (d : Lzd) : Bool := decide (d.st.phase = .active) && decide (d.w.toNat ≤ d.nbits.toNat)

/-- The loop of R151. Every code takes at least one bit, so `NBITS` rounds are enough (log 7). -/
def lzdLoop : Nat → State → State
  | 0, s => s
  | fuel + 1, s =>
    if s.lzd.hasCode then lzdLoop fuel (lzdSymbol s.lzd.nextCode (s.setLzd s.lzd.codeTaken)) else s

/-- R151 -/
def lzdFeed (b : Byte) (s : State) : State :=
  match s.lzd.st.phase with
  | .err => s
  | .idle => protocolErr .lzd 0x21#8 s
  | .done => s
  | .active => lzdLoop (s.lzd.byteGiven b).nbits.toNat (s.setLzd (s.lzd.byteGiven b))

/-- `if CONFIG.LZD_TO_CMP == 1: Forward(CMP_IMAGE_END)` (R163). -/
def lzdForwardEnd (s : State) : State := if lzdToCmp s then cmpImageEnd s else s

/-- R163 -/
def lzdFinish (s : State) : State :=
  match s.lzd.st.phase with
  | .err => s
  | .idle => protocolErr .lzd 0x22#8 s
  | .active =>
    if lzdEodLenient s then
      lzdForwardEnd (s.setLzd s.lzd.ended)
    else raiseErr .lzd .missingEnd 0#16 s
  | .done => lzdForwardEnd s

/-- `LZD_BEGIN cs` (R150) -/
def execLzdBegin (cs : Byte) (s : State) : Host.Outcome State Fault Refusal := complete (lzdBegin cs s)

/-- `LZD_FEED b` (R151) -/
def execLzdFeed (b : Byte) (s : State) : Host.Outcome State Fault Refusal := complete (lzdFeed b s)

/-- `LZD_FINISH` (R163) -/
def execLzdFinish (s : State) : Host.Outcome State Fault Refusal := complete (lzdFinish s)

end Sys2Proof.Machine
end

