-- ==== Sys2Proof/Machine/Sbu.lean ====
section
/-! DEFINITION. SBU, the sub-block unframer (41_subblock.md, section 1). The rule of each command, then the host command, which also responds. -/

namespace Sys2Proof.Machine

/-- R120 -/
def sbuBegin (s : State) : State :=
  s.setSbu { s.sbu with st := .started, count := 0#8 }

/-- R121 -/
def sbuFeed (b : Byte) (s : State) : State :=
  match s.sbu.st.phase with
  | .err => s
  | .idle | .done => protocolErr .sbu 0x11#8 s
  | .active =>
    if s.sbu.count.toNat = 0 then
      if b.toNat = 0 then
        let s1 := setPhase .sbu .done s
        if sbuToLzd s1 then lzdFinish s1 else s1
      else s.setSbu { s.sbu with count := b }
    else
      let s1 := s.setSbu { s.sbu with count := BitVec.ofNat 8 (s.sbu.count.toNat - 1) }
      if sbuToLzd s1 then lzdFeed b s1 else outSbu b s1

/-- R122 -/
def sbuFinish (s : State) : State :=
  match s.sbu.st.phase with
  | .err => s
  | .idle => protocolErr .sbu 0x12#8 s
  | .done => s
  | .active => raiseErr .sbu .truncated (s.sbu.count.setWidth 16) s

/-- `SBU_BEGIN` (R120) -/
def execSbuBegin (s : State) : Host.Outcome State Fault Refusal := complete (sbuBegin s)

/-- `SBU_FEED b` (R121) -/
def execSbuFeed (b : Byte) (s : State) : Host.Outcome State Fault Refusal := complete (sbuFeed b s)

/-- `SBU_FINISH` (R122) -/
def execSbuFinish (s : State) : Host.Outcome State Fault Refusal := complete (sbuFinish s)

end Sys2Proof.Machine
end

