-- ==== Sys2Proof/Machine/System.lean ====
section
/-! DEFINITION. SYS, the system commands and the read-back (45_system.md). -/

namespace Sys2Proof.Machine

/-- `NOP` (R281) -/
def execNop (s : State) : Host.Outcome State Fault Refusal := complete s

/-- R282, R341 to R343: every register, `LZE.HT`, the colour tables and the canvas at their reset values. Kept are the
memories whose reset contents are unspecified (R282, log 5), `CANVAS_CAP` (a constant, R341), the items of the channels (R343),
and the host's side: the words it has issued and the responses it was given (log 12). -/
def resetBlock (s : State) : State :=
  { State.reset with
    port := s.port, responses := s.responses, canvasCap := s.canvasCap, out := s.out,
    sbf := { Sbf.reset with buf := s.sbf.buf },
    lzd := { Lzd.reset with pfx := s.lzd.pfx, sfx := s.lzd.sfx } }

/-- `RESET` (R282) -/
def execReset (s : State) : Host.Outcome State Fault Refusal := complete (resetBlock s)

/-- `CFG cfg` (R283) -/
def execCfg (c : BitVec 6) (s : State) : Host.Outcome State Fault Refusal := complete (s.setConfig c)

/-- `RD_REG reg` (R284) -/
def execRdReg (r : Reg) (s : State) : Host.Outcome State Fault Refusal := .next (respond (regWord r s) s)

/-- `RD_CANVAS x, y` (R285): off the canvas the command is illegal (R94, R302). -/
def execRdCanvas (x y : BitVec 16) (s : State) : Host.Outcome State Fault Refusal :=
  if s.cmp.onCanvas x.toNat y.toNat then .next (respond (s.cmp.pixelAt x.toNat y.toNat).toWord s)
  else .next (illegalCommand 0x04#8 s)

/-- `RD_CT t, i` (R286) -/
def execRdCt (t : Table) (i : Byte) (s : State) : Host.Outcome State Fault Refusal :=
  .next (respond (s.cmp.tableEntry t i).toWord s)

end Sys2Proof.Machine
end

