-- ==== Sys2Proof/Machine/Dispatch.lean ====
section
/-! DEFINITION. One arm per command: which meaning a command has. -/

namespace Sys2Proof.Machine

def exec (i : Instr) (s : State) : Host.Outcome State Fault Refusal :=
  match i with
  | .nop => Sys2Proof.Machine.execNop s
  | .reset => Sys2Proof.Machine.execReset s
  | .cfg c => Sys2Proof.Machine.execCfg c s
  | .rdReg r => Sys2Proof.Machine.execRdReg r s
  | .rdCanvas x y => Sys2Proof.Machine.execRdCanvas x y s
  | .rdCt t j => Sys2Proof.Machine.execRdCt t j s
  | .sbuBegin => Sys2Proof.Machine.execSbuBegin s
  | .sbuFeed b => Sys2Proof.Machine.execSbuFeed b s
  | .sbuFinish => Sys2Proof.Machine.execSbuFinish s
  | .sbfBegin => Sys2Proof.Machine.execSbfBegin s
  | .sbfPut b => Sys2Proof.Machine.execSbfPut b s
  | .sbfEnd => Sys2Proof.Machine.execSbfEnd s
  | .lzdBegin cs => Sys2Proof.Machine.execLzdBegin cs s
  | .lzdFeed b => Sys2Proof.Machine.execLzdFeed b s
  | .lzdFinish => Sys2Proof.Machine.execLzdFinish s
  | .lzeBegin cs => Sys2Proof.Machine.execLzeBegin cs s
  | .lzeFeed b => Sys2Proof.Machine.execLzeFeed b s
  | .lzeFinish => Sys2Proof.Machine.execLzeFinish s
  | .cmpScreen w h => Sys2Proof.Machine.execCmpScreen w h s
  | .cmpCtSize t n => Sys2Proof.Machine.execCmpCtSize t n s
  | .cmpCtWrite t j r g bl => Sys2Proof.Machine.execCmpCtWrite t j r g bl s
  | .cmpGce d u f ti dl => Sys2Proof.Machine.execCmpGce d u f ti dl s
  | .cmpImagePos left top => Sys2Proof.Machine.execCmpImagePos left top s
  | .cmpImageBegin l w h => Sys2Proof.Machine.execCmpImageBegin l w h s
  | .cmpPixel idx => Sys2Proof.Machine.execCmpPixel idx s
  | .cmpImageEnd => Sys2Proof.Machine.execCmpImageEnd s
  | .cmpFinish => Sys2Proof.Machine.execCmpFinish s

end Sys2Proof.Machine
end

