-- ==== Sys2Proof/Machine/Step.lean ====
section
/-! DEFINITION. One step: the next command word the host has issued, decoded and run to completion (R76). -/

namespace Sys2Proof.Machine

/-- One step (R76, R96, R302): with no word in the port, nothing happens (log 1); a word that spells a command runs it; any other
is an illegal command. -/
def step (s : State) : Host.Outcome State Fault Refusal :=
  match takeCommand s with
  | none => .next (idle s)
  | some (w, s') =>
    match decode w with
    | .ok i => exec i s'
    | .error _ => .next (illegalCommand (opcodeOf w) s')

/-- `s` with the instruction whose table bits are `w` issued as the block's next command (log 1, log 13). -/
def State.withFetchWord (s : State) (nbits w : Nat) : State := issueNext (BitVec.ofNat 64 (w % 2 ^ nbits)) s

end Sys2Proof.Machine
end

