-- ==== Sys2Proof/Safety.lean ====
section
/-! DEFINITION. The terms the statements use: what a legal state of the block is (the invariants the spec states between commands, R28, R31,
R35, R41, R68, R70, R164, and the canonical form of the memories), and the spec's own tables, laws and loops written a second
time, apart from the machine: R94's table, the register words as numbers, framing, the decoder's per-code step, EmitCode, frames. -/

namespace Sys2Proof.Machine

/-- `ERR_CODE` and `ERR_INFO` are 0 when there is no error, and there is one exactly in phase ERR (R23, R303, R305). -/
structure UnitStatus.Ok (st : UnitStatus) : Prop where
  err_iff : st.phase = .err ↔ st.errCode ≠ .noError
  info    : st.errCode = .noError → st.errInfo = 0#16

/-- `ILL_OP` is 0 when there was no illegal command (R24). -/
def Sys.Ok (y : Sys) : Prop := y.illegal = false → y.illOp = 0#8

/-- R28: `SBF.FILL <= 254` between commands, and the buffer is a canonical memory of 255 entries. -/
structure Sbf.Ok (f : Sbf) : Prop where
  fill : f.fill.toNat ≤ 254
  wf   : Memory.wf 0#8 f.buf = true
  size : Memory.within 255 f.buf = true

/-- A code of a data class: a literal, or a dictionary code below `n` (R98). -/
def isDataCode (cs n : Nat) (c : Nat) : Prop := c < clearCode cs ∨ (endCode cs < c ∧ c < n)

/-- R31, R164 for the dictionary and the counters of a decoder that runs or has finished. -/
structure Lzd.TableOk (d : Lzd) : Prop where
  cs_lo   : 2 ≤ d.cs.toNat
  cs_hi   : d.cs.toNat ≤ 8
  w_lo    : d.cs.toNat + 1 ≤ d.w.toNat
  w_hi    : d.w.toNat ≤ 12
  next_lo : d.eoi ≤ d.next.toNat
  next_hi : d.next.toNat ≤ 4096
  /-- `W = min(12, bitlen(NEXT))`, lower half (R164) -/
  w_next  : 2 ^ (d.w.toNat - 1) ≤ d.next.toNat
  /-- `NEXT < 2^W` unless FULL (R31) -/
  next_w  : d.full = false → d.next.toNat < 2 ^ d.w.toNat
  full    : d.full = true → d.w.toNat = 12 ∧ d.next.toNat = 4096
  /-- `PREV` is EMPTY exactly when no data code was processed since the last clear (or begin) or when FULL (R31) -/
  prev    : d.prev = none ↔ (d.next.toNat = d.eoi ∨ d.full = true)
  prev_is : ∀ p, d.prev = some p → isDataCode d.cs.toNat d.next.toNat p.toNat
  /-- every registered slot's prefix is a data code below the slot (R31) -/
  chain   : ∀ c, d.eoi < c → c < d.next.toNat → isDataCode d.cs.toNat c (d.prefixAt c).toNat

/-- R31 for the bit reader between commands. -/
structure Lzd.BitsOk (d : Lzd) : Prop where
  nbits : d.nbits.toNat < d.w.toNat
  acc   : d.acc.toNat < 2 ^ d.nbits.toNat

/-- The decoder: its bounds in every phase (R68, R70), and R31 while ACTIVE or DONE. -/
structure Lzd.Ok (d : Lzd) : Prop where
  next    : d.next.toNat ≤ 4096
  w       : d.w.toNat ≤ 12
  pfx_wf  : Memory.wf 0#12 d.pfx = true
  sfx_wf  : Memory.wf 0#8 d.sfx = true
  pfx_in  : Memory.within 4096 d.pfx = true
  sfx_in  : Memory.within 4096 d.sfx = true
  table   : d.st.phase = .active ∨ d.st.phase = .done → d.TableOk
  bits    : d.st.phase = .active ∨ d.st.phase = .done → d.BitsOk

/-- R35 for an encoder that runs. -/
structure Lze.StreamOk (e : Lze) : Prop where
  cs_lo   : 2 ≤ e.cs.toNat
  cs_hi   : e.cs.toNat ≤ 8
  w_lo    : e.cs.toNat + 1 ≤ e.w.toNat
  w_hi    : e.w.toNat ≤ 12
  next_lo : e.eoi ≤ e.next.toNat
  next_hi : e.next.toNat ≤ 4095
  w_next  : 2 ^ (e.w.toNat - 1) ≤ e.next.toNat
  next_w  : e.next.toNat < 2 ^ e.w.toNat
  nbits   : e.nbits.toNat < 8
  acc     : e.acc.toNat < 2 ^ e.nbits.toNat
  /-- `PEND` is EMPTY only before the first input byte -/
  pend    : e.pend = none → e.next.toNat = e.eoi ∧ e.ht = []
  pend_is : ∀ p, e.pend = some p → isDataCode e.cs.toNat (e.next.toNat + 1) p.toNat
  /-- each mapping has a code in `END + 1 .. NEXT`, a data code below it as prefix, and a literal as byte -/
  codes   : ∀ m ∈ e.ht, e.eoi < m.2.toNat ∧ m.2.toNat ≤ e.next.toNat ∧
              isDataCode e.cs.toNat m.2.toNat (m.1 / 256) ∧ m.1 % 256 < e.clear
  distinct : (e.ht.map (fun m => m.2)).Nodup

/-- The encoder: its bounds in every phase (R68), its code size while ACTIVE or DONE (R33), and R35 while ACTIVE. -/
structure Lze.Ok (e : Lze) : Prop where
  next   : e.next.toNat ≤ 4096
  w      : e.w.toNat ≤ 12
  rising : Memory.rising e.ht = true
  cs     : e.st.phase = .active ∨ e.st.phase = .done → 2 ≤ e.cs.toNat ∧ e.cs.toNat ≤ 8
  stream : e.st.phase = .active → e.StreamOk

/-- The compositor (R37 to R42), for a canvas capacity `cap` (R26). -/
structure Cmp.Ok (cap : Nat) (c : Cmp) : Prop where
  canvas_wf  : Memory.wf transparent c.canvas = true
  canvas_in  : Memory.within c.canvasSize c.canvas = true
  canvas_cap : c.canvasSize ≤ cap
  gct_wf     : Memory.wf black c.gct = true
  lct_wf     : Memory.wf black c.lct = true
  gct_in     : Memory.within 256 c.gct = true
  lct_in     : Memory.within 256 c.lct = true
  gct_size   : c.gctSize.toNat ≤ 256
  lct_size   : c.lctSize.toNat ≤ 256
  /-- every clear of the GCE clears all of it; only `CMP_GCE` sets anything (R39, R239) -/
  gce        : c.gce.valid = false → c.gce = .cleared
  pixels     : c.pixCount.toNat ≤ c.imageArea
  /-- ACTIVE until the rectangle is full (R42); so `IMG_W > 0` (R237) -/
  active     : c.st.phase = .active → c.pixCount.toNat < c.imageArea

/-- A legal state of the block. -/
structure Inv (s : State) : Prop where
  /-- `1 <= MAX_CANVAS_PIXELS` (R26) -/
  cap    : 1 ≤ s.canvasCap.toNat
  sys    : s.sys.Ok
  status : ∀ u, (s.status u).Ok
  sbf    : s.sbf.Ok
  lzd    : s.lzd.Ok
  lze    : s.lze.Ok
  cmp    : s.cmp.Ok s.canvasCap.toNat

/-! ## Running commands -/

/-- The commands `is`, executed one after another (R76, R81); `none` if one of them does not answer a next state. -/
def runCommands : List Instr → State → Option State
  | [], s => some s
  | i :: is, s =>
    match exec i s with
    | .next t => runCommands is t
    | .fault _ | .refused _ => none

/-! ## The command word, as R94's table has it -/

/-- A row of R94: the opcode and the mask; `match` is `opcode << 56`. -/
structure OpcodeRow where
  opcode : Nat
  mask   : Nat
  deriving DecidableEq, Repr

/-- R94, row by row. -/
def opcodeRows : List OpcodeRow :=
  [⟨0x00, 0xFFFFFFFFFFFFFFFF⟩, ⟨0x01, 0xFFFFFFFFFFFFFFFF⟩, ⟨0x02, 0xFFFFFFFFFFFFFFC0⟩, ⟨0x03, 0xFFFFFFFFFFFFFF00⟩,
   ⟨0x04, 0xFFFFFFFF00000000⟩, ⟨0x05, 0xFFFE00FFFFFFFFFF⟩] ++
  [⟨0x10, 0xFFFFFFFFFFFFFFFF⟩, ⟨0x11, 0xFFFFFFFFFFFFFF00⟩, ⟨0x12, 0xFFFFFFFFFFFFFFFF⟩,
   ⟨0x18, 0xFFFFFFFFFFFFFFFF⟩, ⟨0x19, 0xFFFFFFFFFFFFFF00⟩, ⟨0x1A, 0xFFFFFFFFFFFFFFFF⟩] ++
  [⟨0x20, 0xFFFFFFFFFFFFFF00⟩, ⟨0x21, 0xFFFFFFFFFFFFFF00⟩, ⟨0x22, 0xFFFFFFFFFFFFFFFF⟩,
   ⟨0x30, 0xFFFFFFFFFFFFFF00⟩, ⟨0x31, 0xFFFFFFFFFFFFFF00⟩, ⟨0x32, 0xFFFFFFFFFFFFFFFF⟩] ++
  [⟨0x40, 0xFFFFFFFF00000000⟩, ⟨0x41, 0xFFFEFFFFFFFFFE00⟩, ⟨0x42, 0xFFFE00FFFF000000⟩, ⟨0x43, 0xFFFFFFFF00000000⟩,
   ⟨0x44, 0xFFFFFFFF00000000⟩, ⟨0x45, 0xFFFEFFFF00000000⟩, ⟨0x46, 0xFFFFFFFFFFFFFF00⟩, ⟨0x47, 0xFFFFFFFFFFFFFFFF⟩,
   ⟨0x48, 0xFFFFFFFFFFFFFFFF⟩]

/-- The register numbers of R45. -/
def registerNumbers : List Nat :=
  [0x00, 0x01, 0x02, 0x10, 0x11, 0x18, 0x19, 0x20, 0x21, 0x22, 0x23, 0x24, 0x25, 0x30, 0x31, 0x32, 0x33, 0x34, 0x35] ++
  [0x40, 0x41, 0x42, 0x43, 0x44, 0x45, 0x46, 0x47, 0x48]

/-- `c & mask == match` for some row of R94. -/
def matchesRow (c : Word) : Prop :=
  ∃ r ∈ opcodeRows, c &&& BitVec.ofNat 64 r.mask = BitVec.ofNat 64 (r.opcode * 2 ^ 56)

/-- The constraint column of R94, as far as the word alone decides it (`RD_REG`, `CMP_CT_SIZE`). -/
def wordConstraint (c : Word) : Prop :=
  (c.toNat / 2 ^ 56 = 0x03 → c.toNat % 2 ^ 8 ∈ registerNumbers) ∧ (c.toNat / 2 ^ 56 = 0x41 → c.toNat % 2 ^ 9 ≤ 256)

/-- The constraint of `RD_CANVAS` (R94, R285): the pixel is on the canvas. -/
def canvasConstraint (s : State) (c : Word) : Prop :=
  c.toNat / 2 ^ 56 = 0x04 →
    c.toNat / 2 ^ 16 % 2 ^ 16 < s.cmp.screenW.toNat ∧ c.toNat % 2 ^ 16 < s.cmp.screenH.toNat

/-- What an illegal command with opcode field `op` makes of the block (R302). -/
def afterIllegal (op : Byte) (s : State) : State :=
  { s with sys := { illegal := true, illOp := if s.sys.illegal then s.sys.illOp else op },
           responses := s.responses ++ [0#64] }

/-! ## Units, phases and phase checks -/

/-- The unit a command addresses; `none` for the SYS commands (R2, R94). -/
def targetOf : Instr → Option UnitId
  | .nop | .reset | .cfg _ | .rdReg _ | .rdCanvas _ _ | .rdCt _ _ => none
  | .sbuBegin | .sbuFeed _ | .sbuFinish => some .sbu
  | .sbfBegin | .sbfPut _ | .sbfEnd => some .sbf
  | .lzdBegin _ | .lzdFeed _ | .lzdFinish => some .lzd
  | .lzeBegin _ | .lzeFeed _ | .lzeFinish => some .lze
  | .cmpScreen _ _ | .cmpCtSize _ _ | .cmpCtWrite _ _ _ _ _ | .cmpGce _ _ _ _ _ | .cmpImagePos _ _
  | .cmpImageBegin _ _ _ | .cmpPixel _ | .cmpImageEnd | .cmpFinish => some .cmp

/-- The BEGIN commands of R304 and R305 (CMP: `CMP_SCREEN`). -/
def isBegin : Instr → Bool
  | .sbuBegin | .sbfBegin | .lzdBegin _ | .lzeBegin _ | .cmpScreen _ _ => true
  | .nop | .reset | .cfg _ | .rdReg _ | .rdCanvas _ _ | .rdCt _ _ | .sbuFeed _ | .sbuFinish | .sbfPut _ | .sbfEnd
  | .lzdFeed _ | .lzdFinish | .lzeFeed _ | .lzeFinish | .cmpCtSize _ _ | .cmpCtWrite _ _ _ _ _ | .cmpGce _ _ _ _ _
  | .cmpImagePos _ _ | .cmpImageBegin _ _ _ | .cmpPixel _ | .cmpImageEnd | .cmpFinish => false

/-- The reads of R79. -/
def isRead : Instr → Bool
  | .rdReg _ | .rdCanvas _ _ | .rdCt _ _ => true
  | .nop | .reset | .cfg _ | .sbuBegin | .sbuFeed _ | .sbuFinish | .sbfBegin | .sbfPut _ | .sbfEnd | .lzdBegin _
  | .lzdFeed _ | .lzdFinish | .lzeBegin _ | .lzeFeed _ | .lzeFinish | .cmpScreen _ _ | .cmpCtSize _ _
  | .cmpCtWrite _ _ _ _ _ | .cmpGce _ _ _ _ _ | .cmpImagePos _ _ | .cmpImageBegin _ _ _ | .cmpPixel _ | .cmpImageEnd
  | .cmpFinish => false

/-- The phases, other than ERR, in which a command is not refused with `PROTOCOL` (the phase checks of R120 to R245). -/
def accepts : Instr → Phase → Bool
  | .nop, _ | .reset, _ | .cfg _, _ | .rdReg _, _ | .rdCanvas _ _, _ | .rdCt _ _, _ => true
  | .sbuBegin, _ | .sbfBegin, _ | .lzdBegin _, _ | .lzeBegin _, _ | .cmpScreen _ _, _ => true
  | .sbfPut _, p | .sbfEnd, p | .lzeFeed _, p | .lzeFinish, p | .sbuFeed _, p => decide (p = .active)
  | .sbuFinish, p | .lzdFeed _, p | .lzdFinish, p | .cmpPixel _, p | .cmpImageEnd, p => decide (p = .active ∨ p = .done)
  | .cmpCtSize _ _, p | .cmpCtWrite _ _ _ _ _, p | .cmpGce _ _ _ _ _, p | .cmpImagePos _ _, p
  | .cmpImageBegin _ _ _, p | .cmpFinish, p => decide (p = .idle)

/-! ## The register words, as numbers (R22 to R45) -/

/-- R22 -/
def phaseNumber : Phase → Nat
  | .idle => 0
  | .active => 1
  | .done => 2
  | .err => 3

/-- R301 -/
def errorNumber : ErrCode → Nat
  | .noError => 0
  | .protocol => 1
  | .truncated => 2
  | .badCodeSize => 3
  | .invalidCode => 4
  | .missingEnd => 5
  | .badSymbol => 6
  | .canvasTooLarge => 7
  | .shortImage => 8

/-- R23, with `flag` at bit [2]. -/
def statusNumber (st : UnitStatus) (flag : Bool) : Nat :=
  phaseNumber st.phase + 2 ^ 2 * flag.toNat + 2 ^ 8 * errorNumber st.errCode + 2 ^ 16 * st.errInfo.toNat

/-- The unit's error bit of `SYS_STATUS` (R24). -/
def inErr (st : UnitStatus) : Bool := decide (st.phase = .err)

/-- R24 -/
def sysStatusNumber (s : State) : Nat :=
  s.sys.illegal.toNat + 2 ^ 8 * s.sys.illOp.toNat
    + 2 ^ 16 * (inErr s.sbu.st).toNat + 2 ^ 17 * (inErr s.sbf.st).toNat + 2 ^ 18 * (inErr s.lzd.st).toNat
    + 2 ^ 19 * (inErr s.lze.st).toNat + 2 ^ 20 * (inErr s.cmp.st).toNat
    + 2 ^ 21 * (s.sys.illegal || inErr s.sbu.st || inErr s.sbf.st || inErr s.lzd.st || inErr s.lze.st
        || inErr s.cmp.st).toNat

/-- A code register (R29, R33): bit [12] valid, bits [11:0] the code, all 0 when EMPTY. -/
def codeNumber : Option Code → Nat
  | none => 0
  | some c => 2 ^ 12 + c.toNat

/-- R39 -/
def gceNumber (g : Gce) : Nat :=
  g.delay.toNat + 2 ^ 16 * g.transpIndex.toNat + 2 ^ 24 * g.transpEn.toNat + 2 ^ 25 * g.userInput.toNat
    + 2 ^ 26 * g.disposal.toNat + 2 ^ 32 * g.valid.toNat

/-- R45: the number each register reads as. -/
def registerNumber (s : State) : Reg → Nat
  | .sysStatus => sysStatusNumber s
  | .config => s.config.toNat
  | .canvasCap => s.canvasCap.toNat
  | .sbuStatus => statusNumber s.sbu.st false
  | .sbuCount => s.sbu.count.toNat
  | .sbfStatus => statusNumber s.sbf.st false
  | .sbfFill => s.sbf.fill.toNat
  | .lzdStatus => statusNumber s.lzd.st s.lzd.full
  | .lzdCs => s.lzd.cs.toNat
  | .lzdWidth => s.lzd.w.toNat
  | .lzdNext => s.lzd.next.toNat
  | .lzdPrev => codeNumber s.lzd.prev
  | .lzdBits => s.lzd.nbits.toNat + 2 ^ 32 * s.lzd.acc.toNat
  | .lzeStatus => statusNumber s.lze.st false
  | .lzeCs => s.lze.cs.toNat
  | .lzeWidth => s.lze.w.toNat
  | .lzeNext => s.lze.next.toNat
  | .lzePending => codeNumber s.lze.pend
  | .lzeBits => s.lze.nbits.toNat + 2 ^ 32 * s.lze.acc.toNat
  | .cmpStatus => statusNumber s.cmp.st false
  | .cmpScreen => 2 ^ 16 * s.cmp.screenW.toNat + s.cmp.screenH.toNat
  | .cmpGctSize => s.cmp.gctSize.toNat
  | .cmpLctSize => s.cmp.lctSize.toNat
  | .cmpGce => gceNumber s.cmp.gce
  | .cmpImgPos => 2 ^ 16 * s.cmp.imgLeft.toNat + s.cmp.imgTop.toNat
  | .cmpImgSize => 2 ^ 48 * s.cmp.imgLct.toNat + 2 ^ 16 * s.cmp.imgW.toNat + s.cmp.imgH.toNat
  | .cmpPixCount => s.cmp.pixCount.toNat
  | .cmpFrameCount => s.cmp.frameCount.toNat

/-! ## Sub-block framing (R74, R133) -/

/-- The framing of `d` (R133): a block of 255 bytes for each whole 255 bytes, a shorter last block for the rest if there is one,
and the terminator. -/
def framed (d : List Byte) : List Byte :=
  (List.range (d.length / 255)).flatMap (fun k => 255#8 :: (d.drop (255 * k)).take 255)
    ++ (if d.length % 255 = 0 then [] else BitVec.ofNat 8 (d.length % 255) :: d.drop (255 * (d.length / 255)))
    ++ [0#8]

/-- The sub-block sequence with the given blocks (R74, R100): each length byte and its data, then the terminator. -/
def blockStream (blocks : List (List Byte)) : List Byte :=
  blocks.flatMap (fun b => BitVec.ofNat 8 b.length :: b) ++ [0#8]

/-! ## The decoder, as the rules write it -/

/-- `Expand(c)` is `e` (R159): a literal stands for its byte; a registered slot for its prefix's expansion and its suffix. -/
inductive Expands (d : Lzd) : Nat → List Byte → Prop
  | literal {c : Nat} (h : c < d.clear) : Expands d c [BitVec.ofNat 8 c]
  | slot {c : Nat} {e : List Byte} (h : d.eoi < c) (hp : Expands d (d.prefixAt c).toNat e) :
      Expands d c (e ++ [d.suffixAt c])

/-- `Emit(e)` (R162): each byte forwarded to CMP, or appended to `LZD_OUT`. -/
def lzdEmitted (e : List Byte) (s : State) : State :=
  if s.config.getLsbD 1 then e.foldl (fun t x => cmpPixel x t) s
  else { s with out := { s.out with lzdOut := s.out.lzdOut ++ e } }

/-- `d'` is the decoder `d` after `Grow(c, e)` (R160, R161), where `x` is `e[0]`. -/
structure Grows (d : Lzd) (c : Nat) (x : Byte) (d' : Lzd) : Prop where
  kept   : d'.st = d.st ∧ d'.cs = d.cs ∧ d'.acc = d.acc ∧ d'.nbits = d.nbits
  whenFull : d.full = true → d' = d
  slots  : d.full = false → ∀ j,
    d'.prefixAt j = (match d.prev with
      | some p => if j = d.next.toNat then p else d.prefixAt j
      | none => d.prefixAt j) ∧
    d'.suffixAt j = (match d.prev with
      | some _ => if j = d.next.toNat then x else d.suffixAt j
      | none => d.suffixAt j)
  next   : d.full = false → d'.next.toNat = d.next.toNat + 1
  below  : d.full = false → d.next.toNat + 1 ≠ 2 ^ d.w.toNat →
    d'.w = d.w ∧ d'.full = false ∧ d'.prev = some (BitVec.ofNat 12 c)
  widen  : d.full = false → d.next.toNat + 1 = 2 ^ d.w.toNat → d.w.toNat < 12 →
    d'.w.toNat = d.w.toNat + 1 ∧ d'.full = false ∧ d'.prev = some (BitVec.ofNat 12 c)
  ceiling : d.full = false → d.next.toNat + 1 = 2 ^ d.w.toNat → d.w.toNat = 12 →
    d'.w = d.w ∧ d'.full = true ∧ d'.prev = none

/-- `Symbol(c)` takes the block from `s` to `t` (R98, R152 to R158). -/
inductive SymbolStep (c : Nat) (s : State) : State → Prop
  | lit {d : Lzd} (h : c < s.lzd.clear) (hg : Grows s.lzd c (BitVec.ofNat 8 c) d) :
      SymbolStep c s { lzdEmitted [BitVec.ofNat 8 c] s with lzd := d }
  | clr (h : c = s.lzd.clear) {d : Lzd} (hw : d.w.toNat = s.lzd.cs.toNat + 1) (hn : d.next.toNat = s.lzd.eoi)
      (hd : d = { s.lzd with w := d.w, next := d.next, prev := none, full := false }) :
      SymbolStep c s { s with lzd := d }
  | eoi (h : c = s.lzd.eoi) :
      SymbolStep c s { s with lzd := { s.lzd with st := { s.lzd.st with phase := .done }, acc := 0#32, nbits := 0#5 } }
  | dict {e : List Byte} {x : Byte} {d : Lzd} (h1 : s.lzd.eoi < c) (h2 : c < s.lzd.next.toNat) (he : Expands s.lzd c e)
      (hx : e.head? = some x) (hg : Grows s.lzd c x d) :
      SymbolStep c s { lzdEmitted e s with lzd := d }
  | kwk {p : Code} {e : List Byte} {x : Byte} {d : Lzd} (h1 : c = s.lzd.next.toNat) (h2 : s.lzd.eoi < c)
      (hp : s.lzd.prev = some p) (he : Expands s.lzd p.toNat e) (hx : e.head? = some x) (hg : Grows s.lzd c x d) :
      SymbolStep c s { lzdEmitted (e ++ [x]) s with lzd := d }
  | bad (h : s.lzd.eoi < c) (hb : s.lzd.next.toNat < c ∨ (c = s.lzd.next.toNat ∧ s.lzd.prev = none)) :
      SymbolStep c s
        { s with lzd := { s.lzd with st := { phase := .err, errCode := .invalidCode, errInfo := BitVec.ofNat 16 c } } }

/-- The loop of R151: while ACTIVE and `NBITS >= W`, the low `W` bits are taken as the next code and `Symbol` runs. -/
inductive LzdReads : State → State → Prop
  | stop {s : State} (h : ¬ (s.lzd.st.phase = .active ∧ s.lzd.w.toNat ≤ s.lzd.nbits.toNat)) : LzdReads s s
  | code {s u t : State} {d : Lzd} (ha : s.lzd.st.phase = .active) (hw : s.lzd.w.toNat ≤ s.lzd.nbits.toNat)
      (hacc : d.acc.toNat = s.lzd.acc.toNat / 2 ^ s.lzd.w.toNat)
      (hnb : d.nbits.toNat = s.lzd.nbits.toNat - s.lzd.w.toNat)
      (hd : d = { s.lzd with acc := d.acc, nbits := d.nbits })
      (hs : SymbolStep (s.lzd.acc.toNat % 2 ^ s.lzd.w.toNat) { s with lzd := d } u) (ht : LzdReads u t) : LzdReads s t

/-! ## The encoder, as the rules write it -/

/-- The number whose little-endian bytes are `xs`. -/
def bytesValue : List Byte → Nat
  | [] => 0
  | x :: xs => x.toNat + 2 ^ 8 * bytesValue xs

/-- `OutByte` of each byte in order (R196): forwarded to SBF, or appended to `LZE_OUT`. -/
def lzeEmitted (xs : List Byte) (s : State) : State :=
  if s.config.getLsbD 2 then xs.foldl (fun t x => sbfPut x t) s
  else { s with out := { s.out with lzeOut := s.out.lzeOut ++ xs } }

/-- `EmitCode(c)` takes the block from `s` to `t` (R73, R196): the bits held and the code's `W` bits above them are one number,
whose full bytes `xs` go out, lowest first; the rest stays in the accumulator. Nothing else of the encoder changes. -/
def CodeWritten (c : Nat) (s t : State) : Prop :=
  ∃ (xs : List Byte) (acc : BitVec 32) (nbits : BitVec 5),
    t = lzeEmitted xs { s with lze := { s.lze with acc := acc, nbits := nbits } } ∧
    xs.length = (s.lze.nbits.toNat + s.lze.w.toNat) / 8 ∧
    nbits.toNat = (s.lze.nbits.toNat + s.lze.w.toNat) % 8 ∧ acc.toNat < 2 ^ nbits.toNat ∧
    bytesValue xs + 2 ^ (8 * xs.length) * acc.toNat = s.lze.acc.toNat + c * 2 ^ s.lze.nbits.toNat

/-! ## The compositor -/

/-- The `Frame` record of the compositor's canvas (R243): whole, row-major, with the cached GCE's delay, or 0. -/
def frameOf (c : Cmp) : FrameRecord :=
  .frame c.screenW c.screenH ((List.range (c.screenW.toNat * c.screenH.toNat)).map c.canvasEntry)
    (if c.gce.valid then c.gce.delay else 0#16)

/-- The compositor once the frame is emitted (R243). -/
def frameEmitted (c : Cmp) : Cmp :=
  { c with gce := { valid := false, disposal := 0#3, userInput := false, transpEn := false, transpIndex := 0#8, delay := 0#16 },
           frameCount := c.frameCount + 1#32, st := { c.st with phase := .done } }

/-- Pixel `(x, y)` after the image of width `w` and height `h` at `(left, top)` with indices `px` is composited on the canvas of `c`
(R237 to R242, R249): outside the rectangle, and where the index is transparent, what the canvas holds; else the index's colour. -/
def imagePixel (c : Cmp) (left top w h : Nat) (px : List Byte) (x y : Nat) : Rgba :=
  if left ≤ x ∧ x < left + w ∧ top ≤ y ∧ y < top + h then
    match px[(y - top) * w + (x - left)]? with
    | some idx => if c.gce.transpEn = true ∧ idx = c.gce.transpIndex then c.pixelAt x y else c.colourOf idx
    | none => c.pixelAt x y
  else c.pixelAt x y

/-- Two states that differ at most in the stored disposal method and in the responses given so far. -/
def SameButDisposal (s t : State) : Prop :=
  t = { s with responses := t.responses, cmp := { s.cmp with gce := { s.cmp.gce with disposal := t.cmp.gce.disposal } } }

end Sys2Proof.Machine
end

