-- ==== Sys2Proof/Certificates/Slice0/Obligations.lean ====
section
/-! DEFINITION. The statements for the provers. Every statement about a command gives the whole next state, so what the record update does not
name is unchanged (the frame). -/

section Statements

open Sys2Proof Sys2Proof.Machine

/-! ## The command word -/

/-- R90 to R93, R101: no bit of a command's word is dropped; the decoder reads back every operand at every value. -/
def Obligations.DecodeEncode : Prop :=
  ∀ i : Instr, i.wellFormed = true → decode (encode i) = .ok i

/-- R92, R96, R103: a word decodes to at most the one command whose word it is, but for the don't-care bits [31:29] of `CMP_GCE`. -/
def Obligations.EncodeDecode : Prop :=
  ∀ (c : Word) (i : Instr), decode c = .ok i →
    i.wellFormed = true ∧ encode i = (if i.opcode = 0x43#8 then c &&& 0xFFFFFFFF1FFFFFFF#64 else c)

/-- R94, R96: the words that decode are those of the opcode map, by its masks, matches and word constraints. -/
def Obligations.DecodeMatchesTable : Prop :=
  ∀ c : Word, (∃ i, decode c = .ok i) ↔ (matchesRow c ∧ wordConstraint c)

/-- Words the spec writes out (R283 to R286, R231 to R235, R281) or that R91 and R94 give, at least one of each unit. -/
def Obligations.SampleWords : Prop :=
  decode 0x0000000000000000#64 = .ok .nop ∧
  decode 0x0200000000000003#64 = .ok (.cfg 3#6) ∧
  decode 0x0300000000000022#64 = .ok (.rdReg .lzdWidth) ∧
  decode 0x0500010000000000#64 = .ok (.rdCt .gct 1#8) ∧
  decode 0x11000000000000AA#64 = .ok (.sbuFeed 0xAA#8) ∧
  decode 0x1900000000000030#64 = .ok (.sbfPut 0x30#8) ∧
  decode 0x2000000000000008#64 = .ok (.lzdBegin 8#8) ∧
  decode 0x3100000000000003#64 = .ok (.lzeFeed 3#8) ∧
  decode 0x4000000000020002#64 = .ok (.cmpScreen 2#16 2#16) ∧
  decode 0x4101000000000100#64 = .ok (.cmpCtSize .lct 256#9) ∧
  decode 0x4200010000FF0000#64 = .ok (.cmpCtWrite .gct 1#8 0xFF#8 0#8 0#8) ∧
  decode 0x430000000903000A#64 = .ok (.cmpGce 2#3 false true 3#8 10#16) ∧
  decode 0x4400000000010000#64 = .ok (.cmpImagePos 1#16 0#16) ∧
  decode 0x4500000000020002#64 = .ok (.cmpImageBegin false 2#16 2#16) ∧
  decode 0x4101000000000101#64 = .error .constraint

/-- R76 (the port is the model's, log 1): a step takes the oldest word issued, and runs the command it spells. -/
def Obligations.StepRunsCommand : Prop :=
  ∀ (s : State) (c : Word) (ws : List Word) (i : Instr), s.port = c :: ws → decode c = .ok i →
    step s = exec i { s with port := ws }

/-- R302, R92, R95, R285 (the port is the model's, log 1): a word that is not a row of R94, or breaks the constraint of its row,
sets `ILLEGAL` and, if it is the first, `ILL_OP`, and does nothing else. -/
def Obligations.StepOnIllegalWord : Prop :=
  ∀ (s : State) (c : Word) (ws : List Word), s.port = c :: ws →
    ¬ (matchesRow c ∧ wordConstraint c ∧ canvasConstraint s c) →
      step s = .next (afterIllegal (c.extractLsb' 56 8) { s with port := ws })

/-- Log 1, the model's choice: with no command issued, a step changes nothing. -/
def Obligations.EmptyPortIdles : Prop :=
  ∀ s : State, s.port = [] → step s = .next s

/-! ## Reset and the system commands -/

/-- R282, R341, R342, R343: the word of `RESET` and what it leaves. That the responses already given stay before `RESET`'s own 0 is the
model's choice (logs 2 and 12). -/
def Obligations.ResetCommand : Prop :=
  encode .reset = 0x0100000000000000#64 ∧
  ∀ s : State, ∃ t : State, exec .reset s = .next t ∧
    t.sys = { illegal := false, illOp := 0#8 } ∧ t.config = 0#6 ∧ t.canvasCap = s.canvasCap ∧
    t.sbu = { st := { phase := .idle, errCode := .noError, errInfo := 0#16 }, count := 0#8 } ∧
    t.sbf.st = { phase := .idle, errCode := .noError, errInfo := 0#16 } ∧ t.sbf.fill = 0#8 ∧
    t.lzd.st = { phase := .idle, errCode := .noError, errInfo := 0#16 } ∧
    t.lzd.cs = 0#4 ∧ t.lzd.w = 0#4 ∧ t.lzd.next = 0#13 ∧ t.lzd.prev = none ∧ t.lzd.full = false ∧
    t.lzd.acc = 0#32 ∧ t.lzd.nbits = 0#5 ∧
    t.lze.st = { phase := .idle, errCode := .noError, errInfo := 0#16 } ∧
    t.lze.cs = 0#4 ∧ t.lze.w = 0#4 ∧ t.lze.next = 0#13 ∧ t.lze.pend = none ∧ t.lze.acc = 0#32 ∧ t.lze.nbits = 0#5 ∧
    (∀ p x, hashLookup t.lze.ht p x = none) ∧
    t.cmp.st = { phase := .idle, errCode := .noError, errInfo := 0#16 } ∧
    t.cmp.screenW = 0#16 ∧ t.cmp.screenH = 0#16 ∧
    (∀ u k, t.cmp.tableEntry u k = { r := 0#8, g := 0#8, b := 0#8 }) ∧ t.cmp.gctSize = 0#9 ∧ t.cmp.lctSize = 0#9 ∧
    t.cmp.gce = { valid := false, disposal := 0#3, userInput := false, transpEn := false, transpIndex := 0#8, delay := 0#16 } ∧
    t.cmp.imgLeft = 0#16 ∧ t.cmp.imgTop = 0#16 ∧ t.cmp.imgW = 0#16 ∧ t.cmp.imgH = 0#16 ∧ t.cmp.imgLct = false ∧
    t.cmp.pixCount = 0#32 ∧ t.cmp.frameCount = 0#32 ∧
    t.out = s.out ∧ t.responses = s.responses ++ [0#64]

/-- R340: after `RESET` the block is as after power-on reset, in everything the spec gives a reset value (the capacity is the
block's own constant, R26; the memories of R342 that are unspecified, the channels and the host's side are left out). -/
def Obligations.ResetIsPowerOn : Prop :=
  ∀ s : State, ∃ t : State, exec .reset s = .next t ∧ t.sys = State.reset.sys ∧ t.config = State.reset.config ∧
    t.sbu = State.reset.sbu ∧ t.sbf = { State.reset.sbf with buf := t.sbf.buf } ∧
    t.lzd = { State.reset.lzd with pfx := t.lzd.pfx, sfx := t.lzd.sfx } ∧ t.lze = State.reset.lze ∧
    t.cmp = State.reset.cmp ∧ ∀ r : Reg, r ≠ .canvasCap → registerNumber t r = 0 ∧ registerNumber State.reset r = 0

/-- R281: `NOP`, its word, and that no other word has its opcode. -/
def Obligations.NopDoesNothing : Prop :=
  encode .nop = 0x0000000000000000#64 ∧
  (∀ c : Word, c.extractLsb' 56 8 = 0x00#8 → c ≠ 0x0000000000000000#64 → ∀ i, decode c ≠ .ok i) ∧
  ∀ s : State, exec .nop s = .next { s with responses := s.responses ++ [0#64] }

/-- R283: `CONFIG <- cfg; respond(0)`. -/
def Obligations.CfgWritesConfig : Prop :=
  (∀ c : BitVec 6, encode (.cfg c) = 0x02#8 ++ (0#50 ++ c)) ∧
  ∀ (s : State) (c : BitVec 6), exec (.cfg c) s = .next { s with config := c, responses := s.responses ++ [0#64] }

/-- R284, R45 and the rules the map names: the number of each of the 28 registers in the command's word, the word each reads as, and that
reading changes nothing. -/
def Obligations.RdRegReads : Prop :=
  encode (.rdReg .sysStatus) = 0x03#8 ++ (0#48 ++ 0x00#8) ∧ encode (.rdReg .config) = 0x03#8 ++ (0#48 ++ 0x01#8) ∧
  encode (.rdReg .canvasCap) = 0x03#8 ++ (0#48 ++ 0x02#8) ∧ encode (.rdReg .sbuStatus) = 0x03#8 ++ (0#48 ++ 0x10#8) ∧
  encode (.rdReg .sbuCount) = 0x03#8 ++ (0#48 ++ 0x11#8) ∧ encode (.rdReg .sbfStatus) = 0x03#8 ++ (0#48 ++ 0x18#8) ∧
  encode (.rdReg .sbfFill) = 0x03#8 ++ (0#48 ++ 0x19#8) ∧ encode (.rdReg .lzdStatus) = 0x03#8 ++ (0#48 ++ 0x20#8) ∧
  encode (.rdReg .lzdCs) = 0x03#8 ++ (0#48 ++ 0x21#8) ∧ encode (.rdReg .lzdWidth) = 0x03#8 ++ (0#48 ++ 0x22#8) ∧
  encode (.rdReg .lzdNext) = 0x03#8 ++ (0#48 ++ 0x23#8) ∧ encode (.rdReg .lzdPrev) = 0x03#8 ++ (0#48 ++ 0x24#8) ∧
  encode (.rdReg .lzdBits) = 0x03#8 ++ (0#48 ++ 0x25#8) ∧ encode (.rdReg .lzeStatus) = 0x03#8 ++ (0#48 ++ 0x30#8) ∧
  encode (.rdReg .lzeCs) = 0x03#8 ++ (0#48 ++ 0x31#8) ∧ encode (.rdReg .lzeWidth) = 0x03#8 ++ (0#48 ++ 0x32#8) ∧
  encode (.rdReg .lzeNext) = 0x03#8 ++ (0#48 ++ 0x33#8) ∧ encode (.rdReg .lzePending) = 0x03#8 ++ (0#48 ++ 0x34#8) ∧
  encode (.rdReg .lzeBits) = 0x03#8 ++ (0#48 ++ 0x35#8) ∧ encode (.rdReg .cmpStatus) = 0x03#8 ++ (0#48 ++ 0x40#8) ∧
  encode (.rdReg .cmpScreen) = 0x03#8 ++ (0#48 ++ 0x41#8) ∧ encode (.rdReg .cmpGctSize) = 0x03#8 ++ (0#48 ++ 0x42#8) ∧
  encode (.rdReg .cmpLctSize) = 0x03#8 ++ (0#48 ++ 0x43#8) ∧ encode (.rdReg .cmpGce) = 0x03#8 ++ (0#48 ++ 0x44#8) ∧
  encode (.rdReg .cmpImgPos) = 0x03#8 ++ (0#48 ++ 0x45#8) ∧ encode (.rdReg .cmpImgSize) = 0x03#8 ++ (0#48 ++ 0x46#8) ∧
  encode (.rdReg .cmpPixCount) = 0x03#8 ++ (0#48 ++ 0x47#8) ∧ encode (.rdReg .cmpFrameCount) = 0x03#8 ++ (0#48 ++ 0x48#8) ∧
  ∀ (s : State) (r : Reg),
    exec (.rdReg r) s = .next { s with responses := s.responses ++ [BitVec.ofNat 64 (registerNumber s r)] } ∧
    registerNumber s r < 2 ^ 64

/-- R285: on the canvas the pixel's word; off the canvas an illegal command. -/
def Obligations.RdCanvasReads : Prop :=
  (∀ x y : BitVec 16, encode (.rdCanvas x y) = 0x04#8 ++ (0#24 ++ x ++ y)) ∧
  ∀ (s : State) (x y : BitVec 16),
    (x.toNat < s.cmp.screenW.toNat ∧ y.toNat < s.cmp.screenH.toNat →
      exec (.rdCanvas x y) s = .next { s with responses := s.responses ++ [BitVec.ofNat 64
        ((s.cmp.canvasEntry (y.toNat * s.cmp.screenW.toNat + x.toNat)).r.toNat * 2 ^ 24
          + (s.cmp.canvasEntry (y.toNat * s.cmp.screenW.toNat + x.toNat)).g.toNat * 2 ^ 16
          + (s.cmp.canvasEntry (y.toNat * s.cmp.screenW.toNat + x.toNat)).b.toNat * 2 ^ 8
          + (s.cmp.canvasEntry (y.toNat * s.cmp.screenW.toNat + x.toNat)).a.toNat)] }) ∧
    (s.cmp.screenW.toNat ≤ x.toNat ∨ s.cmp.screenH.toNat ≤ y.toNat →
      exec (.rdCanvas x y) s = .next (afterIllegal 0x04#8 s))

/-- R286: entry `i` of the table `t` selects, whatever the table's size. -/
def Obligations.RdCtReads : Prop :=
  (∀ i : Byte, encode (.rdCt .gct i) = 0x05#8 ++ (0#7 ++ 0#1 ++ i ++ 0#40) ∧
    encode (.rdCt .lct i) = 0x05#8 ++ (0#7 ++ 1#1 ++ i ++ 0#40)) ∧
  ∀ (s : State) (i : Byte),
    exec (.rdCt .gct i) s = .next { s with responses := s.responses ++ [BitVec.ofNat 64
      ((Memory.read black s.cmp.gct i.toNat).r.toNat * 2 ^ 16 + (Memory.read black s.cmp.gct i.toNat).g.toNat * 2 ^ 8
        + (Memory.read black s.cmp.gct i.toNat).b.toNat)] } ∧
    exec (.rdCt .lct i) s = .next { s with responses := s.responses ++ [BitVec.ofNat 64
      ((Memory.read black s.cmp.lct i.toNat).r.toNat * 2 ^ 16 + (Memory.read black s.cmp.lct i.toNat).g.toNat * 2 ^ 8
        + (Memory.read black s.cmp.lct i.toNat).b.toNat)] }

/-! ## The whole machine -/

/-- R280, R357: every command, in every state, completes with one response, which is 0 but for the three reads; R26: no command
changes `CANVAS_CAP`. That the host's side of the interface is kept by every command, `RESET` among them, is the model's choice, not a
rule of the spec: the words still in the port (logs 1 and 12) and the responses already given (logs 2 and 12). -/
def Obligations.EveryCommandResponds : Prop :=
  ∀ (i : Instr) (s : State), ∃ (t : State) (v : Word), exec i s = .next t ∧ t.responses = s.responses ++ [v] ∧
    (isRead i = false → v = 0#64) ∧ t.port = s.port ∧ t.canvasCap = s.canvasCap

/-- R301, R307, R344: in a phase that does not accept it, a command raises `PROTOCOL` with its opcode in its unit, and does
nothing else. -/
def Obligations.PhaseChecks : Prop :=
  ∀ (i : Instr) (u : UnitId) (s : State), i.wellFormed = true → targetOf i = some u → (s.status u).phase ≠ .err →
    accepts i (s.status u).phase = false →
      exec i s = .next { s.setStatus u { phase := .err, errCode := .protocol, errInfo := i.opcode.setWidth 16 } with
        responses := s.responses ++ [0#64] }

/-- R304: a unit in ERR ignores every command addressed to it but its BEGIN, from the host and forwarded. -/
def Obligations.ErrIgnores : Prop :=
  (∀ (i : Instr) (u : UnitId) (s : State), i.wellFormed = true → targetOf i = some u → isBegin i = false →
    (s.status u).phase = .err → exec i s = .next { s with responses := s.responses ++ [0#64] }) ∧
  (∀ (s : State) (b : Byte), s.lzd.st.phase = .err → lzdFeed b s = s ∧ lzdFinish s = s) ∧
  (∀ (s : State) (b : Byte), s.cmp.st.phase = .err → cmpPixel b s = s ∧ cmpImageEnd s = s) ∧
  (∀ (s : State) (b : Byte), s.sbf.st.phase = .err → sbfPut b s = s ∧ sbfEnd s = s)

/-- R305, "No other command leaves ERR": whatever runs, on whichever unit, the first error of a unit stays until the unit's
BEGIN or `RESET`. -/
def Obligations.ErrStaysUntilBegin : Prop :=
  ∀ (i : Instr) (u : UnitId) (s t : State), (s.status u).phase = .err → exec i s = .next t → i ≠ .reset →
    ¬ (targetOf i = some u ∧ isBegin i = true) → t.status u = s.status u

/-- R308: what a command makes of its own unit does not depend on the units it forwards to, their errors, or the route. -/
def Obligations.ErrorsDoNotPropagate : Prop :=
  (∀ (b : Byte) (s s' t t' : State), s.sbu = s'.sbu → exec (.sbuFeed b) s = .next t → exec (.sbuFeed b) s' = .next t' →
    t.sbu = t'.sbu) ∧
  (∀ (i : Instr) (s s' t t' : State), targetOf i = some .lzd → s.lzd = s'.lzd →
    s.config.getLsbD 4 = s'.config.getLsbD 4 → exec i s = .next t → exec i s' = .next t' → t.lzd = t'.lzd) ∧
  (∀ (i : Instr) (s s' t t' : State), targetOf i = some .lze → s.lze = s'.lze →
    s.config.getLsbD 3 = s'.config.getLsbD 3 → exec i s = .next t → exec i s' = .next t' → t.lze = t'.lze)

/-- R43, R75, R343: no command removes, reorders or changes an item of a channel. -/
def Obligations.ChannelsOnlyGrow : Prop :=
  ∀ (i : Instr) (s t : State), exec i s = .next t →
    s.out.sbuOut <+: t.out.sbuOut ∧ s.out.sbfOut <+: t.out.sbfOut ∧ s.out.lzdOut <+: t.out.lzdOut ∧
    s.out.lzeOut <+: t.out.lzeOut ∧ s.out.frameOut <+: t.out.frameOut

/-- R78, R81, R303: the parts of the block that the commands of each unit leave unchanged; with a route off, the units behind it and
their channels are among them. -/
def Obligations.UnitFrames : Prop :=
  ∀ (i : Instr) (s t : State), i.wellFormed = true → exec i s = .next t →
    (targetOf i = some .sbu →
      t = { s with sbu := t.sbu, lzd := t.lzd, cmp := t.cmp, responses := t.responses,
                   out := { s.out with sbuOut := t.out.sbuOut, lzdOut := t.out.lzdOut, frameOut := t.out.frameOut } } ∧
      (s.config.getLsbD 0 = false →
        t.lzd = s.lzd ∧ t.cmp = s.cmp ∧ t.out.lzdOut = s.out.lzdOut ∧ t.out.frameOut = s.out.frameOut) ∧
      (s.config.getLsbD 1 = false → t.cmp = s.cmp ∧ t.out.frameOut = s.out.frameOut)) ∧
    (targetOf i = some .sbf →
      t = { s with sbf := t.sbf, responses := t.responses, out := { s.out with sbfOut := t.out.sbfOut } }) ∧
    (targetOf i = some .lzd →
      t = { s with lzd := t.lzd, cmp := t.cmp, responses := t.responses,
                   out := { s.out with lzdOut := t.out.lzdOut, frameOut := t.out.frameOut } } ∧
      (s.config.getLsbD 1 = false → t.cmp = s.cmp ∧ t.out.frameOut = s.out.frameOut)) ∧
    (targetOf i = some .lze →
      t = { s with lze := t.lze, sbf := t.sbf, responses := t.responses,
                   out := { s.out with lzeOut := t.out.lzeOut, sbfOut := t.out.sbfOut } } ∧
      (s.config.getLsbD 2 = false → t.sbf = s.sbf ∧ t.out.sbfOut = s.out.sbfOut)) ∧
    (targetOf i = some .cmp →
      t = { s with cmp := t.cmp, responses := t.responses, out := { s.out with frameOut := t.out.frameOut } })

/-- R24, R302: `ILLEGAL` and `ILL_OP` are sticky; only an illegal command and `RESET` write them, and no forwarded command does.
R25: only `CFG` and `RESET` write `CONFIG`. -/
def Obligations.SysStateIsSticky : Prop :=
  ∀ (i : Instr) (s t : State), i.wellFormed = true → exec i s = .next t → i ≠ .reset →
    (∀ x y, i = .rdCanvas x y → x.toNat < s.cmp.screenW.toNat ∧ y.toNat < s.cmp.screenH.toNat) →
      t.sys = s.sys ∧ ((∀ c, i ≠ .cfg c) → t.config = s.config)

/-- The state after reset is a legal one. -/
def Obligations.ResetIsLegal : Prop := Inv State.reset

/-- R28, R31, R35, R37 to R42, R68, R70, R164: every step keeps the block legal. -/
def Obligations.StepKeepsLegal : Prop :=
  ∀ s t : State, Inv s → step s = .next t → Inv t

/-! ## Sub-blocks -/

/-- R120. -/
def Obligations.SbuBegin : Prop :=
  encode .sbuBegin = 0x1000000000000000#64 ∧
  ∀ s : State, exec .sbuBegin s = .next
    { s with sbu := { st := { phase := .active, errCode := .noError, errInfo := 0#16 }, count := 0#8 },
             responses := s.responses ++ [0#64] }

/-- R121, with R78 for the two forwards: a forwarded command does what the same command does when the host issues it. -/
def Obligations.SbuFeed : Prop :=
  (∀ b : Byte, encode (.sbuFeed b) = 0x11#8 ++ (0#48 ++ b)) ∧
  ∀ (s : State) (b : Byte),
    (s.sbu.st.phase = .err → exec (.sbuFeed b) s = .next { s with responses := s.responses ++ [0#64] }) ∧
    (s.sbu.st.phase = .idle ∨ s.sbu.st.phase = .done →
      exec (.sbuFeed b) s = .next
        { s with sbu := { s.sbu with st := { phase := .err, errCode := .protocol, errInfo := 0x11#16 } },
                 responses := s.responses ++ [0#64] }) ∧
    (s.sbu.st.phase = .active → s.sbu.count = 0#8 → b ≠ 0#8 →
      exec (.sbuFeed b) s = .next { s with sbu := { s.sbu with count := b }, responses := s.responses ++ [0#64] }) ∧
    (s.sbu.st.phase = .active → s.sbu.count = 0#8 → b = 0#8 → s.config.getLsbD 0 = false →
      exec (.sbuFeed b) s = .next
        { s with sbu := { s.sbu with st := { s.sbu.st with phase := .done } }, responses := s.responses ++ [0#64] }) ∧
    (s.sbu.st.phase = .active → s.sbu.count = 0#8 → b = 0#8 → s.config.getLsbD 0 = true →
      exec (.sbuFeed b) s = exec .lzdFinish { s with sbu := { s.sbu with st := { s.sbu.st with phase := .done } } }) ∧
    (s.sbu.st.phase = .active → s.sbu.count ≠ 0#8 → s.config.getLsbD 0 = false →
      exec (.sbuFeed b) s = .next
        { s with sbu := { s.sbu with count := s.sbu.count - 1#8 }, out := { s.out with sbuOut := s.out.sbuOut ++ [b] },
                 responses := s.responses ++ [0#64] }) ∧
    (s.sbu.st.phase = .active → s.sbu.count ≠ 0#8 → s.config.getLsbD 0 = true →
      exec (.sbuFeed b) s = exec (.lzdFeed b) { s with sbu := { s.sbu with count := s.sbu.count - 1#8 } })

/-- R122. -/
def Obligations.SbuFinish : Prop :=
  encode .sbuFinish = 0x1200000000000000#64 ∧
  ∀ s : State,
    (s.sbu.st.phase = .err ∨ s.sbu.st.phase = .done →
      exec .sbuFinish s = .next { s with responses := s.responses ++ [0#64] }) ∧
    (s.sbu.st.phase = .idle → exec .sbuFinish s = .next
      { s with sbu := { s.sbu with st := { phase := .err, errCode := .protocol, errInfo := 0x12#16 } },
               responses := s.responses ++ [0#64] }) ∧
    (s.sbu.st.phase = .active → exec .sbuFinish s = .next
      { s with sbu := { s.sbu with st := { phase := .err, errCode := .truncated, errInfo := s.sbu.count.setWidth 16 } },
               responses := s.responses ++ [0#64] })

/-- R130. -/
def Obligations.SbfBegin : Prop :=
  encode .sbfBegin = 0x1800000000000000#64 ∧
  ∀ s : State, exec .sbfBegin s = .next
    { s with sbf := { s.sbf with st := { phase := .active, errCode := .noError, errInfo := 0#16 }, fill := 0#8 },
             responses := s.responses ++ [0#64] }

/-- R131, with R28's bound on `FILL`. -/
def Obligations.SbfPut : Prop :=
  (∀ b : Byte, encode (.sbfPut b) = 0x19#8 ++ (0#48 ++ b)) ∧
  ∀ (s : State) (b : Byte),
    (s.sbf.st.phase = .err → exec (.sbfPut b) s = .next { s with responses := s.responses ++ [0#64] }) ∧
    (s.sbf.st.phase = .idle ∨ s.sbf.st.phase = .done → exec (.sbfPut b) s = .next
      { s with sbf := { s.sbf with st := { phase := .err, errCode := .protocol, errInfo := 0x19#16 } },
               responses := s.responses ++ [0#64] }) ∧
    (s.sbf.st.phase = .active → s.sbf.fill.toNat ≤ 254 → ∃ f : Sbf, f.st = s.sbf.st ∧
      (∀ i, Memory.read 0#8 f.buf i = if i = s.sbf.fill.toNat then b else Memory.read 0#8 s.sbf.buf i) ∧
      (s.sbf.fill.toNat < 254 → f.fill.toNat = s.sbf.fill.toNat + 1 ∧
        exec (.sbfPut b) s = .next { s with sbf := f, responses := s.responses ++ [0#64] }) ∧
      (s.sbf.fill.toNat = 254 → f.fill = 0#8 ∧
        exec (.sbfPut b) s = .next
          { s with sbf := f, responses := s.responses ++ [0#64],
                   out := { s.out with sbfOut := s.out.sbfOut ++
                     255#8 :: ((List.range 254).map (fun i => Memory.read 0#8 s.sbf.buf i) ++ [b]) } }))

/-- R132. -/
def Obligations.SbfEnd : Prop :=
  encode .sbfEnd = 0x1A00000000000000#64 ∧
  ∀ s : State,
    (s.sbf.st.phase = .err → exec .sbfEnd s = .next { s with responses := s.responses ++ [0#64] }) ∧
    (s.sbf.st.phase = .idle ∨ s.sbf.st.phase = .done → exec .sbfEnd s = .next
      { s with sbf := { s.sbf with st := { phase := .err, errCode := .protocol, errInfo := 0x1A#16 } },
               responses := s.responses ++ [0#64] }) ∧
    (s.sbf.st.phase = .active → exec .sbfEnd s = .next
      { s with sbf := { s.sbf with st := { s.sbf.st with phase := .done }, fill := 0#8 },
               responses := s.responses ++ [0#64],
               out := { s.out with sbfOut := s.out.sbfOut ++
                 (if s.sbf.fill = 0#8 then []
                  else s.sbf.fill :: (List.range s.sbf.fill.toNat).map (fun i => Memory.read 0#8 s.sbf.buf i))
                 ++ [0#8] } })

/-- R133, the framing law. -/
def Obligations.FramingLaw : Prop :=
  ∀ (s : State) (d : List Byte), ∃ t : State,
    runCommands (.sbfBegin :: (d.map Instr.sbfPut ++ [.sbfEnd])) s = some t ∧
    t.out = { s.out with sbfOut := s.out.sbfOut ++ framed d } ∧ t.sbf.st.phase = .done ∧
    (framed d).length = d.length + (d.length + 254) / 255 + 1

/-- R134, the unframing law: what R133 framed is unframed, ending on the final byte; whatever SBU accepts into DONE is a sequence of
blocks of 1 to 255 bytes and the terminator, whose data it output; and every such sequence, with blocks of any of these lengths
anywhere, is accepted into DONE on its final byte with its data output. -/
def Obligations.UnframingLaw : Prop :=
  (∀ (s : State) (d : List Byte), s.config.getLsbD 0 = false → ∃ t : State,
    runCommands (.sbuBegin :: (framed d).map Instr.sbuFeed) s = some t ∧
    t.out = { s.out with sbuOut := s.out.sbuOut ++ d } ∧ t.sbu.st.phase = .done ∧
    exec .sbuFinish t = .next { t with responses := t.responses ++ [0#64] } ∧
    (∀ (n : Nat) (u : State), n < (framed d).length →
      runCommands (.sbuBegin :: ((framed d).take n).map Instr.sbuFeed) s = some u → u.sbu.st.phase = .active)) ∧
  (∀ (s t : State) (xs : List Byte), s.config.getLsbD 0 = false →
    runCommands (.sbuBegin :: xs.map Instr.sbuFeed) s = some t → t.sbu.st.phase = .done →
      ∃ blocks : List (List Byte), (∀ b ∈ blocks, 1 ≤ b.length ∧ b.length ≤ 255) ∧ xs = blockStream blocks ∧
        t.out = { s.out with sbuOut := s.out.sbuOut ++ blocks.flatten }) ∧
  (∀ (s : State) (blocks : List (List Byte)), s.config.getLsbD 0 = false → (∀ b ∈ blocks, 1 ≤ b.length ∧ b.length ≤ 255) →
    ∃ t : State, runCommands (.sbuBegin :: (blockStream blocks).map Instr.sbuFeed) s = some t ∧
      t.out = { s.out with sbuOut := s.out.sbuOut ++ blocks.flatten } ∧ t.sbu.st.phase = .done ∧
      exec .sbuFinish t = .next { t with responses := t.responses ++ [0#64] } ∧
      (∀ (n : Nat) (u : State), n < (blockStream blocks).length →
        runCommands (.sbuBegin :: ((blockStream blocks).take n).map Instr.sbuFeed) s = some u → u.sbu.st.phase = .active))

/-! ## The decoder -/

/-- R150. -/
def Obligations.LzdBegin : Prop :=
  (∀ cs : Byte, encode (.lzdBegin cs) = 0x20#8 ++ (0#48 ++ cs)) ∧
  ∀ (s : State) (cs : Byte),
    (2 ≤ cs.toNat ∧ cs.toNat ≤ 8 → exec (.lzdBegin cs) s = .next
      { s with lzd := { s.lzd with st := { phase := .active, errCode := .noError, errInfo := 0#16 },
                                   cs := BitVec.ofNat 4 cs.toNat, w := BitVec.ofNat 4 (cs.toNat + 1),
                                   next := BitVec.ofNat 13 (2 ^ cs.toNat + 1), prev := none, full := false,
                                   acc := 0#32, nbits := 0#5 },
               responses := s.responses ++ [0#64] }) ∧
    (cs.toNat < 2 ∨ 8 < cs.toNat → exec (.lzdBegin cs) s = .next
      { s with lzd := { s.lzd with st := { phase := .err, errCode := .badCodeSize, errInfo := cs.setWidth 16 } },
               responses := s.responses ++ [0#64] })

/-- R151 to R162: an ACTIVE decoder puts the byte above the bits it holds and then runs the loop of R151 to its end, each code by the
rule of its class (R98). -/
def Obligations.LzdFeedReads : Prop :=
  ∀ (s : State) (b : Byte), s.lzd.Ok → s.lzd.st.phase = .active →
    ∃ (d : Lzd) (t : State), d = { s.lzd with acc := d.acc, nbits := d.nbits } ∧
      d.acc.toNat = s.lzd.acc.toNat + b.toNat * 2 ^ s.lzd.nbits.toNat ∧ d.nbits.toNat = s.lzd.nbits.toNat + 8 ∧
      LzdReads { s with lzd := d } t ∧ exec (.lzdFeed b) s = .next { t with responses := t.responses ++ [0#64] }

/-- R151, R165: the word of `LZD_FEED`; after the end code every further byte is ignored, as in ERR, and IDLE accepts none. -/
def Obligations.LzdFeedAfterEnd : Prop :=
  (∀ b : Byte, encode (.lzdFeed b) = 0x21#8 ++ (0#48 ++ b)) ∧
  ∀ (s : State) (b : Byte),
    (s.lzd.st.phase = .done → exec (.lzdFeed b) s = .next { s with responses := s.responses ++ [0#64] }) ∧
    (s.lzd.st.phase = .err → exec (.lzdFeed b) s = .next { s with responses := s.responses ++ [0#64] }) ∧
    (s.lzd.st.phase = .idle → exec (.lzdFeed b) s = .next
      { s with lzd := { s.lzd with st := { phase := .err, errCode := .protocol, errInfo := 0x21#16 } },
               responses := s.responses ++ [0#64] })

/-- R31, R156, R159: the chain of every literal or registered code ends in a literal, after at most 4095 bytes, and the machine's
expansion is that chain reversed; so the free value of log 6 is never used. -/
def Obligations.ExpansionIsTheChain : Prop :=
  ∀ (d : Lzd) (c : Nat), d.TableOk → isDataCode d.cs.toNat d.next.toNat c →
    Expands d c (d.expand c) ∧ (∀ e, Expands d c e → e = d.expand c) ∧ 1 ≤ (d.expand c).length ∧
    (d.expand c).length ≤ 4095

/-- R157: the entry registered for the code that equals the table size expands to what that code stood for, as the rule writes it and as
the machine computes it (`Lzd.kwkExpansion`, `Lzd.grown`, `Lzd.expand`). -/
def Obligations.TableSizeCodeEntry : Prop :=
  (∀ (d d' : Lzd) (p : Code) (e : List Byte) (x : Byte), d.TableOk → d.full = false → d.prev = some p →
    Expands d p.toNat e → e.head? = some x → Grows d d.next.toNat x d' → Expands d' d.next.toNat (e ++ [x])) ∧
  (∀ (d d' : Lzd) (p : Code), d.TableOk → d.full = false → d.prev = some p →
    d' = d.grown d.next.toNat (d.kwkExpansion p) →
      (∃ x : Byte, (d.expand p.toNat).head? = some x ∧ d.kwkExpansion p = d.expand p.toNat ++ [x]) ∧
      Expands d' d.next.toNat (d.kwkExpansion p) ∧ d'.expand d.next.toNat = d.kwkExpansion p)

/-- R164, the width law, at every point while ACTIVE: it holds wherever the table's invariant (R31) does, `LZD_BEGIN` of a legal code
size establishes that invariant, and the machine's step for each single code keeps it, so also between two codes of one `LZD_FEED`. -/
def Obligations.WidthLaw : Prop :=
  (∀ d : Lzd, d.TableOk → d.w.toNat = min 12 (Nat.log2 d.next.toNat + 1) ∧ (d.full = true ↔ d.next.toNat = 4096)) ∧
  (∀ (s : State) (cs : Byte), 2 ≤ cs.toNat → cs.toNat ≤ 8 → (lzdBegin cs s).lzd.TableOk) ∧
  (∀ (s : State) (c : Nat), s.lzd.TableOk → (lzdSymbol c s).lzd.TableOk)

/-- R163, with R78 for the forward of `CMP_IMAGE_END`. -/
def Obligations.LzdFinish : Prop :=
  encode .lzdFinish = 0x2200000000000000#64 ∧
  ∀ s : State,
    (s.lzd.st.phase = .err → exec .lzdFinish s = .next { s with responses := s.responses ++ [0#64] }) ∧
    (s.lzd.st.phase = .idle → exec .lzdFinish s = .next
      { s with lzd := { s.lzd with st := { phase := .err, errCode := .protocol, errInfo := 0x22#16 } },
               responses := s.responses ++ [0#64] }) ∧
    (s.lzd.st.phase = .active → s.config.getLsbD 4 = false → exec .lzdFinish s = .next
      { s with lzd := { s.lzd with st := { phase := .err, errCode := .missingEnd, errInfo := 0#16 } },
               responses := s.responses ++ [0#64] }) ∧
    (s.lzd.st.phase = .active → s.config.getLsbD 4 = true → s.config.getLsbD 1 = false → exec .lzdFinish s = .next
      { s with lzd := { s.lzd with st := { s.lzd.st with phase := .done }, acc := 0#32, nbits := 0#5 },
               responses := s.responses ++ [0#64] }) ∧
    (s.lzd.st.phase = .active → s.config.getLsbD 4 = true → s.config.getLsbD 1 = true →
      exec .lzdFinish s = exec .cmpImageEnd
        { s with lzd := { s.lzd with st := { s.lzd.st with phase := .done }, acc := 0#32, nbits := 0#5 } }) ∧
    (s.lzd.st.phase = .done → s.config.getLsbD 1 = false →
      exec .lzdFinish s = .next { s with responses := s.responses ++ [0#64] }) ∧
    (s.lzd.st.phase = .done → s.config.getLsbD 1 = true → exec .lzdFinish s = exec .cmpImageEnd s)

/-! ## The encoder -/

/-- R190. -/
def Obligations.LzeBegin : Prop :=
  (∀ cs : Byte, encode (.lzeBegin cs) = 0x30#8 ++ (0#48 ++ cs)) ∧
  ∀ (s : State) (cs : Byte),
    (cs.toNat < 2 ∨ 8 < cs.toNat → exec (.lzeBegin cs) s = .next
      { s with lze := { s.lze with st := { phase := .err, errCode := .badCodeSize, errInfo := cs.setWidth 16 } },
               responses := s.responses ++ [0#64] }) ∧
    (2 ≤ cs.toNat ∧ cs.toNat ≤ 8 → ∃ s1 : State,
      s1 = { s with lze := { st := { phase := .active, errCode := .noError, errInfo := 0#16 },
                             cs := BitVec.ofNat 4 cs.toNat, w := BitVec.ofNat 4 (cs.toNat + 1),
                             next := BitVec.ofNat 13 (2 ^ cs.toNat + 1), pend := none, acc := 0#32, nbits := 0#5, ht := [] } } ∧
      (s.config.getLsbD 3 = false →
        exec (.lzeBegin cs) s = .next { s1 with responses := s1.responses ++ [0#64] }) ∧
      (s.config.getLsbD 3 = true → ∃ t : State, CodeWritten (2 ^ cs.toNat) s1 t ∧
        exec (.lzeBegin cs) s = .next { t with responses := t.responses ++ [0#64] }))

/-- R192, R193, R202: the word of `LZE_FEED`, the phases that take no byte, and the input events that write no code: a byte that is no
literal, the first byte, and a hit. -/
def Obligations.LzeFeedNoCode : Prop :=
  (∀ b : Byte, encode (.lzeFeed b) = 0x31#8 ++ (0#48 ++ b)) ∧
  (∀ (s : State) (b : Byte), s.lze.st.phase = .err →
    exec (.lzeFeed b) s = .next { s with responses := s.responses ++ [0#64] }) ∧
  (∀ (s : State) (b : Byte), s.lze.st.phase = .idle ∨ s.lze.st.phase = .done → exec (.lzeFeed b) s = .next
    { s with lze := { s.lze with st := { phase := .err, errCode := .protocol, errInfo := 0x31#16 } },
             responses := s.responses ++ [0#64] }) ∧
  ∀ (s : State) (b : Byte), s.lze.st.phase = .active →
    (2 ^ s.lze.cs.toNat ≤ b.toNat → exec (.lzeFeed b) s = .next
      { s with lze := { s.lze with st := { phase := .err, errCode := .badSymbol, errInfo := b.setWidth 16 } },
               responses := s.responses ++ [0#64] }) ∧
    (b.toNat < 2 ^ s.lze.cs.toNat → s.lze.pend = none → exec (.lzeFeed b) s = .next
      { s with lze := { s.lze with pend := some (b.setWidth 12) }, responses := s.responses ++ [0#64] }) ∧
    (∀ p h, b.toNat < 2 ^ s.lze.cs.toNat → s.lze.pend = some p → hashLookup s.lze.ht p b = some h →
      exec (.lzeFeed b) s = .next
        { s with lze := { s.lze with pend := some h }, responses := s.responses ++ [0#64] })

/-- R194: a miss below the ceiling. -/
def Obligations.LzeFeedMiss : Prop :=
  ∀ (s : State) (b : Byte) (p : Code), s.lze.Ok → s.lze.st.phase = .active → b.toNat < 2 ^ s.lze.cs.toNat →
    s.lze.pend = some p → hashLookup s.lze.ht p b = none → s.lze.next.toNat + 1 ≠ 4096 →
      ∃ (s1 : State) (e : Lze), CodeWritten p.toNat s s1 ∧
        e = { s1.lze with next := e.next, w := e.w, ht := e.ht, pend := some (b.setWidth 12) } ∧
        e.next.toNat = s.lze.next.toNat + 1 ∧
        e.w.toNat = (if s.lze.next.toNat + 1 = 2 ^ s.lze.w.toNat then s.lze.w.toNat + 1 else s.lze.w.toNat) ∧
        (∀ q x, hashLookup e.ht q x =
          if q = p ∧ x = b then some (BitVec.ofNat 12 (s.lze.next.toNat + 1)) else hashLookup s.lze.ht q x) ∧
        exec (.lzeFeed b) s = .next { s1 with lze := e, responses := s1.responses ++ [0#64] }

/-- R195: a miss that reaches the 12-bit ceiling. -/
def Obligations.LzeFeedCeiling : Prop :=
  ∀ (s : State) (b : Byte) (p : Code), s.lze.Ok → s.lze.st.phase = .active → b.toNat < 2 ^ s.lze.cs.toNat →
    s.lze.pend = some p → hashLookup s.lze.ht p b = none → s.lze.next.toNat + 1 = 4096 →
      s.lze.w.toNat = 12 ∧ ∃ s1 s2 : State, CodeWritten p.toNat s s1 ∧ CodeWritten (2 ^ s.lze.cs.toNat) s1 s2 ∧
        exec (.lzeFeed b) s = .next
          { s2 with lze := { s2.lze with w := BitVec.ofNat 4 (s.lze.cs.toNat + 1),
                                         next := BitVec.ofNat 13 (2 ^ s.lze.cs.toNat + 1), ht := [],
                                         pend := some (b.setWidth 12) },
                    responses := s2.responses ++ [0#64] }

/-- R198, with R78 for the forward of `SBF_END`. -/
def Obligations.LzeFinish : Prop :=
  encode .lzeFinish = 0x3200000000000000#64 ∧
  ∀ s : State,
    (s.lze.st.phase = .err → exec .lzeFinish s = .next { s with responses := s.responses ++ [0#64] }) ∧
    (s.lze.st.phase = .idle ∨ s.lze.st.phase = .done → exec .lzeFinish s = .next
      { s with lze := { s.lze with st := { phase := .err, errCode := .protocol, errInfo := 0x32#16 } },
               responses := s.responses ++ [0#64] }) ∧
    (s.lze.Ok → s.lze.st.phase = .active → ∃ s1 s2 s3 s4 : State,
      (s.lze.pend = none → s1 = s) ∧
      (∀ p, s.lze.pend = some p → ∃ (s0 : State) (e : Lze), CodeWritten p.toNat s s0 ∧
        s1 = { s0 with lze := e } ∧ e = { s0.lze with next := e.next, w := e.w } ∧
        e.next.toNat = s.lze.next.toNat + 1 ∧
        e.w.toNat = (if s.lze.next.toNat + 1 = 2 ^ s.lze.w.toNat ∧ s.lze.w.toNat < 12 then s.lze.w.toNat + 1
                     else s.lze.w.toNat)) ∧
      CodeWritten (2 ^ s.lze.cs.toNat + 1) s1 s2 ∧
      (s2.lze.nbits = 0#5 → s3 = s2) ∧
      (s2.lze.nbits ≠ 0#5 →
        s3 = { lzeEmitted [BitVec.ofNat 8 s2.lze.acc.toNat] s2 with lze := { s2.lze with acc := 0#32, nbits := 0#5 } }) ∧
      s4 = { s3 with lze := { s3.lze with pend := none, st := { s3.lze.st with phase := .done } } } ∧
      (s.config.getLsbD 2 = false → exec .lzeFinish s = .next { s4 with responses := s4.responses ++ [0#64] }) ∧
      (s.config.getLsbD 2 = true → exec .lzeFinish s = exec .sbfEnd s4))

/-- R199: the empty input, for every code size, with and without the leading clear code; the decoder reads it as an empty output. -/
def Obligations.EmptyInput : Prop :=
  ∀ (s : State) (cs : Byte), 2 ≤ cs.toNat → cs.toNat ≤ 8 → s.config.getLsbD 2 = false →
    ∃ (t : State) (xs : List Byte), runCommands [.lzeBegin cs, .lzeFinish] s = some t ∧
      t.out = { s.out with lzeOut := s.out.lzeOut ++ xs } ∧ t.lze.st.phase = .done ∧
      (s.config.getLsbD 3 = false → xs.length = (cs.toNat + 1 + 7) / 8 ∧ bytesValue xs = 2 ^ cs.toNat + 1) ∧
      (s.config.getLsbD 3 = true → xs.length = (2 * (cs.toNat + 1) + 7) / 8 ∧
        bytesValue xs = 2 ^ cs.toNat + (2 ^ cs.toNat + 1) * 2 ^ (cs.toNat + 1)) ∧
      (∀ u : State, ∃ v : State, runCommands (.lzdBegin cs :: xs.map Instr.lzdFeed) u = some v ∧
        v.lzd.st.phase = .done ∧ v.out = u.out)

/-- R205, R206: whatever `HASH_FN` is, the open-addressing table of 16384 entries answers every lookup as the finite map does that
State holds, after any insertions of distinct absent keys that leave one entry unused. -/
def Obligations.HashTableIsTheMap : Prop :=
  ∀ (h : Code → Byte → Nat) (ops : List (Code × Byte × Code)), ops.length < 16384 →
    (ops.map (fun o => (o.1, o.2.1))).Nodup →
      ∀ p x, tableLookup h (ops.foldl (fun t o => tableInsert h t o.1 o.2.1 o.2.2) tableClear) p x =
        hashLookup (ops.foldl (fun m o => hashInsert m o.1 o.2.1 o.2.2) hashClear) p x

/-- R201, the round trip: what LZE makes of any literals of the code size, LZD turns back into them, ending in DONE on the last byte
and not before. -/
def Obligations.RoundTrip : Prop :=
  ∀ (s u : State) (cs : Byte) (d : List Byte), 2 ≤ cs.toNat → cs.toNat ≤ 8 → (∀ b ∈ d, b.toNat < 2 ^ cs.toNat) →
    s.config.getLsbD 2 = false → u.config.getLsbD 1 = false →
      ∃ (t v : State) (xs : List Byte),
        runCommands (.lzeBegin cs :: (d.map Instr.lzeFeed ++ [.lzeFinish])) s = some t ∧
        t.out = { s.out with lzeOut := s.out.lzeOut ++ xs } ∧ t.lze.st.phase = .done ∧
        runCommands (.lzdBegin cs :: xs.map Instr.lzdFeed) u = some v ∧
        v.out = { u.out with lzdOut := u.out.lzdOut ++ d } ∧ v.lzd.st.phase = .done ∧
        (∀ (n : Nat) (v' : State), n < xs.length →
          runCommands (.lzdBegin cs :: (xs.take n).map Instr.lzdFeed) u = some v' → v'.lzd.st.phase = .active)

/-! ## The compositor -/

/-- R230. -/
def Obligations.CmpScreen : Prop :=
  (∀ w h : BitVec 16, encode (.cmpScreen w h) = 0x40#8 ++ (0#24 ++ w ++ h)) ∧
  ∀ (s : State) (w h : BitVec 16),
    (s.canvasCap.toNat < w.toNat * h.toNat → exec (.cmpScreen w h) s = .next
      { s with cmp := { s.cmp with st := { phase := .err, errCode := .canvasTooLarge, errInfo := 0#16 } },
               responses := s.responses ++ [0#64] }) ∧
    (w.toNat * h.toNat ≤ s.canvasCap.toNat → ∃ c : Cmp,
      (∀ k, c.canvasEntry k = { r := 0#8, g := 0#8, b := 0#8, a := 0#8 }) ∧
      c = { s.cmp with
            st := { phase := .idle, errCode := .noError, errInfo := 0#16 }, screenW := w, screenH := h, canvas := c.canvas,
            gctSize := 0#9, lctSize := 0#9, pixCount := 0#32, frameCount := 0#32,
            gce := { valid := false, disposal := 0#3, userInput := false, transpEn := false, transpIndex := 0#8,
                     delay := 0#16 } } ∧
      exec (.cmpScreen w h) s = .next { s with cmp := c, responses := s.responses ++ [0#64] })

/-- R231, R232 (a size above 256 is an illegal command, R94, R302). -/
def Obligations.CmpTables : Prop :=
  (∀ n : BitVec 9, encode (.cmpCtSize .gct n) = 0x41#8 ++ (0#7 ++ 0#1 ++ 0#39 ++ n) ∧
    encode (.cmpCtSize .lct n) = 0x41#8 ++ (0#7 ++ 1#1 ++ 0#39 ++ n)) ∧
  (∀ i r g bl : Byte, encode (.cmpCtWrite .gct i r g bl) = 0x42#8 ++ (0#7 ++ 0#1 ++ i ++ 0#16 ++ r ++ g ++ bl) ∧
    encode (.cmpCtWrite .lct i r g bl) = 0x42#8 ++ (0#7 ++ 1#1 ++ i ++ 0#16 ++ r ++ g ++ bl)) ∧
  ∀ s : State,
    (∀ t (n : BitVec 9), n.toNat ≤ 256 →
      (s.cmp.st.phase = .err → exec (.cmpCtSize t n) s = .next { s with responses := s.responses ++ [0#64] }) ∧
      (s.cmp.st.phase = .active ∨ s.cmp.st.phase = .done → exec (.cmpCtSize t n) s = .next
        { s with cmp := { s.cmp with st := { phase := .err, errCode := .protocol, errInfo := 0x41#16 } },
                 responses := s.responses ++ [0#64] })) ∧
    (∀ t (i r g bl : Byte),
      (s.cmp.st.phase = .err → exec (.cmpCtWrite t i r g bl) s = .next { s with responses := s.responses ++ [0#64] }) ∧
      (s.cmp.st.phase = .active ∨ s.cmp.st.phase = .done → exec (.cmpCtWrite t i r g bl) s = .next
        { s with cmp := { s.cmp with st := { phase := .err, errCode := .protocol, errInfo := 0x42#16 } },
                 responses := s.responses ++ [0#64] })) ∧
    (∀ t (n : BitVec 9), 256 < n.toNat → exec (.cmpCtSize t n) s = .next (afterIllegal 0x41#8 s)) ∧
    (∀ n : BitVec 9, s.cmp.st.phase = .idle → n.toNat ≤ 256 →
      exec (.cmpCtSize .gct n) s = .next
        { s with cmp := { s.cmp with gctSize := n }, responses := s.responses ++ [0#64] } ∧
      exec (.cmpCtSize .lct n) s = .next
        { s with cmp := { s.cmp with lctSize := n }, responses := s.responses ++ [0#64] }) ∧
    (∀ i r g bl : Byte, s.cmp.st.phase = .idle → ∃ m : Mem Rgb,
      (∀ k, Memory.read black m k = if k = i.toNat then { r := r, g := g, b := bl } else Memory.read black s.cmp.gct k) ∧
      exec (.cmpCtWrite .gct i r g bl) s = .next
        { s with cmp := { s.cmp with gct := m }, responses := s.responses ++ [0#64] }) ∧
    (∀ i r g bl : Byte, s.cmp.st.phase = .idle → ∃ m : Mem Rgb,
      (∀ k, Memory.read black m k = if k = i.toNat then { r := r, g := g, b := bl } else Memory.read black s.cmp.lct k) ∧
      exec (.cmpCtWrite .lct i r g bl) s = .next
        { s with cmp := { s.cmp with lct := m }, responses := s.responses ++ [0#64] })

/-- R233, R234. -/
def Obligations.CmpGceAndPosition : Prop :=
  (∀ (d : BitVec 3) (u f : Bool) (ti : Byte) (dl : BitVec 16), encode (.cmpGce d u f ti dl) =
    0x43#8 ++ (0#27 ++ d ++ BitVec.ofBool u ++ BitVec.ofBool f ++ ti ++ dl)) ∧
  (∀ left top : BitVec 16, encode (.cmpImagePos left top) = 0x44#8 ++ (0#24 ++ left ++ top)) ∧
  ∀ s : State,
    (∀ d u f ti dl,
      (s.cmp.st.phase = .err → exec (.cmpGce d u f ti dl) s = .next { s with responses := s.responses ++ [0#64] }) ∧
      (s.cmp.st.phase = .active ∨ s.cmp.st.phase = .done → exec (.cmpGce d u f ti dl) s = .next
        { s with cmp := { s.cmp with st := { phase := .err, errCode := .protocol, errInfo := 0x43#16 } },
                 responses := s.responses ++ [0#64] })) ∧
    (∀ left top,
      (s.cmp.st.phase = .err → exec (.cmpImagePos left top) s = .next { s with responses := s.responses ++ [0#64] }) ∧
      (s.cmp.st.phase = .active ∨ s.cmp.st.phase = .done → exec (.cmpImagePos left top) s = .next
        { s with cmp := { s.cmp with st := { phase := .err, errCode := .protocol, errInfo := 0x44#16 } },
                 responses := s.responses ++ [0#64] })) ∧
    (∀ (d : BitVec 3) (u f : Bool) (ti : Byte) (dl : BitVec 16), s.cmp.st.phase = .idle →
      exec (.cmpGce d u f ti dl) s = .next
        { s with cmp := { s.cmp with gce := { valid := true, disposal := d, userInput := u, transpEn := f,
                                              transpIndex := ti, delay := dl } },
                 responses := s.responses ++ [0#64] }) ∧
    (∀ left top : BitVec 16, s.cmp.st.phase = .idle →
      exec (.cmpImagePos left top) s = .next
        { s with cmp := { s.cmp with imgLeft := left, imgTop := top }, responses := s.responses ++ [0#64] })

/-- R235; an image of area 0 emits its frame at once (R243). -/
def Obligations.CmpImageBegin : Prop :=
  (∀ (l : Bool) (w h : BitVec 16), encode (.cmpImageBegin l w h) = 0x45#8 ++ (0#7 ++ BitVec.ofBool l ++ 0#16 ++ w ++ h)) ∧
  ∀ (s : State) (l : Bool) (w h : BitVec 16),
    (s.cmp.st.phase = .err → exec (.cmpImageBegin l w h) s = .next { s with responses := s.responses ++ [0#64] }) ∧
    (s.cmp.st.phase = .active ∨ s.cmp.st.phase = .done → exec (.cmpImageBegin l w h) s = .next
      { s with cmp := { s.cmp with st := { phase := .err, errCode := .protocol, errInfo := 0x45#16 } },
               responses := s.responses ++ [0#64] }) ∧
    (s.cmp.st.phase = .idle → ∃ c : Cmp,
      c = { s.cmp with imgLct := l, imgW := w, imgH := h, pixCount := 0#32,
                       st := { s.cmp.st with phase := .active } } ∧
      (w.toNat * h.toNat ≠ 0 →
        exec (.cmpImageBegin l w h) s = .next { s with cmp := c, responses := s.responses ++ [0#64] }) ∧
      (w.toNat * h.toNat = 0 →
        exec (.cmpImageBegin l w h) s = .next
          { s with cmp := frameEmitted c, out := { s.out with frameOut := s.out.frameOut ++ [frameOf c] },
                   responses := s.responses ++ [0#64] }))

/-- R237 to R243, R246, R249: the next pixel of the image. -/
def Obligations.CmpPixel : Prop :=
  (∀ idx : Byte, encode (.cmpPixel idx) = 0x46#8 ++ (0#48 ++ idx)) ∧
  ∀ (s : State) (idx : Byte),
    (s.cmp.st.phase = .err → exec (.cmpPixel idx) s = .next { s with responses := s.responses ++ [0#64] }) ∧
    (s.cmp.st.phase = .idle → exec (.cmpPixel idx) s = .next
      { s with cmp := { s.cmp with st := { phase := .err, errCode := .protocol, errInfo := 0x46#16 } },
               responses := s.responses ++ [0#64] }) ∧
    (s.cmp.st.phase = .done → exec (.cmpPixel idx) s = .next { s with responses := s.responses ++ [0#64] }) ∧
    (s.cmp.st.phase = .active → s.cmp.pixCount.toNat < s.cmp.imgW.toNat * s.cmp.imgH.toNat →
      ∃ (c : Cmp) (x y : Nat) (entry : Rgb) (colour : Rgba),
        x = s.cmp.imgLeft.toNat + s.cmp.pixCount.toNat % s.cmp.imgW.toNat ∧
        y = s.cmp.imgTop.toNat + s.cmp.pixCount.toNat / s.cmp.imgW.toNat ∧
        entry = Memory.read black (if s.cmp.imgLct then s.cmp.lct else s.cmp.gct) idx.toNat ∧
        colour = (if idx.toNat < (if s.cmp.imgLct then s.cmp.lctSize else s.cmp.gctSize).toNat
          then { r := entry.r, g := entry.g, b := entry.b, a := 255#8 }
          else { r := 0#8, g := 0#8, b := 0#8, a := 0#8 }) ∧
        c = { s.cmp with canvas := c.canvas, pixCount := c.pixCount } ∧
        c.pixCount.toNat = s.cmp.pixCount.toNat + 1 ∧
        (∀ k, c.canvasEntry k =
          if ¬ (s.cmp.gce.transpEn = true ∧ idx = s.cmp.gce.transpIndex) ∧ x < s.cmp.screenW.toNat ∧
            y < s.cmp.screenH.toNat ∧ k = y * s.cmp.screenW.toNat + x then colour else s.cmp.canvasEntry k) ∧
        (s.cmp.pixCount.toNat + 1 ≠ s.cmp.imgW.toNat * s.cmp.imgH.toNat →
          exec (.cmpPixel idx) s = .next { s with cmp := c, responses := s.responses ++ [0#64] }) ∧
        (s.cmp.pixCount.toNat + 1 = s.cmp.imgW.toNat * s.cmp.imgH.toNat →
          exec (.cmpPixel idx) s = .next
            { s with cmp := frameEmitted c, out := { s.out with frameOut := s.out.frameOut ++ [frameOf c] },
                     responses := s.responses ++ [0#64] }))

/-- R244, R245: the end of an image, strict and lenient, and the end of the file. -/
def Obligations.CmpEnds : Prop :=
  encode .cmpImageEnd = 0x4700000000000000#64 ∧ encode .cmpFinish = 0x4800000000000000#64 ∧
  ∀ s : State,
    (s.cmp.st.phase = .err → exec .cmpImageEnd s = .next { s with responses := s.responses ++ [0#64] }) ∧
    (s.cmp.st.phase = .idle → exec .cmpImageEnd s = .next
      { s with cmp := { s.cmp with st := { phase := .err, errCode := .protocol, errInfo := 0x47#16 } },
               responses := s.responses ++ [0#64] }) ∧
    (s.cmp.st.phase = .err → exec .cmpFinish s = .next { s with responses := s.responses ++ [0#64] }) ∧
    (s.cmp.st.phase = .active ∨ s.cmp.st.phase = .done → exec .cmpFinish s = .next
      { s with cmp := { s.cmp with st := { phase := .err, errCode := .protocol, errInfo := 0x48#16 } },
               responses := s.responses ++ [0#64] }) ∧
    (s.cmp.st.phase = .done → exec .cmpImageEnd s = .next
      { s with cmp := { s.cmp with st := { s.cmp.st with phase := .idle } }, responses := s.responses ++ [0#64] }) ∧
    (s.cmp.st.phase = .active → s.config.getLsbD 5 = false → exec .cmpImageEnd s = .next
      { s with cmp := { s.cmp with st := { phase := .err, errCode := .shortImage, errInfo := 0#16 } },
               responses := s.responses ++ [0#64] }) ∧
    (s.cmp.st.phase = .active → s.config.getLsbD 5 = true → exec .cmpImageEnd s = .next
      { s with cmp := { frameEmitted s.cmp with st := { s.cmp.st with phase := .idle } },
               out := { s.out with frameOut := s.out.frameOut ++ [frameOf s.cmp] },
               responses := s.responses ++ [0#64] }) ∧
    (s.cmp.st.phase = .idle → exec .cmpFinish s = .next
      { s with out := { s.out with frameOut := s.out.frameOut ++ [.finished] }, responses := s.responses ++ [0#64] })

/-- R236, that the disposal method has no effect beyond its storage: two blocks that differ only in it stay so under every command, give
the same frames, and answer every command alike but for `RD_REG CMP_GCE`. (That it is stored and read back is said by
`CmpGceAndPosition` and `RdRegReads`.) -/
def Obligations.DisposalHasNoEffect : Prop :=
  ∀ (i : Instr) (s s' : State), SameButDisposal s s' → ∃ t t' : State, exec i s = .next t ∧ exec i s' = .next t' ∧
    SameButDisposal t t' ∧
    (i ≠ .rdReg .cmpGce → ∃ v : Word, t.responses = s.responses ++ [v] ∧ t'.responses = s'.responses ++ [v])

/-- R235 to R243, R249: one whole image: its pixels land on the canvas row by row, what is transparent or outside the rectangle shows
what was there, and one frame of the whole canvas is emitted. -/
def Obligations.ImageLaw : Prop :=
  ∀ (s : State) (l : Bool) (w h : BitVec 16) (px : List Byte), s.cmp.st.phase = .idle →
    px.length = w.toNat * h.toNat →
      ∃ (t : State) (c : Cmp), c = { s.cmp with imgLct := l } ∧
        runCommands (.cmpImageBegin l w h :: px.map Instr.cmpPixel) s = some t ∧
        t = { s with cmp := t.cmp, out := { s.out with frameOut := t.out.frameOut }, responses := t.responses } ∧
        t.cmp.st.phase = .done ∧
        t.out.frameOut = s.out.frameOut ++
          [.frame s.cmp.screenW s.cmp.screenH
            ((List.range (s.cmp.screenW.toNat * s.cmp.screenH.toNat)).map fun k =>
              imagePixel c s.cmp.imgLeft.toNat s.cmp.imgTop.toNat w.toNat h.toNat px (k % s.cmp.screenW.toNat)
                (k / s.cmp.screenW.toNat))
            (if s.cmp.gce.valid then s.cmp.gce.delay else 0#16)] ∧
        (∀ x y, x < s.cmp.screenW.toNat → y < s.cmp.screenH.toNat →
          t.cmp.pixelAt x y = imagePixel c s.cmp.imgLeft.toNat s.cmp.imgTop.toNat w.toNat h.toNat px x y)

/-- R250, the transparency law: of two images one after the other, with any colour-table loads between them, the second frame shows
the first frame's pixel wherever the second image carries its transparent index, and everywhere outside its rectangle. -/
def Obligations.TransparencyLaw : Prop :=
  ∀ (s : State) (l1 l2 u : Bool) (w1 h1 w2 h2 left top dl : BitVec 16) (d : BitVec 3) (ti : Byte) (px1 px2 : List Byte)
    (loads : List Instr),
    s.cmp.st.phase = .idle → px1.length = w1.toNat * h1.toNat → px2.length = w2.toNat * h2.toNat →
    (∀ i ∈ loads, (∃ t n, i = .cmpCtSize t n) ∨ ∃ t j r g b, i = .cmpCtWrite t j r g b) →
      ∃ (t : State) (p1 p2 : List Rgba) (d1 : BitVec 16),
        runCommands (.cmpImageBegin l1 w1 h1 :: (px1.map Instr.cmpPixel ++ .cmpImageEnd :: (loads ++
          .cmpGce d u true ti dl :: .cmpImagePos left top :: .cmpImageBegin l2 w2 h2 :: px2.map Instr.cmpPixel))) s = some t ∧
        t.out.frameOut = s.out.frameOut ++
          [.frame s.cmp.screenW s.cmp.screenH p1 d1, .frame s.cmp.screenW s.cmp.screenH p2 dl] ∧
        p1.length = s.cmp.screenW.toNat * s.cmp.screenH.toNat ∧ p2.length = p1.length ∧
        ∀ x y, x < s.cmp.screenW.toNat → y < s.cmp.screenH.toNat →
          (left.toNat ≤ x ∧ x < left.toNat + w2.toNat ∧ top.toNat ≤ y ∧ y < top.toNat + h2.toNat →
            px2[(y - top.toNat) * w2.toNat + (x - left.toNat)]? = some ti) →
          p2[y * s.cmp.screenW.toNat + x]? = p1[y * s.cmp.screenW.toNat + x]?

/-! ## Routes -/

/-- R78, R162: with `LZD_TO_CMP` set, a byte given to LZD does what it does with the route off followed by a `CMP_PIXEL` of the host for
each byte that came out; only `LZD_OUT`, the responses and the bit itself tell the two apart. -/
def Obligations.RouteLzdToCmp : Prop :=
  ∀ (s s0 : State) (b : Byte), s.config.getLsbD 1 = true → s0 = { s with config := s.config &&& 0b111101#6 } →
    ∃ (t t0 t1 : State) (xs : List Byte), exec (.lzdFeed b) s = .next t ∧ exec (.lzdFeed b) s0 = .next t0 ∧
      t0.out.lzdOut = s.out.lzdOut ++ xs ∧ runCommands (xs.map Instr.cmpPixel) t0 = some t1 ∧
      t = { t1 with config := s.config, responses := s.responses ++ [0#64],
                    out := { t1.out with lzdOut := s.out.lzdOut } }

/-- R78, R200: with `LZE_TO_SBF` set, an LZE command does what it does with the route off followed by an `SBF_PUT` of the host for each byte
that came out, and `LZE_FINISH` of an ACTIVE encoder then by an `SBF_END`. -/
def Obligations.RouteLzeToSbf : Prop :=
  ∀ (i : Instr) (s s0 : State), targetOf i = some .lze → s.config.getLsbD 2 = true →
    s0 = { s with config := s.config &&& 0b111011#6 } →
    ∃ (t t0 t1 : State) (xs : List Byte), exec i s = .next t ∧ exec i s0 = .next t0 ∧
      t0.out.lzeOut = s.out.lzeOut ++ xs ∧
      runCommands (xs.map Instr.sbfPut ++ (if i = .lzeFinish ∧ s.lze.st.phase = .active then [.sbfEnd] else [])) t0
        = some t1 ∧
      t = { t1 with config := s.config, responses := s.responses ++ [0#64],
                    out := { t1.out with lzeOut := s.out.lzeOut } }

end Statements
end

