-- ==== Sys2Proof/Laws/State.lean ====
section
/-! SUPPORT. What each named update of State does to each field. -/

namespace Sys2Proof.Machine

/-! ## `setPort` -/

@[simp] theorem State.setPort_port (s : State) (p : List Word) : (s.setPort p).port = p := rfl
@[simp] theorem State.setPort_responses (s : State) (p : List Word) : (s.setPort p).responses = s.responses := rfl
@[simp] theorem State.setPort_sys (s : State) (p : List Word) : (s.setPort p).sys = s.sys := rfl
@[simp] theorem State.setPort_config (s : State) (p : List Word) : (s.setPort p).config = s.config := rfl
@[simp] theorem State.setPort_canvasCap (s : State) (p : List Word) : (s.setPort p).canvasCap = s.canvasCap := rfl
@[simp] theorem State.setPort_sbu (s : State) (p : List Word) : (s.setPort p).sbu = s.sbu := rfl
@[simp] theorem State.setPort_sbf (s : State) (p : List Word) : (s.setPort p).sbf = s.sbf := rfl
@[simp] theorem State.setPort_lzd (s : State) (p : List Word) : (s.setPort p).lzd = s.lzd := rfl
@[simp] theorem State.setPort_lze (s : State) (p : List Word) : (s.setPort p).lze = s.lze := rfl
@[simp] theorem State.setPort_cmp (s : State) (p : List Word) : (s.setPort p).cmp = s.cmp := rfl
@[simp] theorem State.setPort_out (s : State) (p : List Word) : (s.setPort p).out = s.out := rfl
@[simp] theorem State.setPort_self (s : State) : s.setPort s.port = s := rfl
@[simp] theorem State.setPort_setPort (s : State) (p p' : List Word) : (s.setPort p).setPort p' = s.setPort p' := rfl

/-! ## `setSys` -/

@[simp] theorem State.setSys_port (s : State) (y : Sys) : (s.setSys y).port = s.port := rfl
@[simp] theorem State.setSys_responses (s : State) (y : Sys) : (s.setSys y).responses = s.responses := rfl
@[simp] theorem State.setSys_sys (s : State) (y : Sys) : (s.setSys y).sys = y := rfl
@[simp] theorem State.setSys_config (s : State) (y : Sys) : (s.setSys y).config = s.config := rfl
@[simp] theorem State.setSys_canvasCap (s : State) (y : Sys) : (s.setSys y).canvasCap = s.canvasCap := rfl
@[simp] theorem State.setSys_sbu (s : State) (y : Sys) : (s.setSys y).sbu = s.sbu := rfl
@[simp] theorem State.setSys_sbf (s : State) (y : Sys) : (s.setSys y).sbf = s.sbf := rfl
@[simp] theorem State.setSys_lzd (s : State) (y : Sys) : (s.setSys y).lzd = s.lzd := rfl
@[simp] theorem State.setSys_lze (s : State) (y : Sys) : (s.setSys y).lze = s.lze := rfl
@[simp] theorem State.setSys_cmp (s : State) (y : Sys) : (s.setSys y).cmp = s.cmp := rfl
@[simp] theorem State.setSys_out (s : State) (y : Sys) : (s.setSys y).out = s.out := rfl
@[simp] theorem State.setSys_self (s : State) : s.setSys s.sys = s := rfl
@[simp] theorem State.setSys_setSys (s : State) (y y' : Sys) : (s.setSys y).setSys y' = s.setSys y' := rfl

/-! ## `setConfig` -/

@[simp] theorem State.setConfig_port (s : State) (c : BitVec 6) : (s.setConfig c).port = s.port := rfl
@[simp] theorem State.setConfig_responses (s : State) (c : BitVec 6) : (s.setConfig c).responses = s.responses := rfl
@[simp] theorem State.setConfig_sys (s : State) (c : BitVec 6) : (s.setConfig c).sys = s.sys := rfl
@[simp] theorem State.setConfig_config (s : State) (c : BitVec 6) : (s.setConfig c).config = c := rfl
@[simp] theorem State.setConfig_canvasCap (s : State) (c : BitVec 6) : (s.setConfig c).canvasCap = s.canvasCap := rfl
@[simp] theorem State.setConfig_sbu (s : State) (c : BitVec 6) : (s.setConfig c).sbu = s.sbu := rfl
@[simp] theorem State.setConfig_sbf (s : State) (c : BitVec 6) : (s.setConfig c).sbf = s.sbf := rfl
@[simp] theorem State.setConfig_lzd (s : State) (c : BitVec 6) : (s.setConfig c).lzd = s.lzd := rfl
@[simp] theorem State.setConfig_lze (s : State) (c : BitVec 6) : (s.setConfig c).lze = s.lze := rfl
@[simp] theorem State.setConfig_cmp (s : State) (c : BitVec 6) : (s.setConfig c).cmp = s.cmp := rfl
@[simp] theorem State.setConfig_out (s : State) (c : BitVec 6) : (s.setConfig c).out = s.out := rfl
@[simp] theorem State.setConfig_self (s : State) : s.setConfig s.config = s := rfl
@[simp] theorem State.setConfig_setConfig (s : State) (c c' : BitVec 6) : (s.setConfig c).setConfig c' = s.setConfig c' := rfl

/-! ## `setSbu` -/

@[simp] theorem State.setSbu_port (s : State) (u : Sbu) : (s.setSbu u).port = s.port := rfl
@[simp] theorem State.setSbu_responses (s : State) (u : Sbu) : (s.setSbu u).responses = s.responses := rfl
@[simp] theorem State.setSbu_sys (s : State) (u : Sbu) : (s.setSbu u).sys = s.sys := rfl
@[simp] theorem State.setSbu_config (s : State) (u : Sbu) : (s.setSbu u).config = s.config := rfl
@[simp] theorem State.setSbu_canvasCap (s : State) (u : Sbu) : (s.setSbu u).canvasCap = s.canvasCap := rfl
@[simp] theorem State.setSbu_sbu (s : State) (u : Sbu) : (s.setSbu u).sbu = u := rfl
@[simp] theorem State.setSbu_sbf (s : State) (u : Sbu) : (s.setSbu u).sbf = s.sbf := rfl
@[simp] theorem State.setSbu_lzd (s : State) (u : Sbu) : (s.setSbu u).lzd = s.lzd := rfl
@[simp] theorem State.setSbu_lze (s : State) (u : Sbu) : (s.setSbu u).lze = s.lze := rfl
@[simp] theorem State.setSbu_cmp (s : State) (u : Sbu) : (s.setSbu u).cmp = s.cmp := rfl
@[simp] theorem State.setSbu_out (s : State) (u : Sbu) : (s.setSbu u).out = s.out := rfl
@[simp] theorem State.setSbu_self (s : State) : s.setSbu s.sbu = s := rfl
@[simp] theorem State.setSbu_setSbu (s : State) (u u' : Sbu) : (s.setSbu u).setSbu u' = s.setSbu u' := rfl

/-! ## `setSbf` -/

@[simp] theorem State.setSbf_port (s : State) (u : Sbf) : (s.setSbf u).port = s.port := rfl
@[simp] theorem State.setSbf_responses (s : State) (u : Sbf) : (s.setSbf u).responses = s.responses := rfl
@[simp] theorem State.setSbf_sys (s : State) (u : Sbf) : (s.setSbf u).sys = s.sys := rfl
@[simp] theorem State.setSbf_config (s : State) (u : Sbf) : (s.setSbf u).config = s.config := rfl
@[simp] theorem State.setSbf_canvasCap (s : State) (u : Sbf) : (s.setSbf u).canvasCap = s.canvasCap := rfl
@[simp] theorem State.setSbf_sbu (s : State) (u : Sbf) : (s.setSbf u).sbu = s.sbu := rfl
@[simp] theorem State.setSbf_sbf (s : State) (u : Sbf) : (s.setSbf u).sbf = u := rfl
@[simp] theorem State.setSbf_lzd (s : State) (u : Sbf) : (s.setSbf u).lzd = s.lzd := rfl
@[simp] theorem State.setSbf_lze (s : State) (u : Sbf) : (s.setSbf u).lze = s.lze := rfl
@[simp] theorem State.setSbf_cmp (s : State) (u : Sbf) : (s.setSbf u).cmp = s.cmp := rfl
@[simp] theorem State.setSbf_out (s : State) (u : Sbf) : (s.setSbf u).out = s.out := rfl
@[simp] theorem State.setSbf_self (s : State) : s.setSbf s.sbf = s := rfl
@[simp] theorem State.setSbf_setSbf (s : State) (u u' : Sbf) : (s.setSbf u).setSbf u' = s.setSbf u' := rfl

/-! ## `setLzd` -/

@[simp] theorem State.setLzd_port (s : State) (u : Lzd) : (s.setLzd u).port = s.port := rfl
@[simp] theorem State.setLzd_responses (s : State) (u : Lzd) : (s.setLzd u).responses = s.responses := rfl
@[simp] theorem State.setLzd_sys (s : State) (u : Lzd) : (s.setLzd u).sys = s.sys := rfl
@[simp] theorem State.setLzd_config (s : State) (u : Lzd) : (s.setLzd u).config = s.config := rfl
@[simp] theorem State.setLzd_canvasCap (s : State) (u : Lzd) : (s.setLzd u).canvasCap = s.canvasCap := rfl
@[simp] theorem State.setLzd_sbu (s : State) (u : Lzd) : (s.setLzd u).sbu = s.sbu := rfl
@[simp] theorem State.setLzd_sbf (s : State) (u : Lzd) : (s.setLzd u).sbf = s.sbf := rfl
@[simp] theorem State.setLzd_lzd (s : State) (u : Lzd) : (s.setLzd u).lzd = u := rfl
@[simp] theorem State.setLzd_lze (s : State) (u : Lzd) : (s.setLzd u).lze = s.lze := rfl
@[simp] theorem State.setLzd_cmp (s : State) (u : Lzd) : (s.setLzd u).cmp = s.cmp := rfl
@[simp] theorem State.setLzd_out (s : State) (u : Lzd) : (s.setLzd u).out = s.out := rfl
@[simp] theorem State.setLzd_self (s : State) : s.setLzd s.lzd = s := rfl
@[simp] theorem State.setLzd_setLzd (s : State) (u u' : Lzd) : (s.setLzd u).setLzd u' = s.setLzd u' := rfl

/-! ## `setLze` -/

@[simp] theorem State.setLze_port (s : State) (u : Lze) : (s.setLze u).port = s.port := rfl
@[simp] theorem State.setLze_responses (s : State) (u : Lze) : (s.setLze u).responses = s.responses := rfl
@[simp] theorem State.setLze_sys (s : State) (u : Lze) : (s.setLze u).sys = s.sys := rfl
@[simp] theorem State.setLze_config (s : State) (u : Lze) : (s.setLze u).config = s.config := rfl
@[simp] theorem State.setLze_canvasCap (s : State) (u : Lze) : (s.setLze u).canvasCap = s.canvasCap := rfl
@[simp] theorem State.setLze_sbu (s : State) (u : Lze) : (s.setLze u).sbu = s.sbu := rfl
@[simp] theorem State.setLze_sbf (s : State) (u : Lze) : (s.setLze u).sbf = s.sbf := rfl
@[simp] theorem State.setLze_lzd (s : State) (u : Lze) : (s.setLze u).lzd = s.lzd := rfl
@[simp] theorem State.setLze_lze (s : State) (u : Lze) : (s.setLze u).lze = u := rfl
@[simp] theorem State.setLze_cmp (s : State) (u : Lze) : (s.setLze u).cmp = s.cmp := rfl
@[simp] theorem State.setLze_out (s : State) (u : Lze) : (s.setLze u).out = s.out := rfl
@[simp] theorem State.setLze_self (s : State) : s.setLze s.lze = s := rfl
@[simp] theorem State.setLze_setLze (s : State) (u u' : Lze) : (s.setLze u).setLze u' = s.setLze u' := rfl

/-! ## `setCmp` -/

@[simp] theorem State.setCmp_port (s : State) (u : Cmp) : (s.setCmp u).port = s.port := rfl
@[simp] theorem State.setCmp_responses (s : State) (u : Cmp) : (s.setCmp u).responses = s.responses := rfl
@[simp] theorem State.setCmp_sys (s : State) (u : Cmp) : (s.setCmp u).sys = s.sys := rfl
@[simp] theorem State.setCmp_config (s : State) (u : Cmp) : (s.setCmp u).config = s.config := rfl
@[simp] theorem State.setCmp_canvasCap (s : State) (u : Cmp) : (s.setCmp u).canvasCap = s.canvasCap := rfl
@[simp] theorem State.setCmp_sbu (s : State) (u : Cmp) : (s.setCmp u).sbu = s.sbu := rfl
@[simp] theorem State.setCmp_sbf (s : State) (u : Cmp) : (s.setCmp u).sbf = s.sbf := rfl
@[simp] theorem State.setCmp_lzd (s : State) (u : Cmp) : (s.setCmp u).lzd = s.lzd := rfl
@[simp] theorem State.setCmp_lze (s : State) (u : Cmp) : (s.setCmp u).lze = s.lze := rfl
@[simp] theorem State.setCmp_cmp (s : State) (u : Cmp) : (s.setCmp u).cmp = u := rfl
@[simp] theorem State.setCmp_out (s : State) (u : Cmp) : (s.setCmp u).out = s.out := rfl
@[simp] theorem State.setCmp_self (s : State) : s.setCmp s.cmp = s := rfl
@[simp] theorem State.setCmp_setCmp (s : State) (u u' : Cmp) : (s.setCmp u).setCmp u' = s.setCmp u' := rfl

/-! ## `setOut` -/

@[simp] theorem State.setOut_port (s : State) (o : Channels) : (s.setOut o).port = s.port := rfl
@[simp] theorem State.setOut_responses (s : State) (o : Channels) : (s.setOut o).responses = s.responses := rfl
@[simp] theorem State.setOut_sys (s : State) (o : Channels) : (s.setOut o).sys = s.sys := rfl
@[simp] theorem State.setOut_config (s : State) (o : Channels) : (s.setOut o).config = s.config := rfl
@[simp] theorem State.setOut_canvasCap (s : State) (o : Channels) : (s.setOut o).canvasCap = s.canvasCap := rfl
@[simp] theorem State.setOut_sbu (s : State) (o : Channels) : (s.setOut o).sbu = s.sbu := rfl
@[simp] theorem State.setOut_sbf (s : State) (o : Channels) : (s.setOut o).sbf = s.sbf := rfl
@[simp] theorem State.setOut_lzd (s : State) (o : Channels) : (s.setOut o).lzd = s.lzd := rfl
@[simp] theorem State.setOut_lze (s : State) (o : Channels) : (s.setOut o).lze = s.lze := rfl
@[simp] theorem State.setOut_cmp (s : State) (o : Channels) : (s.setOut o).cmp = s.cmp := rfl
@[simp] theorem State.setOut_out (s : State) (o : Channels) : (s.setOut o).out = o := rfl
@[simp] theorem State.setOut_self (s : State) : s.setOut s.out = s := rfl
@[simp] theorem State.setOut_setOut (s : State) (o o' : Channels) : (s.setOut o).setOut o' = s.setOut o' := rfl

/-! ## `respond` -/

@[simp] theorem respond_port (v : Word) (s : State) : (respond v s).port = s.port := rfl
@[simp] theorem respond_responses (v : Word) (s : State) : (respond v s).responses = s.responses ++ [v] := rfl
@[simp] theorem respond_sys (v : Word) (s : State) : (respond v s).sys = s.sys := rfl
@[simp] theorem respond_config (v : Word) (s : State) : (respond v s).config = s.config := rfl
@[simp] theorem respond_canvasCap (v : Word) (s : State) : (respond v s).canvasCap = s.canvasCap := rfl
@[simp] theorem respond_sbu (v : Word) (s : State) : (respond v s).sbu = s.sbu := rfl
@[simp] theorem respond_sbf (v : Word) (s : State) : (respond v s).sbf = s.sbf := rfl
@[simp] theorem respond_lzd (v : Word) (s : State) : (respond v s).lzd = s.lzd := rfl
@[simp] theorem respond_lze (v : Word) (s : State) : (respond v s).lze = s.lze := rfl
@[simp] theorem respond_cmp (v : Word) (s : State) : (respond v s).cmp = s.cmp := rfl
@[simp] theorem respond_out (v : Word) (s : State) : (respond v s).out = s.out := rfl

end Sys2Proof.Machine
end

