-- ==== Sys2Proof/Laws/Ops.lean ====
section
/-! SUPPORT. What the shared operations do, as named updates of State: the error entry and exit, the channels, the illegal command. -/

namespace Sys2Proof.Machine

/-! ## The status of a unit -/

@[simp] theorem status_sbu (s : State) : s.status .sbu = s.sbu.st := rfl
@[simp] theorem status_sbf (s : State) : s.status .sbf = s.sbf.st := rfl
@[simp] theorem status_lzd (s : State) : s.status .lzd = s.lzd.st := rfl
@[simp] theorem status_lze (s : State) : s.status .lze = s.lze.st := rfl
@[simp] theorem status_cmp (s : State) : s.status .cmp = s.cmp.st := rfl
@[simp] theorem setStatus_sbu (s : State) (st : UnitStatus) : s.setStatus .sbu st = s.setSbu { s.sbu with st := st } := rfl
@[simp] theorem setStatus_sbf (s : State) (st : UnitStatus) : s.setStatus .sbf st = s.setSbf { s.sbf with st := st } := rfl
@[simp] theorem setStatus_lzd (s : State) (st : UnitStatus) : s.setStatus .lzd st = s.setLzd { s.lzd with st := st } := rfl
@[simp] theorem setStatus_lze (s : State) (st : UnitStatus) : s.setStatus .lze st = s.setLze { s.lze with st := st } := rfl
@[simp] theorem setStatus_cmp (s : State) (st : UnitStatus) : s.setStatus .cmp st = s.setCmp { s.cmp with st := st } := rfl

@[simp] theorem status_setStatus_same (s : State) (u : UnitId) (st : UnitStatus) : (s.setStatus u st).status u = st := by
  cases u <;> rfl

theorem status_setStatus_other (s : State) (st : UnitStatus) {u v : UnitId} (h : u ≠ v) :
    (s.setStatus u st).status v = s.status v := by
  cases u <;> cases v <;> first | rfl | exact absurd rfl h

/-! ## Error entry and exit (R303, R305) -/

@[simp] theorem raiseErr_sbu (c : ErrCode) (i : BitVec 16) (s : State) :
    raiseErr .sbu c i s = s.setSbu { s.sbu with st := { phase := .err, errCode := c, errInfo := i } } := rfl
@[simp] theorem raiseErr_sbf (c : ErrCode) (i : BitVec 16) (s : State) :
    raiseErr .sbf c i s = s.setSbf { s.sbf with st := { phase := .err, errCode := c, errInfo := i } } := rfl
@[simp] theorem raiseErr_lzd (c : ErrCode) (i : BitVec 16) (s : State) :
    raiseErr .lzd c i s = s.setLzd { s.lzd with st := { phase := .err, errCode := c, errInfo := i } } := rfl
@[simp] theorem raiseErr_lze (c : ErrCode) (i : BitVec 16) (s : State) :
    raiseErr .lze c i s = s.setLze { s.lze with st := { phase := .err, errCode := c, errInfo := i } } := rfl
@[simp] theorem raiseErr_cmp (c : ErrCode) (i : BitVec 16) (s : State) :
    raiseErr .cmp c i s = s.setCmp { s.cmp with st := { phase := .err, errCode := c, errInfo := i } } := rfl
@[simp] theorem protocolErr_sbu (op : Byte) (s : State) :
    protocolErr .sbu op s = s.setSbu { s.sbu with st := { phase := .err, errCode := .protocol, errInfo := op.setWidth 16 } } := rfl
@[simp] theorem protocolErr_sbf (op : Byte) (s : State) :
    protocolErr .sbf op s = s.setSbf { s.sbf with st := { phase := .err, errCode := .protocol, errInfo := op.setWidth 16 } } := rfl
@[simp] theorem protocolErr_lzd (op : Byte) (s : State) :
    protocolErr .lzd op s = s.setLzd { s.lzd with st := { phase := .err, errCode := .protocol, errInfo := op.setWidth 16 } } := rfl
@[simp] theorem protocolErr_lze (op : Byte) (s : State) :
    protocolErr .lze op s = s.setLze { s.lze with st := { phase := .err, errCode := .protocol, errInfo := op.setWidth 16 } } := rfl
@[simp] theorem protocolErr_cmp (op : Byte) (s : State) :
    protocolErr .cmp op s = s.setCmp { s.cmp with st := { phase := .err, errCode := .protocol, errInfo := op.setWidth 16 } } := rfl
@[simp] theorem clearErr_sbu (s : State) :
    clearErr .sbu s = s.setSbu { s.sbu with st := { s.sbu.st with errCode := .noError, errInfo := 0#16 } } := rfl
@[simp] theorem clearErr_sbf (s : State) :
    clearErr .sbf s = s.setSbf { s.sbf with st := { s.sbf.st with errCode := .noError, errInfo := 0#16 } } := rfl
@[simp] theorem clearErr_lzd (s : State) :
    clearErr .lzd s = s.setLzd { s.lzd with st := { s.lzd.st with errCode := .noError, errInfo := 0#16 } } := rfl
@[simp] theorem clearErr_lze (s : State) :
    clearErr .lze s = s.setLze { s.lze with st := { s.lze.st with errCode := .noError, errInfo := 0#16 } } := rfl
@[simp] theorem clearErr_cmp (s : State) :
    clearErr .cmp s = s.setCmp { s.cmp with st := { s.cmp.st with errCode := .noError, errInfo := 0#16 } } := rfl
@[simp] theorem setPhase_sbu (p : Phase) (s : State) :
    setPhase .sbu p s = s.setSbu { s.sbu with st := { s.sbu.st with phase := p } } := rfl
@[simp] theorem setPhase_sbf (p : Phase) (s : State) :
    setPhase .sbf p s = s.setSbf { s.sbf with st := { s.sbf.st with phase := p } } := rfl
@[simp] theorem setPhase_lzd (p : Phase) (s : State) :
    setPhase .lzd p s = s.setLzd { s.lzd with st := { s.lzd.st with phase := p } } := rfl
@[simp] theorem setPhase_lze (p : Phase) (s : State) :
    setPhase .lze p s = s.setLze { s.lze with st := { s.lze.st with phase := p } } := rfl
@[simp] theorem setPhase_cmp (p : Phase) (s : State) :
    setPhase .cmp p s = s.setCmp { s.cmp with st := { s.cmp.st with phase := p } } := rfl

/-- R303: the unit that raises is in ERR with the code and the info. -/
theorem raiseErr_status (u : UnitId) (c : ErrCode) (i : BitVec 16) (s : State) :
    (raiseErr u c i s).status u = { phase := .err, errCode := c, errInfo := i } := by
  simp [raiseErr]

/-- R303: "No other unit changes." -/
theorem raiseErr_status_other {u v : UnitId} (h : u ≠ v) (c : ErrCode) (i : BitVec 16) (s : State) :
    (raiseErr u c i s).status v = s.status v := status_setStatus_other s _ h

/-! ## Output channels (R75) -/

@[simp] theorem outSbu_eq (x : Byte) (s : State) :
    outSbu x s = s.setOut { s.out with sbuOut := s.out.sbuOut ++ [x] } := rfl
@[simp] theorem outSbf_eq (xs : List Byte) (s : State) :
    outSbf xs s = s.setOut { s.out with sbfOut := s.out.sbfOut ++ xs } := rfl
@[simp] theorem outLzd_eq (x : Byte) (s : State) :
    outLzd x s = s.setOut { s.out with lzdOut := s.out.lzdOut ++ [x] } := rfl
@[simp] theorem outLze_eq (x : Byte) (s : State) :
    outLze x s = s.setOut { s.out with lzeOut := s.out.lzeOut ++ [x] } := rfl
@[simp] theorem outFrame_eq (x : FrameRecord) (s : State) :
    outFrame x s = s.setOut { s.out with frameOut := s.out.frameOut ++ [x] } := rfl

/-! ## CONFIG bits (R25) depend on CONFIG alone -/

@[simp] theorem sbuToLzd_setPort (s : State) (p : List Word) : sbuToLzd (s.setPort p) = sbuToLzd s := rfl
@[simp] theorem sbuToLzd_setSys (s : State) (y : Sys) : sbuToLzd (s.setSys y) = sbuToLzd s := rfl
@[simp] theorem sbuToLzd_setSbu (s : State) (u : Sbu) : sbuToLzd (s.setSbu u) = sbuToLzd s := rfl
@[simp] theorem sbuToLzd_setSbf (s : State) (u : Sbf) : sbuToLzd (s.setSbf u) = sbuToLzd s := rfl
@[simp] theorem sbuToLzd_setLzd (s : State) (u : Lzd) : sbuToLzd (s.setLzd u) = sbuToLzd s := rfl
@[simp] theorem sbuToLzd_setLze (s : State) (u : Lze) : sbuToLzd (s.setLze u) = sbuToLzd s := rfl
@[simp] theorem sbuToLzd_setCmp (s : State) (u : Cmp) : sbuToLzd (s.setCmp u) = sbuToLzd s := rfl
@[simp] theorem sbuToLzd_setOut (s : State) (o : Channels) : sbuToLzd (s.setOut o) = sbuToLzd s := rfl
@[simp] theorem lzdToCmp_setPort (s : State) (p : List Word) : lzdToCmp (s.setPort p) = lzdToCmp s := rfl
@[simp] theorem lzdToCmp_setSys (s : State) (y : Sys) : lzdToCmp (s.setSys y) = lzdToCmp s := rfl
@[simp] theorem lzdToCmp_setSbu (s : State) (u : Sbu) : lzdToCmp (s.setSbu u) = lzdToCmp s := rfl
@[simp] theorem lzdToCmp_setSbf (s : State) (u : Sbf) : lzdToCmp (s.setSbf u) = lzdToCmp s := rfl
@[simp] theorem lzdToCmp_setLzd (s : State) (u : Lzd) : lzdToCmp (s.setLzd u) = lzdToCmp s := rfl
@[simp] theorem lzdToCmp_setLze (s : State) (u : Lze) : lzdToCmp (s.setLze u) = lzdToCmp s := rfl
@[simp] theorem lzdToCmp_setCmp (s : State) (u : Cmp) : lzdToCmp (s.setCmp u) = lzdToCmp s := rfl
@[simp] theorem lzdToCmp_setOut (s : State) (o : Channels) : lzdToCmp (s.setOut o) = lzdToCmp s := rfl
@[simp] theorem lzeToSbf_setPort (s : State) (p : List Word) : lzeToSbf (s.setPort p) = lzeToSbf s := rfl
@[simp] theorem lzeToSbf_setSys (s : State) (y : Sys) : lzeToSbf (s.setSys y) = lzeToSbf s := rfl
@[simp] theorem lzeToSbf_setSbu (s : State) (u : Sbu) : lzeToSbf (s.setSbu u) = lzeToSbf s := rfl
@[simp] theorem lzeToSbf_setSbf (s : State) (u : Sbf) : lzeToSbf (s.setSbf u) = lzeToSbf s := rfl
@[simp] theorem lzeToSbf_setLzd (s : State) (u : Lzd) : lzeToSbf (s.setLzd u) = lzeToSbf s := rfl
@[simp] theorem lzeToSbf_setLze (s : State) (u : Lze) : lzeToSbf (s.setLze u) = lzeToSbf s := rfl
@[simp] theorem lzeToSbf_setCmp (s : State) (u : Cmp) : lzeToSbf (s.setCmp u) = lzeToSbf s := rfl
@[simp] theorem lzeToSbf_setOut (s : State) (o : Channels) : lzeToSbf (s.setOut o) = lzeToSbf s := rfl
@[simp] theorem lzeLeadingClear_setPort (s : State) (p : List Word) : lzeLeadingClear (s.setPort p) = lzeLeadingClear s := rfl
@[simp] theorem lzeLeadingClear_setSys (s : State) (y : Sys) : lzeLeadingClear (s.setSys y) = lzeLeadingClear s := rfl
@[simp] theorem lzeLeadingClear_setSbu (s : State) (u : Sbu) : lzeLeadingClear (s.setSbu u) = lzeLeadingClear s := rfl
@[simp] theorem lzeLeadingClear_setSbf (s : State) (u : Sbf) : lzeLeadingClear (s.setSbf u) = lzeLeadingClear s := rfl
@[simp] theorem lzeLeadingClear_setLzd (s : State) (u : Lzd) : lzeLeadingClear (s.setLzd u) = lzeLeadingClear s := rfl
@[simp] theorem lzeLeadingClear_setLze (s : State) (u : Lze) : lzeLeadingClear (s.setLze u) = lzeLeadingClear s := rfl
@[simp] theorem lzeLeadingClear_setCmp (s : State) (u : Cmp) : lzeLeadingClear (s.setCmp u) = lzeLeadingClear s := rfl
@[simp] theorem lzeLeadingClear_setOut (s : State) (o : Channels) : lzeLeadingClear (s.setOut o) = lzeLeadingClear s := rfl
@[simp] theorem lzdEodLenient_setPort (s : State) (p : List Word) : lzdEodLenient (s.setPort p) = lzdEodLenient s := rfl
@[simp] theorem lzdEodLenient_setSys (s : State) (y : Sys) : lzdEodLenient (s.setSys y) = lzdEodLenient s := rfl
@[simp] theorem lzdEodLenient_setSbu (s : State) (u : Sbu) : lzdEodLenient (s.setSbu u) = lzdEodLenient s := rfl
@[simp] theorem lzdEodLenient_setSbf (s : State) (u : Sbf) : lzdEodLenient (s.setSbf u) = lzdEodLenient s := rfl
@[simp] theorem lzdEodLenient_setLzd (s : State) (u : Lzd) : lzdEodLenient (s.setLzd u) = lzdEodLenient s := rfl
@[simp] theorem lzdEodLenient_setLze (s : State) (u : Lze) : lzdEodLenient (s.setLze u) = lzdEodLenient s := rfl
@[simp] theorem lzdEodLenient_setCmp (s : State) (u : Cmp) : lzdEodLenient (s.setCmp u) = lzdEodLenient s := rfl
@[simp] theorem lzdEodLenient_setOut (s : State) (o : Channels) : lzdEodLenient (s.setOut o) = lzdEodLenient s := rfl
@[simp] theorem cmpShortLenient_setPort (s : State) (p : List Word) : cmpShortLenient (s.setPort p) = cmpShortLenient s := rfl
@[simp] theorem cmpShortLenient_setSys (s : State) (y : Sys) : cmpShortLenient (s.setSys y) = cmpShortLenient s := rfl
@[simp] theorem cmpShortLenient_setSbu (s : State) (u : Sbu) : cmpShortLenient (s.setSbu u) = cmpShortLenient s := rfl
@[simp] theorem cmpShortLenient_setSbf (s : State) (u : Sbf) : cmpShortLenient (s.setSbf u) = cmpShortLenient s := rfl
@[simp] theorem cmpShortLenient_setLzd (s : State) (u : Lzd) : cmpShortLenient (s.setLzd u) = cmpShortLenient s := rfl
@[simp] theorem cmpShortLenient_setLze (s : State) (u : Lze) : cmpShortLenient (s.setLze u) = cmpShortLenient s := rfl
@[simp] theorem cmpShortLenient_setCmp (s : State) (u : Cmp) : cmpShortLenient (s.setCmp u) = cmpShortLenient s := rfl
@[simp] theorem cmpShortLenient_setOut (s : State) (o : Channels) : cmpShortLenient (s.setOut o) = cmpShortLenient s := rfl

/-! ## Illegal commands (R302), the port -/

theorem illegalCommand_eq (op : Byte) (s : State) :
    illegalCommand op s =
      { s with sys := { illegal := true, illOp := if s.sys.illegal then s.sys.illOp else op },
               responses := s.responses ++ [0#64] } := rfl

@[simp] theorem takeCommand_nil {s : State} (h : s.port = []) : takeCommand s = none := by simp [takeCommand, h]

@[simp] theorem takeCommand_cons {s : State} {w : Word} {ws : List Word} (h : s.port = w :: ws) :
    takeCommand s = some (w, s.setPort ws) := by simp [takeCommand, h]

@[simp] theorem takeCommand_issueNext (w : Word) (s : State) : takeCommand (issueNext w s) = some (w, s) := rfl

end Sys2Proof.Machine
end

