-- ==== Sys2Proof/Laws/Frames.lean ====
section
/-! SUPPORT. What the rule of each unit can change at all: one relation per unit, and one lemma per rule saying that it stays inside it.
Every other field of State is unchanged, and a channel only gains items. -/

namespace Sys2Proof.Machine

/-! ## The relations -/

/-- Only CMP and `FRAME_OUT` change. -/
def CmpEffect (s t : State) : Prop :=
  ∃ c fr, t = (s.setCmp c).setOut { s.out with frameOut := s.out.frameOut ++ fr }

/-- Only SBF and `SBF_OUT` change. -/
def SbfEffect (s t : State) : Prop :=
  ∃ f so, t = (s.setSbf f).setOut { s.out with sbfOut := s.out.sbfOut ++ so }

/-- Only LZD, CMP and their channels change. -/
def LzdEffect (s t : State) : Prop :=
  ∃ d c lo fr, t = ((s.setLzd d).setCmp c).setOut
    { s.out with lzdOut := s.out.lzdOut ++ lo, frameOut := s.out.frameOut ++ fr }

/-- Only LZE, SBF and their channels change. -/
def LzeEffect (s t : State) : Prop :=
  ∃ e f eo so, t = ((s.setLze e).setSbf f).setOut
    { s.out with lzeOut := s.out.lzeOut ++ eo, sbfOut := s.out.sbfOut ++ so }

/-- Only SBU, LZD, CMP and their channels change. -/
def SbuEffect (s t : State) : Prop :=
  ∃ b d c bo lo fr, t = (((s.setSbu b).setLzd d).setCmp c).setOut
    { s.out with sbuOut := s.out.sbuOut ++ bo, lzdOut := s.out.lzdOut ++ lo, frameOut := s.out.frameOut ++ fr }

theorem CmpEffect.refl (s : State) : CmpEffect s s := ⟨s.cmp, [], by simp; rfl⟩

theorem CmpEffect.trans {s t u : State} (h : CmpEffect s t) (k : CmpEffect t u) : CmpEffect s u := by
  obtain ⟨c, fr, rfl⟩ := h
  obtain ⟨c', fr', rfl⟩ := k
  exact ⟨c', fr ++ fr', by simp [State.setCmp, State.setOut]⟩

theorem CmpEffect.of_setCmp (s : State) (c : Cmp) : CmpEffect s (s.setCmp c) := ⟨c, [], by simp [State.setCmp, State.setOut]⟩

theorem CmpEffect.of_outFrame (s : State) (x : FrameRecord) : CmpEffect s (outFrame x s) := ⟨s.cmp, [x], rfl⟩

theorem SbfEffect.refl (s : State) : SbfEffect s s := ⟨s.sbf, [], by simp; rfl⟩

theorem SbfEffect.trans {s t u : State} (h : SbfEffect s t) (k : SbfEffect t u) : SbfEffect s u := by
  obtain ⟨c, fr, rfl⟩ := h
  obtain ⟨c', fr', rfl⟩ := k
  exact ⟨c', fr ++ fr', by simp [State.setSbf, State.setOut]⟩

theorem SbfEffect.of_setSbf (s : State) (f : Sbf) : SbfEffect s (s.setSbf f) := ⟨f, [], by simp [State.setSbf, State.setOut]⟩

theorem SbfEffect.of_outSbf (s : State) (xs : List Byte) : SbfEffect s (outSbf xs s) := ⟨s.sbf, xs, rfl⟩

theorem LzdEffect.refl (s : State) : LzdEffect s s := ⟨s.lzd, s.cmp, [], [], by simp; rfl⟩

theorem LzdEffect.trans {s t u : State} (h : LzdEffect s t) (k : LzdEffect t u) : LzdEffect s u := by
  obtain ⟨d, c, lo, fr, rfl⟩ := h
  obtain ⟨d', c', lo', fr', rfl⟩ := k
  exact ⟨d', c', lo ++ lo', fr ++ fr', by simp [State.setLzd, State.setCmp, State.setOut]⟩

theorem LzdEffect.of_setLzd (s : State) (d : Lzd) : LzdEffect s (s.setLzd d) :=
  ⟨d, s.cmp, [], [], by simp [State.setLzd, State.setCmp, State.setOut]⟩

theorem LzdEffect.of_outLzd (s : State) (x : Byte) : LzdEffect s (outLzd x s) :=
  ⟨s.lzd, s.cmp, [x], [], by simp [State.setLzd, State.setCmp, State.setOut]⟩

theorem CmpEffect.toLzd {s t : State} (h : CmpEffect s t) : LzdEffect s t := by
  obtain ⟨c, fr, rfl⟩ := h
  exact ⟨s.lzd, c, [], fr, by simp [State.setLzd, State.setCmp, State.setOut]⟩

theorem LzeEffect.refl (s : State) : LzeEffect s s := ⟨s.lze, s.sbf, [], [], by simp; rfl⟩

theorem LzeEffect.trans {s t u : State} (h : LzeEffect s t) (k : LzeEffect t u) : LzeEffect s u := by
  obtain ⟨d, c, lo, fr, rfl⟩ := h
  obtain ⟨d', c', lo', fr', rfl⟩ := k
  exact ⟨d', c', lo ++ lo', fr ++ fr', by simp [State.setLze, State.setSbf, State.setOut]⟩

theorem LzeEffect.of_setLze (s : State) (e : Lze) : LzeEffect s (s.setLze e) :=
  ⟨e, s.sbf, [], [], by simp [State.setLze, State.setSbf, State.setOut]⟩

theorem LzeEffect.of_outLze (s : State) (x : Byte) : LzeEffect s (outLze x s) :=
  ⟨s.lze, s.sbf, [x], [], by simp [State.setLze, State.setSbf, State.setOut]⟩

theorem SbfEffect.toLze {s t : State} (h : SbfEffect s t) : LzeEffect s t := by
  obtain ⟨c, fr, rfl⟩ := h
  exact ⟨s.lze, c, [], fr, by simp [State.setLze, State.setSbf, State.setOut]⟩

theorem SbuEffect.refl (s : State) : SbuEffect s s := ⟨s.sbu, s.lzd, s.cmp, [], [], [], by simp; rfl⟩

theorem SbuEffect.trans {s t u : State} (h : SbuEffect s t) (k : SbuEffect t u) : SbuEffect s u := by
  obtain ⟨b, d, c, bo, lo, fr, rfl⟩ := h
  obtain ⟨b', d', c', bo', lo', fr', rfl⟩ := k
  exact ⟨b', d', c', bo ++ bo', lo ++ lo', fr ++ fr',
    by simp [State.setSbu, State.setLzd, State.setCmp, State.setOut]⟩

theorem SbuEffect.of_setSbu (s : State) (b : Sbu) : SbuEffect s (s.setSbu b) :=
  ⟨b, s.lzd, s.cmp, [], [], [], by simp [State.setSbu, State.setLzd, State.setCmp, State.setOut]⟩

theorem SbuEffect.of_outSbu (s : State) (x : Byte) : SbuEffect s (outSbu x s) :=
  ⟨s.sbu, s.lzd, s.cmp, [x], [], [], by simp [State.setSbu, State.setLzd, State.setCmp, State.setOut]⟩

theorem LzdEffect.toSbu {s t : State} (h : LzdEffect s t) : SbuEffect s t := by
  obtain ⟨d, c, lo, fr, rfl⟩ := h
  exact ⟨s.sbu, d, c, [], lo, fr, by simp [State.setSbu, State.setLzd, State.setCmp, State.setOut]⟩

/-! ## CMP -/

theorem emitFrame_effect (s : State) : CmpEffect s (emitFrame s) := ⟨_, _, rfl⟩

theorem cmpScreen_effect (w h : BitVec 16) (s : State) : CmpEffect s (cmpScreen w h s) := by
  unfold cmpScreen
  simp only []
  split
  · simpa using CmpEffect.of_setCmp s _
  · simpa using CmpEffect.of_setCmp s _

theorem whenIdle_effect (op : Byte) (f : Cmp → Cmp) (s : State) : CmpEffect s (whenIdle op f s) := by
  unfold whenIdle
  split
  · exact .refl s
  · exact .of_setCmp s _
  · exact .of_setCmp s _
  · exact .of_setCmp s _

theorem cmpImageBegin_effect (l : Bool) (w h : BitVec 16) (s : State) : CmpEffect s (cmpImageBegin l w h s) := by
  unfold cmpImageBegin
  split
  · exact .refl s
  · exact .of_setCmp s _
  · exact .of_setCmp s _
  · simp only []
    split
    · exact (CmpEffect.of_setCmp s _).trans (emitFrame_effect _)
    · exact .of_setCmp s _

theorem emitWhenFilled_effect (s : State) : CmpEffect s (emitWhenFilled s) := by
  unfold emitWhenFilled
  split
  · exact emitFrame_effect s
  · exact .refl s

theorem cmpPixel_effect (x : Byte) (s : State) : CmpEffect s (cmpPixel x s) := by
  unfold cmpPixel
  split
  · exact .refl s
  · exact .of_setCmp s _
  · exact .refl s
  · exact (CmpEffect.of_setCmp s _).trans (emitWhenFilled_effect _)

theorem cmpImageEnd_effect (s : State) : CmpEffect s (cmpImageEnd s) := by
  unfold cmpImageEnd
  split
  · exact .refl s
  · exact .of_setCmp s _
  · split
    · exact (emitFrame_effect s).trans (.of_setCmp _ _)
    · exact .of_setCmp s _
  · exact .of_setCmp s _

theorem cmpFinish_effect (s : State) : CmpEffect s (cmpFinish s) := by
  unfold cmpFinish
  split
  · exact .refl s
  · exact .of_setCmp s _
  · exact .of_setCmp s _
  · exact .of_outFrame s _

/-! ## LZD -/

theorem lzdOutByte_effect (x : Byte) (s : State) : LzdEffect s (lzdOutByte x s) := by
  unfold lzdOutByte
  split
  · exact (cmpPixel_effect x s).toLzd
  · exact .of_outLzd s x

theorem lzdOutByte_lzd (x : Byte) (s : State) : (lzdOutByte x s).lzd = s.lzd := by
  unfold lzdOutByte
  split
  · obtain ⟨c, fr, h⟩ := cmpPixel_effect x s
    simp [h]
  · rfl

theorem lzdEmit_effect (e : List Byte) (s : State) : LzdEffect s (lzdEmit e s) := by
  unfold lzdEmit
  induction e generalizing s with
  | nil => exact .refl s
  | cons x e ih => exact (lzdOutByte_effect x s).trans (ih _)

/-- Emission does not touch the decoder (R162, R308). -/
@[simp] theorem lzdEmit_lzd (e : List Byte) (s : State) : (lzdEmit e s).lzd = s.lzd := by
  unfold lzdEmit
  induction e generalizing s with
  | nil => rfl
  | cons x e ih => rw [List.foldl_cons, ih, lzdOutByte_lzd]

theorem lzdDataCode_effect (c : Nat) (e : List Byte) (s : State) : LzdEffect s (lzdDataCode c e s) :=
  (lzdEmit_effect e s).trans (.of_setLzd _ _)

theorem lzdSymbol_effect (c : Nat) (s : State) : LzdEffect s (lzdSymbol c s) := by
  unfold lzdSymbol
  split
  · exact lzdDataCode_effect _ _ s
  · exact .of_setLzd s _
  · exact .of_setLzd s _
  · exact lzdDataCode_effect _ _ s
  · exact lzdDataCode_effect _ _ s
  · exact .of_setLzd s _

theorem lzdLoop_effect (n : Nat) (s : State) : LzdEffect s (lzdLoop n s) := by
  induction n generalizing s with
  | zero => exact .refl s
  | succ n ih =>
    unfold lzdLoop
    split
    · exact ((LzdEffect.of_setLzd s _).trans (lzdSymbol_effect _ _)).trans (ih _)
    · exact .refl s

theorem lzdBegin_effect (cs : Byte) (s : State) : LzdEffect s (lzdBegin cs s) := by
  unfold lzdBegin
  simp only []
  split
  · simpa using LzdEffect.of_setLzd s _
  · simpa using LzdEffect.of_setLzd s _

theorem lzdFeed_effect (b : Byte) (s : State) : LzdEffect s (lzdFeed b s) := by
  unfold lzdFeed
  split
  · exact .refl s
  · exact .of_setLzd s _
  · exact .refl s
  · exact (LzdEffect.of_setLzd s _).trans (lzdLoop_effect _ _)

theorem lzdForwardEnd_effect (s : State) : CmpEffect s (lzdForwardEnd s) := by
  unfold lzdForwardEnd
  split
  · exact cmpImageEnd_effect s
  · exact .refl s

theorem lzdFinish_effect (s : State) : LzdEffect s (lzdFinish s) := by
  unfold lzdFinish
  split
  · exact .refl s
  · exact .of_setLzd s _
  · split
    · exact (LzdEffect.of_setLzd s _).trans (lzdForwardEnd_effect _).toLzd
    · exact .of_setLzd s _
  · exact (lzdForwardEnd_effect s).toLzd

/-! ## SBU -/

theorem sbuBegin_effect (s : State) : SbuEffect s (sbuBegin s) := .of_setSbu s _

theorem sbuFeed_effect (b : Byte) (s : State) : SbuEffect s (sbuFeed b s) := by
  unfold sbuFeed
  split
  · exact .refl s
  · exact .of_setSbu s _
  · exact .of_setSbu s _
  · split
    · split
      · simp only []
        split
        · exact (SbuEffect.of_setSbu s _).trans (lzdFinish_effect _).toSbu
        · exact .of_setSbu s _
      · exact .of_setSbu s _
    · simp only []
      split
      · exact (SbuEffect.of_setSbu s _).trans (lzdFeed_effect _ _).toSbu
      · exact (SbuEffect.of_setSbu s _).trans (.of_outSbu _ _)

theorem sbuFinish_effect (s : State) : SbuEffect s (sbuFinish s) := by
  unfold sbuFinish
  split
  · exact .refl s
  · exact .of_setSbu s _
  · exact .refl s
  · exact .of_setSbu s _

/-! ## SBF -/

theorem sbfBegin_effect (s : State) : SbfEffect s (sbfBegin s) := .of_setSbf s _

theorem sbfPut_effect (b : Byte) (s : State) : SbfEffect s (sbfPut b s) := by
  unfold sbfPut
  split
  · exact .refl s
  · exact .of_setSbf s _
  · exact .of_setSbf s _
  · simp only []
    split
    · exact (SbfEffect.of_setSbf s _).trans (.of_outSbf _ _)
    · exact .of_setSbf s _

theorem sbfEnd_effect (s : State) : SbfEffect s (sbfEnd s) := by
  unfold sbfEnd
  split
  · exact .refl s
  · exact .of_setSbf s _
  · exact .of_setSbf s _
  · exact (SbfEffect.of_setSbf s _).trans (.of_outSbf _ _)

/-! ## LZE -/

theorem lzeOutByte_effect (x : Byte) (s : State) : LzeEffect s (lzeOutByte x s) := by
  unfold lzeOutByte
  split
  · exact (sbfPut_effect x s).toLze
  · exact .of_outLze s x

theorem lzeOutByte_lze (x : Byte) (s : State) : (lzeOutByte x s).lze = s.lze := by
  unfold lzeOutByte
  split
  · obtain ⟨c, fr, h⟩ := sbfPut_effect x s
    simp [h]
  · rfl

theorem lzeFlushBytes_effect (n : Nat) (s : State) : LzeEffect s (lzeFlushBytes n s) := by
  induction n generalizing s with
  | zero => exact .refl s
  | succ n ih => exact ((lzeOutByte_effect _ s).trans (.of_setLze _ _)).trans (ih _)

theorem emitCode_effect (c : Nat) (s : State) : LzeEffect s (emitCode c s) :=
  (LzeEffect.of_setLze s _).trans (lzeFlushBytes_effect _ _)

theorem lzeBegin_effect (cs : Byte) (s : State) : LzeEffect s (lzeBegin cs s) := by
  unfold lzeBegin
  simp only []
  split
  · split
    · exact ((LzeEffect.of_setLze s _).trans (.of_setLze _ _)).trans (emitCode_effect _ _)
    · simpa using LzeEffect.of_setLze s _
  · simpa using LzeEffect.of_setLze s _

theorem lzeCeiling_effect (s : State) : LzeEffect s (lzeCeiling s) := (emitCode_effect _ s).trans (.of_setLze _ _)

theorem lzeRegister_effect (p : Code) (b : Byte) (s : State) : LzeEffect s (lzeRegister p b s) := by
  unfold lzeRegister
  split
  · exact lzeCeiling_effect s
  · exact .of_setLze s _

theorem lzeMiss_effect (p : Code) (b : Byte) (s : State) : LzeEffect s (lzeMiss p b s) :=
  (((emitCode_effect _ s).trans (.of_setLze _ _)).trans (lzeRegister_effect _ _ _)).trans (.of_setLze _ _)

theorem lzeFeed_effect (b : Byte) (s : State) : LzeEffect s (lzeFeed b s) := by
  unfold lzeFeed
  split
  · exact .refl s
  · exact .of_setLze s _
  · exact .of_setLze s _
  · split
    · exact .of_setLze s _
    · split
      · exact .of_setLze s _
      · split
        · exact .of_setLze s _
        · exact lzeMiss_effect _ _ s

theorem lzeLastCode_effect (s : State) : LzeEffect s (lzeLastCode s) := by
  unfold lzeLastCode
  split
  · exact .refl s
  · exact ((emitCode_effect _ s).trans (.of_setLze _ _)).trans (.of_setLze _ _)

theorem lzeFlushPartial_effect (s : State) : LzeEffect s (lzeFlushPartial s) := by
  unfold lzeFlushPartial
  split
  · exact (lzeOutByte_effect _ s).trans (.of_setLze _ _)
  · exact .refl s

theorem lzeFinish_effect (s : State) : LzeEffect s (lzeFinish s) := by
  unfold lzeFinish
  split
  · exact .refl s
  · exact .of_setLze s _
  · exact .of_setLze s _
  · have h := (((lzeLastCode_effect s).trans (emitCode_effect (lzeLastCode s).lze.eoi _)).trans
      (lzeFlushPartial_effect _)).trans (LzeEffect.of_setLze _ _ : LzeEffect _ (lzeDone _))
    simp only []
    split
    · exact h.trans (sbfEnd_effect _).toLze
    · exact h

end Sys2Proof.Machine
end

