-- ==== Sys2Proof/Laws/Memory.lean ====
section
/-! SUPPORT. The laws of the sparse memories: read after write, and that every operation keeps the canonical form and the bound on the indexes. -/

namespace Sys2Proof.Machine.Memory

variable {α : Type}

/-! ## Reading after writing -/

@[simp] theorem find?_nil (i : Nat) : find? ([] : Mem α) i = none := rfl

theorem find?_insert (m : Mem α) (i j : Nat) (v : α) :
    find? (insert m i v) j = if i = j then some v else find? m j := by
  induction m with
  | nil => simp [insert, find?]
  | cons e m ih =>
    obtain ⟨k, x⟩ := e
    simp only [insert]
    split
    · simp [find?]
    · split
      · next _ h => subst h; simp only [find?]; split <;> rfl
      · next _ h =>
        simp only [find?, ih]
        by_cases hk : k = j
        · subst hk
          have : i ≠ k := fun h' => h h'.symm
          simp [this]
        · simp [hk]

theorem find?_erase (m : Mem α) (i j : Nat) :
    find? (erase m i) j = if i = j then none else find? m j := by
  induction m with
  | nil => simp [erase, find?]
  | cons e m ih =>
    obtain ⟨k, x⟩ := e
    simp only [erase]
    split
    · next h =>
      subst h
      rw [ih]
      by_cases hj : k = j <;> simp [find?, hj]
    · next h =>
      simp only [find?, ih]
      by_cases hk : k = j
      · subst hk
        have : i ≠ k := fun h' => h h'.symm
        simp [this]
      · simp [hk]

@[simp] theorem read_nil (d : α) (i : Nat) : read d [] i = d := rfl

/-- `MemRead` after `MemWrite` (R70). -/
theorem read_write [DecidableEq α] (d : α) (m : Mem α) (i j : Nat) (v : α) :
    read d (write d m i v) j = if i = j then v else read d m j := by
  unfold write
  split
  · next h => subst h; simp only [read, find?_erase]; split <;> simp
  · simp only [read, find?_insert]; split <;> simp

@[simp] theorem read_write_same [DecidableEq α] (d : α) (m : Mem α) (i : Nat) (v : α) :
    read d (write d m i v) i = v := by simp [read_write]

theorem read_write_other [DecidableEq α] (d : α) (m : Mem α) (v : α) {i j : Nat} (h : i ≠ j) :
    read d (write d m i v) j = read d m j := by simp [read_write, h]

/-! ## The canonical form -/

theorem risingFrom_lt {m : Mem α} {i j : Nat} (h : i ≤ j) (hm : risingFrom j m = true) : risingFrom i m = true := by
  cases m with
  | nil => rfl
  | cons e m =>
    simp only [risingFrom, Bool.and_eq_true, decide_eq_true_eq] at hm ⊢
    exact ⟨by omega, hm.2⟩

theorem rising_of_risingFrom {m : Mem α} {i : Nat} (hm : risingFrom i m = true) : rising m = true := by
  cases m with
  | nil => rfl
  | cons e m =>
    simp only [risingFrom, Bool.and_eq_true] at hm
    exact hm.2

theorem risingFrom_insert {m : Mem α} {k i : Nat} (v : α) (h : k < i) (hm : risingFrom k m = true) :
    risingFrom k (insert m i v) = true := by
  induction m generalizing k with
  | nil => simp [insert, risingFrom, h]
  | cons e m ih =>
    obtain ⟨k', x⟩ := e
    simp only [risingFrom, Bool.and_eq_true, decide_eq_true_eq] at hm
    simp only [insert]
    split
    · next hi => simp [risingFrom, h, hi, hm.2]
    · split
      · next _ he => subst he; simp [risingFrom, h, hm.2]
      · next hi he =>
        simp only [risingFrom, Bool.and_eq_true, decide_eq_true_eq]
        exact ⟨hm.1, ih (by omega) hm.2⟩

theorem rising_insert {m : Mem α} (i : Nat) (v : α) (hm : rising m = true) : rising (insert m i v) = true := by
  cases m with
  | nil => rfl
  | cons e m =>
    obtain ⟨k, x⟩ := e
    simp only [rising] at hm
    simp only [insert]
    split
    · next hi => simp [rising, risingFrom, hi, hm]
    · split
      · next _ he => subst he; simpa [rising] using hm
      · next hi he => simp only [rising]; exact risingFrom_insert v (by omega) hm

theorem risingFrom_erase {m : Mem α} {k : Nat} (i : Nat) (hm : risingFrom k m = true) :
    risingFrom k (erase m i) = true := by
  induction m generalizing k with
  | nil => rfl
  | cons e m ih =>
    obtain ⟨k', x⟩ := e
    simp only [risingFrom, Bool.and_eq_true, decide_eq_true_eq] at hm
    simp only [erase]
    split
    · exact ih (risingFrom_lt (by omega) hm.2)
    · simp only [risingFrom, Bool.and_eq_true, decide_eq_true_eq]
      exact ⟨hm.1, ih hm.2⟩

theorem rising_erase {m : Mem α} (i : Nat) (hm : rising m = true) : rising (erase m i) = true := by
  cases m with
  | nil => rfl
  | cons e m =>
    obtain ⟨k, x⟩ := e
    simp only [rising] at hm
    simp only [erase]
    split
    · exact rising_of_risingFrom (risingFrom_erase i hm)
    · exact risingFrom_erase i hm

theorem mem_insert {m : Mem α} {i : Nat} {v : α} {e : Nat × α} (h : e ∈ insert m i v) : e = (i, v) ∨ e ∈ m := by
  induction m with
  | nil => simpa [insert] using h
  | cons f m ih =>
    obtain ⟨k, x⟩ := f
    simp only [insert] at h
    split at h
    · simpa using h
    · split at h
      · simp only [List.mem_cons] at h ⊢
        tauto
      · simp only [List.mem_cons] at h ⊢
        rcases h with h | h
        · exact .inr (.inl h)
        · rcases ih h with h | h <;> tauto

theorem mem_erase {m : Mem α} {i : Nat} {e : Nat × α} (h : e ∈ erase m i) : e ∈ m := by
  induction m with
  | nil => simp [erase] at h
  | cons f m ih =>
    obtain ⟨k, x⟩ := f
    simp only [erase] at h
    split at h
    · exact List.mem_cons_of_mem _ (ih h)
    · simp only [List.mem_cons] at h ⊢
      rcases h with h | h
      · exact .inl h
      · exact .inr (ih h)

theorem wf_iff [DecidableEq α] {d : α} {m : Mem α} : wf d m = true ↔ rising m = true ∧ ∀ e ∈ m, e.2 ≠ d := by
  simp [wf, List.all_eq_true]

theorem within_iff {n : Nat} {m : Mem α} : within n m = true ↔ ∀ e ∈ m, e.1 < n := by
  simp [within, List.all_eq_true]

@[simp] theorem wf_nil [DecidableEq α] (d : α) : wf d ([] : Mem α) = true := rfl
@[simp] theorem within_nil (n : Nat) : within n ([] : Mem α) = true := rfl
@[simp] theorem rising_nil : rising ([] : Mem α) = true := rfl

/-- Every write keeps the canonical form. -/
theorem wf_write [DecidableEq α] {d : α} {m : Mem α} (i : Nat) (v : α) (hm : wf d m = true) :
    wf d (write d m i v) = true := by
  rw [wf_iff] at hm ⊢
  unfold write
  split
  · exact ⟨rising_erase i hm.1, fun e he => hm.2 e (mem_erase he)⟩
  · next hv =>
    refine ⟨rising_insert i v hm.1, fun e he => ?_⟩
    rcases mem_insert he with rfl | he
    · exact hv
    · exact hm.2 e he

/-- Every write at an index of the memory keeps the bound on the indexes. -/
theorem within_write [DecidableEq α] {d : α} {n : Nat} {m : Mem α} {i : Nat} (v : α) (hi : i < n)
    (hm : within n m = true) : within n (write d m i v) = true := by
  rw [within_iff] at hm ⊢
  unfold write
  split
  · exact fun e he => hm e (mem_erase he)
  · intro e he
    rcases mem_insert he with rfl | he
    · exact hi
    · exact hm e he

theorem lt_of_mem_risingFrom {m : Mem α} {b : Nat} {p : Nat × α} (hm : risingFrom b m = true) (hp : p ∈ m) : b < p.1 := by
  induction m generalizing b with
  | nil => simp at hp
  | cons g m ih =>
    simp only [risingFrom, Bool.and_eq_true, decide_eq_true_eq] at hm
    rcases List.mem_cons.1 hp with rfl | hp
    · exact hm.1
    · have := ih hm.2 hp
      omega

/-- A listed entry is found, in a memory whose indexes rise. -/
theorem find?_of_mem {m : Mem α} {e : Nat × α} (hm : rising m = true) (he : e ∈ m) : find? m e.1 = some e.2 := by
  induction m with
  | nil => simp at he
  | cons f m ih =>
    obtain ⟨k, x⟩ := f
    simp only [rising] at hm
    rcases List.mem_cons.1 he with rfl | he
    · simp [find?]
    · have hlt := lt_of_mem_risingFrom hm he
      have : k ≠ e.1 := by omega
      simp only [find?, this, if_false]
      exact ih (rising_of_risingFrom hm) he

theorem mem_of_find? {m : Mem α} {i : Nat} {v : α} (h : find? m i = some v) : (i, v) ∈ m := by
  induction m with
  | nil => simp at h
  | cons f m ih =>
    obtain ⟨k, x⟩ := f
    simp only [find?] at h
    split at h
    · next hk => subst hk; simp_all
    · exact List.mem_cons_of_mem _ (ih h)

/-- Two memories of canonical form that read alike everywhere are equal. -/
theorem eq_of_find? {m n : Mem α} (hm : rising m = true) (hn : rising n = true) (h : ∀ i, find? m i = find? n i) :
    m = n := by
  induction m generalizing n with
  | nil =>
    cases n with
    | nil => rfl
    | cons f n => have := h f.1; simp [find?] at this
  | cons e m ih =>
    obtain ⟨k, x⟩ := e
    cases n with
    | nil => have := h k; simp [find?] at this
    | cons f n =>
      obtain ⟨k', x'⟩ := f
      simp only [rising] at hm hn
      have hk : k = k' := by
        have h1 := h k
        have h2 := h k'
        simp only [find?, if_true] at h1 h2
        by_contra hne
        have hne' : k' ≠ k := fun h' => hne h'.symm
        simp only [hne, hne', if_false] at h1 h2
        have := lt_of_mem_risingFrom hn (mem_of_find? h1.symm)
        have := lt_of_mem_risingFrom hm (mem_of_find? h2)
        simp only at *
        omega
      subst hk
      have hx : x = x' := by simpa [find?] using h k
      subst hx
      congr 1
      refine ih (rising_of_risingFrom hm) (rising_of_risingFrom hn) fun i => ?_
      by_cases hi : k = i
      · subst hi
        have : ∀ {l : Mem α}, risingFrom k l = true → find? l k = none := by
          intro l hl
          cases hf : find? l k with
          | none => rfl
          | some v => have := lt_of_mem_risingFrom hl (mem_of_find? hf); simp at this
        rw [this hm, this hn]
      · simpa [find?, hi] using h i

end Sys2Proof.Machine.Memory
end

