-- ==== Sys2Proof/Laws/Lzd.lean ====
section
/-! SUPPORT. The decoder: its dictionary step keeps R31 and R164, and so do its commands. -/

namespace Sys2Proof.Machine

theorem toNat_ofNat_of_lt {n x : Nat} (h : x < 2 ^ n) : (BitVec.ofNat n x).toNat = x := by
  simp [Nat.mod_eq_of_lt h]

theorem two_pow_le_4096 {w : Nat} (h : w ≤ 12) : 2 ^ w ≤ 4096 := by
  calc 2 ^ w ≤ 2 ^ 12 := Nat.pow_le_pow_right (by decide) h
    _ = 4096 := by decide

theorem clear_lt_eoi (d : Lzd) : d.clear < d.eoi := by simp [Lzd.clear, Lzd.eoi, clearCode, endCode]

theorem eoi_eq (d : Lzd) : d.eoi = d.clear + 1 := rfl

/-! ## What the pieces of the dictionary step write -/

@[simp] theorem registered_st (d : Lzd) (e : List Byte) : (d.registered e).st = d.st := by
  unfold Lzd.registered; split <;> rfl
@[simp] theorem registered_cs (d : Lzd) (e : List Byte) : (d.registered e).cs = d.cs := by
  unfold Lzd.registered; split <;> rfl
@[simp] theorem registered_w (d : Lzd) (e : List Byte) : (d.registered e).w = d.w := by
  unfold Lzd.registered; split <;> rfl
@[simp] theorem registered_next (d : Lzd) (e : List Byte) : (d.registered e).next = d.next := by
  unfold Lzd.registered; split <;> rfl
@[simp] theorem registered_prev (d : Lzd) (e : List Byte) : (d.registered e).prev = d.prev := by
  unfold Lzd.registered; split <;> simp_all
@[simp] theorem registered_full (d : Lzd) (e : List Byte) : (d.registered e).full = d.full := by
  unfold Lzd.registered; split <;> rfl
@[simp] theorem registered_acc (d : Lzd) (e : List Byte) : (d.registered e).acc = d.acc := by
  unfold Lzd.registered; split <;> rfl
@[simp] theorem registered_nbits (d : Lzd) (e : List Byte) : (d.registered e).nbits = d.nbits := by
  unfold Lzd.registered; split <;> rfl

/-- The registration of R160 writes slot `NEXT`, if there is a previous code, and no other slot. -/
theorem registered_prefixAt (d : Lzd) (e : List Byte) (j : Nat) :
    (d.registered e).prefixAt j =
      match d.prev with
      | none => d.prefixAt j
      | some p => if d.next.toNat = j then p else d.prefixAt j := by
  unfold Lzd.registered Lzd.prefixAt
  cases d.prev <;> simp [Memory.read_write]

theorem registered_suffixAt (d : Lzd) (e : List Byte) (j : Nat) :
    (d.registered e).suffixAt j =
      match d.prev with
      | none => d.suffixAt j
      | some _ => if d.next.toNat = j then e.headD 0#8 else d.suffixAt j := by
  unfold Lzd.registered Lzd.suffixAt
  cases d.prev <;> simp [Memory.read_write]

@[simp] theorem advanced_st (d : Lzd) (c : Nat) : (d.advanced c).st = d.st := by
  unfold Lzd.advanced; simp only []; split <;> [split; skip] <;> rfl
@[simp] theorem advanced_cs (d : Lzd) (c : Nat) : (d.advanced c).cs = d.cs := by
  unfold Lzd.advanced; simp only []; split <;> [split; skip] <;> rfl
@[simp] theorem advanced_acc (d : Lzd) (c : Nat) : (d.advanced c).acc = d.acc := by
  unfold Lzd.advanced; simp only []; split <;> [split; skip] <;> rfl
@[simp] theorem advanced_nbits (d : Lzd) (c : Nat) : (d.advanced c).nbits = d.nbits := by
  unfold Lzd.advanced; simp only []; split <;> [split; skip] <;> rfl
@[simp] theorem advanced_pfx (d : Lzd) (c : Nat) : (d.advanced c).pfx = d.pfx := by
  unfold Lzd.advanced; simp only []; split <;> [split; skip] <;> rfl
@[simp] theorem advanced_sfx (d : Lzd) (c : Nat) : (d.advanced c).sfx = d.sfx := by
  unfold Lzd.advanced; simp only []; split <;> [split; skip] <;> rfl
@[simp] theorem advanced_next (d : Lzd) (c : Nat) : (d.advanced c).next = BitVec.ofNat 13 (d.next.toNat + 1) := by
  unfold Lzd.advanced; simp only []; split <;> [split; skip] <;> rfl

@[simp] theorem grown_st (d : Lzd) (c : Nat) (e : List Byte) : (d.grown c e).st = d.st := by
  unfold Lzd.grown; split <;> simp
@[simp] theorem grown_cs (d : Lzd) (c : Nat) (e : List Byte) : (d.grown c e).cs = d.cs := by
  unfold Lzd.grown; split <;> simp
@[simp] theorem grown_acc (d : Lzd) (c : Nat) (e : List Byte) : (d.grown c e).acc = d.acc := by
  unfold Lzd.grown; split <;> simp
@[simp] theorem grown_nbits (d : Lzd) (c : Nat) (e : List Byte) : (d.grown c e).nbits = d.nbits := by
  unfold Lzd.grown; split <;> simp

/-! ## The dictionary invariant -/

/-- A code that `Grow` may be given: one the classes LIT, DICT and KWK admit (R98). -/
def Lzd.Growable (d : Lzd) (c : Nat) : Prop :=
  c < d.clear ∨ (d.eoi < c ∧ c < d.next.toNat) ∨ (d.eoi < c ∧ c = d.next.toNat ∧ d.prev ≠ none)

theorem isDataCode_mono {cs m n c : Nat} (h : m ≤ n) (hc : isDataCode cs m c) : isDataCode cs n c := by
  rcases hc with hc | hc
  · exact .inl hc
  · exact .inr ⟨hc.1, by omega⟩

/-- The growth step keeps R31 and R164. -/
theorem grown_tableOk {d : Lzd} {c : Nat} (e : List Byte) (h : d.TableOk) (hc : d.Growable c) :
    (d.grown c e).TableOk := by
  unfold Lzd.grown
  split
  · exact h
  · next hf =>
    have hfull : d.full = false := by simpa using hf
    have hlt := h.next_w hfull
    have hpow := two_pow_le_4096 h.w_hi
    have hprev := h.prev
    simp only [hfull, or_false, Bool.false_eq_true] at hprev
    have hclear : d.clear < d.eoi := clear_lt_eoi d
    have hlo := h.next_lo
    have hdata : isDataCode d.cs.toNat (d.next.toNat + 1) c := by
      rcases hc with hc | hc | hc
      · exact .inl hc
      · exact .inr ⟨hc.1, by omega⟩
      · exact .inr ⟨hc.1, by omega⟩
    have hc12 : c < 2 ^ 12 := by
      rcases hdata with hdata | hdata
      · have : d.clear = clearCode d.cs.toNat := rfl
        omega
      · omega
    have hchain : ∀ j, d.eoi < j → j < d.next.toNat + 1 →
        isDataCode d.cs.toNat j ((d.registered e).prefixAt j).toNat := by
      intro j hj1 hj2
      rw [registered_prefixAt]
      split
      · next hp => exact absurd (hprev.1 hp) (by omega)
      · next p hp =>
        split
        · next hj => rw [← hj]; exact h.prev_is p hp
        · next hj => exact h.chain j hj1 (by omega)
    have hn : (BitVec.ofNat 13 (d.next.toNat + 1)).toNat = d.next.toNat + 1 := toNat_ofNat_of_lt (by omega)
    have hchain' : ∀ d' : Lzd, d'.pfx = (d.registered e).pfx → d'.cs = d.cs → d'.next.toNat = d.next.toNat + 1 →
        ∀ j, d'.eoi < j → j < d'.next.toNat → isDataCode d'.cs.toNat j (d'.prefixAt j).toNat := by
      intro d' h1 h2 h3 j hj1 hj2
      have := hchain j (by simpa [Lzd.eoi, h2] using hj1) (by omega)
      simpa [Lzd.prefixAt, h1, h2] using this
    unfold Lzd.advanced
    simp only [registered_next, registered_w, hn]
    have w_lo := h.w_lo
    have w_hi := h.w_hi
    have w_next := h.w_next
    split
    · next ht =>
      split
      · next hw =>
        have hw' : d.w.toNat < 12 := hw
        have hww : (BitVec.ofNat 4 (d.w.toNat + 1)).toNat = d.w.toNat + 1 := toNat_ofNat_of_lt (by omega)
        constructor <;> simp only [registered_cs, registered_full, hn, hww]
        · exact h.cs_lo
        · exact h.cs_hi
        · omega
        · omega
        · show d.eoi ≤ _; omega
        · omega
        · simp [ht]
        · intro _; rw [ht, Nat.pow_succ]; omega
        · simp [hfull]
        · show _ ↔ _ = d.eoi ∨ _; simp [hfull]; omega
        · intro p hp
          simp only [Option.some.injEq] at hp
          subst hp
          rw [toNat_ofNat_of_lt hc12]
          exact hdata
        · have := hchain' { d.registered e with prev := some (BitVec.ofNat 12 c), next := BitVec.ofNat 13 (d.next.toNat + 1), w := BitVec.ofNat 4 (d.w.toNat + 1) } rfl (by simp) hn
          simpa [hn] using this
      · next hw =>
        have hw' : d.w.toNat = 12 := by have : ¬ d.w.toNat < 12 := hw; omega
        rw [hw'] at ht
        constructor <;> simp only [registered_cs, hn, hw']
        · exact h.cs_lo
        · exact h.cs_hi
        · omega
        · omega
        · show d.eoi ≤ _; omega
        · omega
        · omega
        · simp
        · exact fun _ => ⟨trivial, by omega⟩
        · simp
        · simp
        · have := hchain' { d.registered e with prev := none, full := true, next := BitVec.ofNat 13 (d.next.toNat + 1) } rfl (by simp) hn
          simpa [hn] using this
    · next ht =>
      constructor <;> simp only [registered_cs, registered_full, hn]
      · exact h.cs_lo
      · exact h.cs_hi
      · omega
      · omega
      · show d.eoi ≤ _; omega
      · omega
      · omega
      · intro _; omega
      · simp [hfull]
      · show _ ↔ _ = d.eoi ∨ _; simp [hfull]; omega
      · intro p hp
        simp only [Option.some.injEq] at hp
        subst hp
        rw [toNat_ofNat_of_lt hc12]
        exact hdata
      · have := hchain' { d.registered e with prev := some (BitVec.ofNat 12 c), next := BitVec.ofNat 13 (d.next.toNat + 1) } rfl (by simp) hn
        simpa [hn] using this

theorem cleared_tableOk {d : Lzd} (h1 : 2 ≤ d.cs.toNat) (h2 : d.cs.toNat ≤ 8) : d.cleared.TableOk := by
  have hp : 2 ^ d.cs.toNat ≤ 2 ^ 8 := Nat.pow_le_pow_right (by decide) h2
  have hp2 : 2 ^ 2 ≤ 2 ^ d.cs.toNat := Nat.pow_le_pow_right (by decide) h1
  have hn : (BitVec.ofNat 13 d.eoi).toNat = d.eoi := toNat_ofNat_of_lt (by simp only [Lzd.eoi, endCode]; omega)
  have hw : (BitVec.ofNat 4 (d.cs.toNat + 1)).toNat = d.cs.toNat + 1 := toNat_ofNat_of_lt (by omega)
  have he : d.eoi = 2 ^ d.cs.toNat + 1 := rfl
  have heq : d.cleared.eoi = d.eoi := rfl
  have hk : d.cleared.cs = d.cs := rfl
  have hk2 : d.cleared.next.toNat = d.eoi := hn
  have hk3 : d.cleared.w.toNat = d.cs.toNat + 1 := hw
  have hk4 : d.cleared.full = false := rfl
  have hk5 : d.cleared.prev = none := rfl
  constructor <;> simp only [hk, hk2, hk3, hk4, hk5, heq]
  · exact h1
  · exact h2
  · omega
  · omega
  · omega
  · omega
  · rw [Nat.add_sub_cancel]; omega
  · intro _; rw [Nat.pow_succ]; omega
  · simp
  · simp
  · simp
  · intro c h3 h4; omega

@[simp] theorem advanced_prefixAt (d : Lzd) (c j : Nat) : (d.advanced c).prefixAt j = d.prefixAt j := by
  simp [Lzd.prefixAt]
@[simp] theorem advanced_suffixAt (d : Lzd) (c j : Nat) : (d.advanced c).suffixAt j = d.suffixAt j := by
  simp [Lzd.suffixAt]

/-- The growth step as R160 and R161 write it. -/
theorem grown_grows {d : Lzd} (c : Nat) (e : List Byte) (h : d.TableOk) : Grows d c (e.headD 0#8) (d.grown c e) := by
  have hw := two_pow_le_4096 h.w_hi
  have hnw := h.next_w
  refine ⟨⟨by simp, by simp, by simp, by simp⟩, fun hf => by simp [Lzd.grown, hf], ?_, ?_, ?_, ?_, ?_⟩
  · intro hf j
    have hg : d.grown c e = (d.registered e).advanced c := by simp [Lzd.grown, hf]
    rw [hg, advanced_prefixAt, advanced_suffixAt, registered_prefixAt, registered_suffixAt]
    cases d.prev <;> simp [eq_comm]
  · intro hf
    have := hnw hf
    have hg : d.grown c e = (d.registered e).advanced c := by simp [Lzd.grown, hf]
    rw [hg, advanced_next, registered_next]
    exact toNat_ofNat_of_lt (by omega)
  all_goals
    intro hf ht
    have := hnw hf
    have hn : (BitVec.ofNat 13 (d.next.toNat + 1)).toNat = d.next.toNat + 1 := toNat_ofNat_of_lt (by omega)
    have hg : d.grown c e = (d.registered e).advanced c := by simp [Lzd.grown, hf]
  · rw [hg]
    simp only [Lzd.advanced, registered_next, registered_w, hn, if_neg ht, registered_full]
    exact ⟨trivial, hf, trivial⟩
  · intro h12
    have hww : (BitVec.ofNat 4 (d.w.toNat + 1)).toNat = d.w.toNat + 1 := toNat_ofNat_of_lt (by omega)
    rw [hg]
    simp only [Lzd.advanced, registered_next, registered_w, hn, if_pos ht, if_pos h12, registered_full, hww]
    exact ⟨trivial, hf, trivial⟩
  · intro h12
    have h12' : ¬ d.w.toNat < 12 := by omega
    rw [hg]
    simp only [Lzd.advanced, registered_next, registered_w, hn, if_pos ht, if_neg h12']
    exact ⟨trivial, trivial, trivial⟩

/-! ## One code, as a function of the decoder alone -/

/-- What `Symbol(c)` makes of the decoder (R152 to R158). -/
def Lzd.afterSymbol (d : Lzd) (c : Nat) : Lzd :=
  match d.classify c with
  | .lit => d.grown c [BitVec.ofNat 8 c]
  | .clr => d.cleared
  | .eoi => d.ended
  | .dict => d.grown c (d.expand c)
  | .kwk p => d.grown c (d.kwkExpansion p)
  | .bad => { d with st := { phase := .err, errCode := .invalidCode, errInfo := BitVec.ofNat 16 c } }

/-- The bytes `Symbol(c)` emits (R152 to R158). -/
def Lzd.symbolBytes (d : Lzd) (c : Nat) : List Byte :=
  match d.classify c with
  | .lit => [BitVec.ofNat 8 c]
  | .dict => d.expand c
  | .kwk p => d.kwkExpansion p
  | .clr | .eoi | .bad => []

@[simp] theorem emitFrame_setLzd (s : State) (d : Lzd) : emitFrame (s.setLzd d) = (emitFrame s).setLzd d := rfl

theorem emitWhenFilled_setLzd (s : State) (d : Lzd) : emitWhenFilled (s.setLzd d) = (emitWhenFilled s).setLzd d := by
  by_cases h : s.cmp.areaFilled <;> simp [emitWhenFilled, h]

theorem cmpPixel_setLzd (x : Byte) (s : State) (d : Lzd) : cmpPixel x (s.setLzd d) = (cmpPixel x s).setLzd d := by
  unfold cmpPixel
  simp only [State.setLzd_cmp]
  split
  · rfl
  · rfl
  · rfl
  · exact emitWhenFilled_setLzd (s.setCmp (s.cmp.pixelTaken x)) d

theorem lzdOutByte_setLzd (x : Byte) (s : State) (d : Lzd) :
    lzdOutByte x (s.setLzd d) = (lzdOutByte x s).setLzd d := by
  unfold lzdOutByte
  simp only [lzdToCmp_setLzd, cmpPixel_setLzd]
  split <;> rfl

/-- Emission and a write of the decoder commute. -/
theorem lzdEmit_setLzd (e : List Byte) (s : State) (d : Lzd) : lzdEmit e (s.setLzd d) = (lzdEmit e s).setLzd d := by
  unfold lzdEmit
  induction e generalizing s with
  | nil => rfl
  | cons x e ih => rw [List.foldl_cons, List.foldl_cons, lzdOutByte_setLzd, ih]

theorem lzdEmit_append (e f : List Byte) (s : State) : lzdEmit (e ++ f) s = lzdEmit f (lzdEmit e s) := by
  simp [lzdEmit, List.foldl_append]

@[simp] theorem lzdEmit_nil (s : State) : lzdEmit [] s = s := rfl

/-- `Symbol(c)` writes the decoder and emits bytes; nothing else. -/
theorem lzdSymbol_eq (c : Nat) (s : State) :
    lzdSymbol c s = lzdEmit (s.lzd.symbolBytes c) (s.setLzd (s.lzd.afterSymbol c)) := by
  cases h : s.lzd.classify c <;>
    simp [lzdSymbol, Lzd.symbolBytes, Lzd.afterSymbol, h, lzdDataCode, lzdEmit_setLzd]

/-- The loop of R151, as a function of the decoder alone: the decoder after it, and the bytes emitted. -/
def Lzd.run : Nat → Lzd → Lzd × List Byte
  | 0, d => (d, [])
  | n + 1, d =>
    if d.hasCode then
      let r := Lzd.run n (d.codeTaken.afterSymbol d.nextCode)
      (r.1, d.codeTaken.symbolBytes d.nextCode ++ r.2)
    else (d, [])

theorem lzdLoop_eq (n : Nat) (s : State) :
    lzdLoop n s = lzdEmit (s.lzd.run n).2 (s.setLzd (s.lzd.run n).1) := by
  induction n generalizing s with
  | zero => rfl
  | succ n ih =>
    unfold lzdLoop Lzd.run
    split
    · rw [ih, lzdSymbol_eq]
      simp only [State.setLzd_lzd, lzdEmit_append, lzdEmit_setLzd, State.setLzd_setLzd]
    · rfl

/-- What `LZD_FEED b` makes of an ACTIVE decoder (R151). -/
def Lzd.fed (d : Lzd) (b : Byte) : Lzd × List Byte := (d.byteGiven b).run (d.byteGiven b).nbits.toNat

theorem lzdFeed_active (b : Byte) {s : State} (h : s.lzd.st.phase = .active) :
    lzdFeed b s = lzdEmit (s.lzd.fed b).2 (s.setLzd (s.lzd.fed b).1) := by
  simp [lzdFeed, h, lzdLoop_eq, Lzd.fed]

/-- With the route off, emission appends to `LZD_OUT` (R162). -/
theorem lzdEmit_off (e : List Byte) {s : State} (h : lzdToCmp s = false) :
    lzdEmit e s = s.setOut { s.out with lzdOut := s.out.lzdOut ++ e } := by
  unfold lzdEmit
  induction e generalizing s with
  | nil => simp; rfl
  | cons x e ih =>
    rw [List.foldl_cons, ih (by simp [lzdOutByte, h])]
    simp [lzdOutByte, h, State.setOut]

/-- With the route on, emission is a sequence of forwarded `CMP_PIXEL` commands (R162, R78). -/
theorem lzdEmit_on (e : List Byte) {s : State} (h : lzdToCmp s = true) :
    lzdEmit e s = e.foldl (fun t x => cmpPixel x t) s := by
  unfold lzdEmit
  induction e generalizing s with
  | nil => rfl
  | cons x e ih =>
    have hx : lzdOutByte x s = cmpPixel x s := by simp [lzdOutByte, h]
    obtain ⟨c, fr, hc⟩ := cmpPixel_effect x s
    rw [List.foldl_cons, List.foldl_cons, hx, ih (by rw [hc]; simp [h])]

/-- The emission the statements write is the machine's (R162). -/
theorem lzdEmitted_eq (e : List Byte) (s : State) : lzdEmitted e s = lzdEmit e s := by
  unfold lzdEmitted
  split
  · next h => rw [lzdEmit_on e (show lzdToCmp s = true from h)]
  · next h => rw [lzdEmit_off e (show lzdToCmp s = false from by simpa [lzdToCmp] using h)]; rfl

/-! ## The decoder stays legal -/

/-- R31 within the loop of R151: as between commands, but with up to 19 bits held. -/
structure Lzd.MidOk (d : Lzd) : Prop where
  next    : d.next.toNat ≤ 4096
  w       : d.w.toNat ≤ 12
  pfx_wf  : Memory.wf 0#12 d.pfx = true
  sfx_wf  : Memory.wf 0#8 d.sfx = true
  pfx_in  : Memory.within 4096 d.pfx = true
  sfx_in  : Memory.within 4096 d.sfx = true
  table   : d.st.phase = .active ∨ d.st.phase = .done → d.TableOk
  bits    : d.st.phase = .active → d.acc.toNat < 2 ^ d.nbits.toNat ∧ d.nbits.toNat ≤ 19
  done    : d.st.phase = .done → d.BitsOk

theorem classify_dict {d : Lzd} {c : Nat} (h : d.classify c = .dict) : d.eoi < c ∧ c < d.next.toNat := by
  unfold Lzd.classify at h
  repeat' split at h
  all_goals first | assumption | simp at h

theorem classify_lit {d : Lzd} {c : Nat} (h : d.classify c = .lit) : c < d.clear := by
  unfold Lzd.classify at h
  repeat' split at h
  all_goals first | assumption | simp at h

theorem classify_kwk {d : Lzd} {c : Nat} {p : Code} (h : d.classify c = .kwk p) :
    d.prev = some p ∧ c = d.next.toNat ∧ d.eoi < c := by
  unfold Lzd.classify at h
  repeat' split at h
  all_goals simp at h
  next hp hc => exact ⟨h ▸ hp, hc⟩

theorem grown_memories {d : Lzd} {c : Nat} (e : List Byte) (h : d.TableOk)
    (m1 : Memory.wf 0#12 d.pfx = true) (m2 : Memory.wf 0#8 d.sfx = true)
    (m3 : Memory.within 4096 d.pfx = true) (m4 : Memory.within 4096 d.sfx = true) :
    Memory.wf 0#12 (d.grown c e).pfx = true ∧ Memory.wf 0#8 (d.grown c e).sfx = true ∧
      Memory.within 4096 (d.grown c e).pfx = true ∧ Memory.within 4096 (d.grown c e).sfx = true := by
  unfold Lzd.grown
  split
  · exact ⟨m1, m2, m3, m4⟩
  · next hf =>
    have hlt := h.next_w (by simpa using hf)
    have hpow := two_pow_le_4096 h.w_hi
    simp only [advanced_pfx, advanced_sfx]
    unfold Lzd.registered
    split
    · exact ⟨m1, m2, m3, m4⟩
    · exact ⟨Memory.wf_write _ _ m1, Memory.wf_write _ _ m2, Memory.within_write _ (by omega) m3,
        Memory.within_write _ (by omega) m4⟩

theorem grown_midOk {d : Lzd} {c : Nat} (e : List Byte) (h : d.MidOk) (ha : d.st.phase = .active) (hc : d.Growable c) :
    (d.grown c e).MidOk := by
  have ht := h.table (.inl ha)
  have hg := grown_tableOk e ht hc
  obtain ⟨a, b, c', d'⟩ := grown_memories (c := c) e ht h.pfx_wf h.sfx_wf h.pfx_in h.sfx_in
  refine ⟨hg.next_hi, hg.w_hi, a, b, c', d', fun _ => hg, ?_, ?_⟩
  · simpa using h.bits
  · simp [ha]

theorem afterSymbol_midOk {d : Lzd} (c : Nat) (h : d.MidOk) (ha : d.st.phase = .active) : (d.afterSymbol c).MidOk := by
  have ht := h.table (.inl ha)
  unfold Lzd.afterSymbol
  split
  · next hc => exact grown_midOk _ h ha (.inl (classify_lit hc))
  · have hcl := cleared_tableOk ht.cs_lo ht.cs_hi
    refine ⟨hcl.next_hi, hcl.w_hi, h.pfx_wf, h.sfx_wf, h.pfx_in, h.sfx_in, fun _ => hcl, h.bits, ?_⟩
    simp [Lzd.cleared, ha]
  · refine ⟨h.next, h.w, h.pfx_wf, h.sfx_wf, h.pfx_in, h.sfx_in, fun _ => ?_, ?_, fun _ => ⟨?_, ?_⟩⟩
    · exact ⟨ht.cs_lo, ht.cs_hi, ht.w_lo, ht.w_hi, ht.next_lo, ht.next_hi, ht.w_next, ht.next_w, ht.full, ht.prev,
        ht.prev_is, ht.chain⟩
    · simp [Lzd.ended]
    · have := ht.w_lo
      simp only [Lzd.ended, BitVec.toNat_ofNat]; omega
    · simp [Lzd.ended]
  · next hc => exact grown_midOk _ h ha (.inr (.inl (classify_dict hc)))
  · next p hc =>
    obtain ⟨hp, hn, hlt⟩ := classify_kwk hc
    exact grown_midOk _ h ha (.inr (.inr ⟨hlt, hn, by simp [hp]⟩))
  · exact ⟨h.next, h.w, h.pfx_wf, h.sfx_wf, h.pfx_in, h.sfx_in, by simp, by simp, by simp⟩

theorem codeTaken_midOk {d : Lzd} (h : d.MidOk) (hc : d.hasCode = true) :
    d.codeTaken.MidOk ∧ d.codeTaken.st.phase = .active ∧ d.codeTaken.nbits.toNat + 3 ≤ d.nbits.toNat := by
  simp only [Lzd.hasCode, Bool.and_eq_true, decide_eq_true_eq] at hc
  obtain ⟨ha, hw⟩ := hc
  have ht := h.table (.inl ha)
  obtain ⟨hacc, hnb⟩ := h.bits ha
  have w_lo := ht.w_lo
  have cs_lo := ht.cs_lo
  have hn : (BitVec.ofNat 5 (d.nbits.toNat - d.w.toNat)).toNat = d.nbits.toNat - d.w.toNat :=
    toNat_ofNat_of_lt (by omega)
  have hdiv : d.acc.toNat / 2 ^ d.w.toNat < 2 ^ (d.nbits.toNat - d.w.toNat) := by
    rw [Nat.div_lt_iff_lt_mul (Nat.two_pow_pos _), ← Nat.pow_add]
    simpa [Nat.sub_add_cancel hw] using hacc
  have hac : (BitVec.ofNat 32 (d.acc.toNat / 2 ^ d.w.toNat)).toNat = d.acc.toNat / 2 ^ d.w.toNat :=
    toNat_ofNat_of_lt (lt_of_le_of_lt (Nat.div_le_self _ _) d.acc.isLt)
  refine ⟨⟨h.next, h.w, h.pfx_wf, h.sfx_wf, h.pfx_in, h.sfx_in, fun _ => ?_, fun _ => ⟨?_, ?_⟩, ?_⟩, ha, ?_⟩
  · exact ⟨ht.cs_lo, ht.cs_hi, ht.w_lo, ht.w_hi, ht.next_lo, ht.next_hi, ht.w_next, ht.next_w, ht.full, ht.prev,
      ht.prev_is, ht.chain⟩
  · simp only [Lzd.codeTaken, hn, hac]; exact hdiv
  · simp only [Lzd.codeTaken, hn]; omega
  · simp [Lzd.codeTaken, ha]
  · simp only [Lzd.codeTaken, hn]; omega

theorem afterSymbol_nbits_le (d : Lzd) (c : Nat) : (d.afterSymbol c).nbits.toNat ≤ d.nbits.toNat := by
  unfold Lzd.afterSymbol
  split <;> simp [Lzd.cleared, Lzd.ended]

/-- The loop of R151 keeps the decoder legal, and `NBITS` rounds are enough: no whole code is left (log 7). -/
theorem run_midOk {d : Lzd} (n : Nat) (h : d.MidOk) (hn : d.nbits.toNat ≤ n) :
    (d.run n).1.MidOk ∧ (d.run n).1.hasCode = false := by
  induction n generalizing d with
  | zero =>
    refine ⟨h, ?_⟩
    simp only [Lzd.run, Lzd.hasCode, Bool.and_eq_false_iff]
    by_cases ha : d.st.phase = .active
    · have h1 := (h.table (.inl ha)).w_lo
      have h2 := (h.table (.inl ha)).cs_lo
      exact .inr (decide_eq_false (by omega))
    · exact .inl (decide_eq_false ha)
  | succ n ih =>
    unfold Lzd.run
    split
    · next hc =>
      obtain ⟨h1, h2, h3⟩ := codeTaken_midOk h hc
      have h4 := afterSymbol_nbits_le d.codeTaken d.nextCode
      exact ih (afterSymbol_midOk _ h1 h2) (by omega)
    · next hc => exact ⟨h, by simpa using hc⟩

theorem midOk_ok {d : Lzd} (h : d.MidOk) (hc : d.hasCode = false) : d.Ok := by
  refine ⟨h.next, h.w, h.pfx_wf, h.sfx_wf, h.pfx_in, h.sfx_in, h.table, ?_⟩
  rintro (ha | hd)
  · simp only [Lzd.hasCode, Bool.and_eq_false_iff, decide_eq_false_iff_not] at hc
    rcases hc with hc | hc
    · exact absurd ha hc
    · exact ⟨by omega, (h.bits ha).1⟩
  · exact h.done hd

theorem byteGiven_midOk {d : Lzd} (b : Byte) (h : d.Ok) (ha : d.st.phase = .active) : (d.byteGiven b).MidOk := by
  have ht := h.table (.inl ha)
  have hb := h.bits (.inl ha)
  have h1 := hb.nbits
  have h2 := ht.w_hi
  have hn : (BitVec.ofNat 5 (d.nbits.toNat + 8)).toNat = d.nbits.toNat + 8 := toNat_ofNat_of_lt (by omega)
  have hlt : d.acc.toNat + b.toNat * 2 ^ d.nbits.toNat < 2 ^ (d.nbits.toNat + 8) := by
    have h3 := hb.acc
    have h4 := b.isLt
    calc d.acc.toNat + b.toNat * 2 ^ d.nbits.toNat < 2 ^ d.nbits.toNat + b.toNat * 2 ^ d.nbits.toNat := by omega
      _ = (b.toNat + 1) * 2 ^ d.nbits.toNat := by ring
      _ ≤ 2 ^ 8 * 2 ^ d.nbits.toNat := Nat.mul_le_mul_right _ (by omega)
      _ = 2 ^ (d.nbits.toNat + 8) := by rw [Nat.pow_add, Nat.mul_comm]
  have hac : (BitVec.ofNat 32 (d.acc.toNat + b.toNat * 2 ^ d.nbits.toNat)).toNat =
      d.acc.toNat + b.toNat * 2 ^ d.nbits.toNat :=
    toNat_ofNat_of_lt (lt_of_lt_of_le hlt (Nat.pow_le_pow_right (by decide) (by omega)))
  refine ⟨h.next, h.w, h.pfx_wf, h.sfx_wf, h.pfx_in, h.sfx_in, fun _ => ?_, fun _ => ⟨?_, ?_⟩, ?_⟩
  · exact ⟨ht.cs_lo, ht.cs_hi, ht.w_lo, ht.w_hi, ht.next_lo, ht.next_hi, ht.w_next, ht.next_w, ht.full, ht.prev,
      ht.prev_is, ht.chain⟩
  · simp only [Lzd.byteGiven, hn, hac]; exact hlt
  · simp only [Lzd.byteGiven, hn]; omega
  · simp [Lzd.byteGiven, ha]

theorem fed_ok {d : Lzd} (b : Byte) (h : d.Ok) (ha : d.st.phase = .active) : (d.fed b).1.Ok := by
  obtain ⟨h1, h2⟩ := run_midOk _ (byteGiven_midOk b h ha) le_rfl
  exact midOk_ok h1 h2

/-- `LZD_FEED` keeps the decoder legal. -/
theorem lzdFeed_ok (b : Byte) {s : State} (h : s.lzd.Ok) : (lzdFeed b s).lzd.Ok := by
  by_cases ha : s.lzd.st.phase = .active
  · rw [lzdFeed_active b ha, lzdEmit_lzd]
    exact fed_ok b h ha
  · unfold lzdFeed
    split
    · exact h
    · exact ⟨h.next, h.w, h.pfx_wf, h.sfx_wf, h.pfx_in, h.sfx_in, by simp, by simp⟩
    · exact h
    · next h' => exact absurd h' ha

theorem codeSizeOk_iff {cs : Byte} : codeSizeOk cs = true ↔ 2 ≤ cs.toNat ∧ cs.toNat ≤ 8 := by
  simp only [codeSizeOk, Bool.and_eq_true]
  exact ⟨fun h => ⟨of_decide_eq_true h.1, of_decide_eq_true h.2⟩, fun h => ⟨decide_eq_true h.1, decide_eq_true h.2⟩⟩

theorem lzdBegin_ok (cs : Byte) {s : State} (h : s.lzd.Ok) : (lzdBegin cs s).lzd.Ok := by
  unfold lzdBegin
  simp only []
  split
  · next hc =>
    obtain ⟨h1, h2⟩ := codeSizeOk_iff.1 hc
    have hcs : (BitVec.ofNat 4 cs.toNat).toNat = cs.toNat := toNat_ofNat_of_lt (by omega)
    have hcl : (s.lzd.begun cs).TableOk := by
      have hk : (s.lzd.begun cs).cs.toNat = cs.toNat := hcs
      have := cleared_tableOk (d := s.lzd.begun cs) (by omega) (by omega)
      have he : (s.lzd.begun cs).cleared = s.lzd.begun cs := by
        simp only [Lzd.cleared, Lzd.eoi, hk]; rfl
      rwa [he] at this
    have hpos : 0 < (s.lzd.begun cs).w.toNat := by have := hcl.w_lo; omega
    refine ⟨hcl.next_hi, hcl.w_hi, h.pfx_wf, h.sfx_wf, h.pfx_in, h.sfx_in, fun _ => hcl, fun _ => ⟨?_, ?_⟩⟩
    · simpa [Lzd.begun] using hpos
    · simp [Lzd.begun]
  · exact ⟨h.next, h.w, h.pfx_wf, h.sfx_wf, h.pfx_in, h.sfx_in, by simp, by simp⟩

theorem ended_ok {d : Lzd} (h : d.Ok) (ha : d.st.phase = .active) : d.ended.Ok := by
  have ht := h.table (.inl ha)
  refine ⟨h.next, h.w, h.pfx_wf, h.sfx_wf, h.pfx_in, h.sfx_in, fun _ => ?_, fun _ => ⟨?_, ?_⟩⟩
  · exact ⟨ht.cs_lo, ht.cs_hi, ht.w_lo, ht.w_hi, ht.next_lo, ht.next_hi, ht.w_next, ht.next_w, ht.full, ht.prev,
      ht.prev_is, ht.chain⟩
  · have := ht.w_lo
    simp only [Lzd.ended, BitVec.toNat_ofNat]; omega
  · simp [Lzd.ended]

@[simp] theorem lzdForwardEnd_lzd (s : State) : (lzdForwardEnd s).lzd = s.lzd := by
  obtain ⟨c, fr, h⟩ := lzdForwardEnd_effect s
  simp [h]

theorem lzdFinish_ok {s : State} (h : s.lzd.Ok) : (lzdFinish s).lzd.Ok := by
  unfold lzdFinish
  split
  · exact h
  · exact ⟨h.next, h.w, h.pfx_wf, h.sfx_wf, h.pfx_in, h.sfx_in, by simp, by simp⟩
  · next ha =>
    split
    · rw [lzdForwardEnd_lzd]; exact ended_ok h ha
    · exact ⟨h.next, h.w, h.pfx_wf, h.sfx_wf, h.pfx_in, h.sfx_in, by simp, by simp⟩
  · rw [lzdForwardEnd_lzd]; exact h

theorem Lzd.reset_ok : Lzd.reset.Ok := by
  refine ⟨by simp [Lzd.reset], by simp [Lzd.reset], rfl, rfl, rfl, rfl, ?_, ?_⟩ <;> simp [Lzd.reset, UnitStatus.reset]

end Sys2Proof.Machine
end

