-- ==== Sys2Proof/Laws/Cmp.lean ====
section
/-! SUPPORT. The compositor: that its commands keep R37 to R42. -/

namespace Sys2Proof.Machine

theorem imageArea_lt (c : Cmp) : c.imageArea < 2 ^ 32 := by
  have h1 := c.imgW.isLt
  have h2 := c.imgH.isLt
  have h3 : c.imgW.toNat * c.imgH.toNat ≤ (2 ^ 16 - 1) * (2 ^ 16 - 1) := Nat.mul_le_mul (by omega) (by omega)
  unfold Cmp.imageArea
  omega

/-- A pixel on the canvas has an entry of the canvas (R37). -/
theorem pixelIndex_lt {c : Cmp} {x y : Nat} (h : c.onCanvas x y = true) : c.pixelIndex x y < c.canvasSize := by
  simp only [Cmp.onCanvas, Bool.and_eq_true, decide_eq_true_eq] at h
  unfold Cmp.pixelIndex Cmp.canvasSize
  calc y * c.screenW.toNat + x < y * c.screenW.toNat + c.screenW.toNat := by omega
    _ = (y + 1) * c.screenW.toNat := by ring
    _ ≤ c.screenH.toNat * c.screenW.toNat := Nat.mul_le_mul_right _ (by omega)
    _ = c.screenW.toNat * c.screenH.toNat := Nat.mul_comm _ _

/-- A new status keeps the compositor legal, if it is not ACTIVE. -/
theorem Cmp.Ok.withStatus {cap : Nat} {c : Cmp} (h : c.Ok cap) (st : UnitStatus) (hst : st.phase ≠ .active) :
    ({ c with st := st } : Cmp).Ok cap :=
  ⟨h.canvas_wf, h.canvas_in, h.canvas_cap, h.gct_wf, h.lct_wf, h.gct_in, h.lct_in, h.gct_size, h.lct_size, h.gce, h.pixels,
    fun ha => absurd ha hst⟩

theorem emitFrame_ok {cap : Nat} {s : State} (h1 : Memory.wf transparent s.cmp.canvas = true)
    (h2 : Memory.within s.cmp.canvasSize s.cmp.canvas = true) (h3 : s.cmp.canvasSize ≤ cap)
    (h4 : Memory.wf black s.cmp.gct = true) (h5 : Memory.wf black s.cmp.lct = true)
    (h6 : Memory.within 256 s.cmp.gct = true) (h7 : Memory.within 256 s.cmp.lct = true)
    (h8 : s.cmp.gctSize.toNat ≤ 256) (h9 : s.cmp.lctSize.toNat ≤ 256) (h10 : s.cmp.pixCount.toNat ≤ s.cmp.imageArea) :
    (emitFrame s).cmp.Ok cap :=
  ⟨h1, h2, h3, h4, h5, h6, h7, h8, h9, fun _ => rfl, h10, by simp [emitFrame]⟩

theorem emitFrame_ok' {cap : Nat} {s : State} (h : s.cmp.Ok cap) : (emitFrame s).cmp.Ok cap :=
  emitFrame_ok h.canvas_wf h.canvas_in h.canvas_cap h.gct_wf h.lct_wf h.gct_in h.lct_in h.gct_size h.lct_size h.pixels

theorem cmpScreen_ok (w h : BitVec 16) {s : State} (hc : s.cmp.Ok s.canvasCap.toNat) :
    (cmpScreen w h s).cmp.Ok s.canvasCap.toNat := by
  unfold cmpScreen
  simp only []
  split
  · exact hc.withStatus _ (by simp)
  · next hcap =>
    refine ⟨rfl, rfl, ?_, hc.gct_wf, hc.lct_wf, hc.gct_in, hc.lct_in, ?_, ?_, fun _ => rfl, ?_, ?_⟩
    · show w.toNat * h.toNat ≤ _; omega
    · simp [Cmp.screened]
    · simp [Cmp.screened]
    · simp [Cmp.screened]
    · simp [Cmp.screened, UnitStatus.reset]

theorem cmpCtSize_ok (t : Table) (n : BitVec 9) (hn : n.toNat ≤ 256) {cap : Nat} {s : State} (hc : s.cmp.Ok cap) :
    (cmpCtSize t n s).cmp.Ok cap := by
  unfold cmpCtSize whenIdle
  split
  · exact hc
  · exact hc.withStatus _ (by simp)
  · exact hc.withStatus _ (by simp)
  · cases t
    · exact ⟨hc.canvas_wf, hc.canvas_in, hc.canvas_cap, hc.gct_wf, hc.lct_wf, hc.gct_in, hc.lct_in, hn, hc.lct_size, hc.gce,
        hc.pixels, hc.active⟩
    · exact ⟨hc.canvas_wf, hc.canvas_in, hc.canvas_cap, hc.gct_wf, hc.lct_wf, hc.gct_in, hc.lct_in, hc.gct_size, hn, hc.gce,
        hc.pixels, hc.active⟩

theorem cmpCtWrite_ok (t : Table) (i r g bl : Byte) {cap : Nat} {s : State} (hc : s.cmp.Ok cap) :
    (cmpCtWrite t i r g bl s).cmp.Ok cap := by
  unfold cmpCtWrite whenIdle
  split
  · exact hc
  · exact hc.withStatus _ (by simp)
  · exact hc.withStatus _ (by simp)
  · cases t
    · exact ⟨hc.canvas_wf, hc.canvas_in, hc.canvas_cap, Memory.wf_write _ _ hc.gct_wf, hc.lct_wf,
        Memory.within_write _ (by omega) hc.gct_in, hc.lct_in, hc.gct_size, hc.lct_size, hc.gce, hc.pixels, hc.active⟩
    · exact ⟨hc.canvas_wf, hc.canvas_in, hc.canvas_cap, hc.gct_wf, Memory.wf_write _ _ hc.lct_wf, hc.gct_in,
        Memory.within_write _ (by omega) hc.lct_in, hc.gct_size, hc.lct_size, hc.gce, hc.pixels, hc.active⟩

theorem cmpGce_ok (d : BitVec 3) (u f : Bool) (ti : Byte) (dl : BitVec 16) {cap : Nat} {s : State} (hc : s.cmp.Ok cap) :
    (cmpGce d u f ti dl s).cmp.Ok cap := by
  unfold cmpGce whenIdle
  split
  · exact hc
  · exact hc.withStatus _ (by simp)
  · exact hc.withStatus _ (by simp)
  · exact ⟨hc.canvas_wf, hc.canvas_in, hc.canvas_cap, hc.gct_wf, hc.lct_wf, hc.gct_in, hc.lct_in, hc.gct_size, hc.lct_size,
      by simp, hc.pixels, hc.active⟩

theorem cmpImagePos_ok (left top : BitVec 16) {cap : Nat} {s : State} (hc : s.cmp.Ok cap) :
    (cmpImagePos left top s).cmp.Ok cap := by
  unfold cmpImagePos whenIdle
  split
  · exact hc
  · exact hc.withStatus _ (by simp)
  · exact hc.withStatus _ (by simp)
  · exact ⟨hc.canvas_wf, hc.canvas_in, hc.canvas_cap, hc.gct_wf, hc.lct_wf, hc.gct_in, hc.lct_in, hc.gct_size, hc.lct_size,
      hc.gce, hc.pixels, hc.active⟩

theorem cmpImageBegin_ok (l : Bool) (w h : BitVec 16) {cap : Nat} {s : State} (hc : s.cmp.Ok cap) :
    (cmpImageBegin l w h s).cmp.Ok cap := by
  unfold cmpImageBegin
  split
  · exact hc
  · exact hc.withStatus _ (by simp)
  · exact hc.withStatus _ (by simp)
  · simp only []
    split
    · exact emitFrame_ok hc.canvas_wf hc.canvas_in hc.canvas_cap hc.gct_wf hc.lct_wf hc.gct_in hc.lct_in hc.gct_size
        hc.lct_size (by simp [Cmp.imageBegun])
    · next hz =>
      exact ⟨hc.canvas_wf, hc.canvas_in, hc.canvas_cap, hc.gct_wf, hc.lct_wf, hc.gct_in, hc.lct_in, hc.gct_size,
        hc.lct_size, hc.gce, by simp [Cmp.imageBegun], fun _ => Nat.pos_of_ne_zero hz⟩

theorem composited_ok {cap : Nat} {c : Cmp} (idx : Byte) (hc : c.Ok cap) :
    Memory.wf transparent (c.composited idx) = true ∧ Memory.within c.canvasSize (c.composited idx) = true := by
  unfold Cmp.composited
  simp only []
  split
  · exact ⟨hc.canvas_wf, hc.canvas_in⟩
  · split
    · next h => exact ⟨Memory.wf_write _ _ hc.canvas_wf, Memory.within_write _ (pixelIndex_lt h) hc.canvas_in⟩
    · exact ⟨hc.canvas_wf, hc.canvas_in⟩

theorem cmpPixel_ok (idx : Byte) {cap : Nat} {s : State} (hc : s.cmp.Ok cap) : (cmpPixel idx s).cmp.Ok cap := by
  unfold cmpPixel
  split
  · exact hc
  · exact hc.withStatus _ (by simp)
  · exact hc
  · next ha =>
    have h1 := hc.active ha
    have h2 := imageArea_lt s.cmp
    have h3 : (s.cmp.pixelTaken idx).pixCount.toNat = s.cmp.pixCount.toNat + 1 := toNat_ofNat_of_lt (by omega)
    obtain ⟨h4, h5⟩ := composited_ok idx hc
    unfold emitWhenFilled
    split
    · exact emitFrame_ok h4 h5 hc.canvas_cap hc.gct_wf hc.lct_wf hc.gct_in hc.lct_in hc.gct_size hc.lct_size
        (by rw [State.setCmp_cmp, h3]; exact h1)
    · next hf =>
      refine ⟨h4, h5, hc.canvas_cap, hc.gct_wf, hc.lct_wf, hc.gct_in, hc.lct_in, hc.gct_size, hc.lct_size, hc.gce,
        (by rw [State.setCmp_cmp, h3]; exact h1), fun _ => ?_⟩
      have h6 : ¬ (s.cmp.pixelTaken idx).pixCount.toNat = (s.cmp.pixelTaken idx).imageArea := fun h => hf (decide_eq_true h)
      have h7 : (s.cmp.pixelTaken idx).imageArea = s.cmp.imageArea := rfl
      rw [State.setCmp_cmp]
      omega

theorem cmpImageEnd_ok {cap : Nat} {s : State} (hc : s.cmp.Ok cap) : (cmpImageEnd s).cmp.Ok cap := by
  unfold cmpImageEnd
  split
  · exact hc
  · exact hc.withStatus _ (by simp)
  · split
    · exact (emitFrame_ok' hc).withStatus _ (by simp)
    · exact hc.withStatus _ (by simp)
  · exact hc.withStatus _ (by simp)

theorem cmpFinish_ok {cap : Nat} {s : State} (hc : s.cmp.Ok cap) : (cmpFinish s).cmp.Ok cap := by
  unfold cmpFinish
  split
  · exact hc
  · exact hc.withStatus _ (by simp)
  · exact hc.withStatus _ (by simp)
  · exact hc

end Sys2Proof.Machine
end

