-- ==== Sys2Proof/Laws/Lze.lean ====
section
/-! SUPPORT. The encoder: what `EmitCode` does as a function of the encoder alone, and that the commands keep R35. -/

namespace Sys2Proof.Machine

/-! ## Emission (R196) -/

/-- `OutByte` of each byte in order (R196). -/
def lzeEmit (xs : List Byte) (s : State) : State := xs.foldl (fun t x => lzeOutByte x t) s

@[simp] theorem lzeEmit_nil (s : State) : lzeEmit [] s = s := rfl

theorem lzeEmit_cons (x : Byte) (xs : List Byte) (s : State) : lzeEmit (x :: xs) s = lzeEmit xs (lzeOutByte x s) := rfl

theorem lzeEmit_append (xs ys : List Byte) (s : State) : lzeEmit (xs ++ ys) s = lzeEmit ys (lzeEmit xs s) := by
  simp [lzeEmit, List.foldl_append]

theorem sbfPut_setLze (x : Byte) (s : State) (e : Lze) : sbfPut x (s.setLze e) = (sbfPut x s).setLze e := by
  by_cases h : (s.sbf.pushed x).fill.toNat = Config.subblockMax <;> cases hp : s.sbf.st.phase <;>
    simp [sbfPut, hp, h, State.setSbf, State.setLze, State.setOut]

theorem lzeOutByte_setLze (x : Byte) (s : State) (e : Lze) : lzeOutByte x (s.setLze e) = (lzeOutByte x s).setLze e := by
  unfold lzeOutByte
  simp only [lzeToSbf_setLze, sbfPut_setLze]
  split <;> rfl

/-- Emission and a write of the encoder commute. -/
theorem lzeEmit_setLze (xs : List Byte) (s : State) (e : Lze) : lzeEmit xs (s.setLze e) = (lzeEmit xs s).setLze e := by
  induction xs generalizing s with
  | nil => rfl
  | cons x xs ih => rw [lzeEmit_cons, lzeEmit_cons, lzeOutByte_setLze, ih]

/-- Emission does not touch the encoder (R196, R308). -/
@[simp] theorem lzeEmit_lze (xs : List Byte) (s : State) : (lzeEmit xs s).lze = s.lze := by
  induction xs generalizing s with
  | nil => rfl
  | cons x xs ih => rw [lzeEmit_cons, ih, lzeOutByte_lze]

theorem lzeEmit_effect (xs : List Byte) (s : State) : LzeEffect s (lzeEmit xs s) := by
  induction xs generalizing s with
  | nil => exact .refl s
  | cons x xs ih => exact (lzeOutByte_effect x s).trans (ih _)

/-- With the route off, emission appends to `LZE_OUT` (R196). -/
theorem lzeEmit_off (xs : List Byte) {s : State} (h : lzeToSbf s = false) :
    lzeEmit xs s = s.setOut { s.out with lzeOut := s.out.lzeOut ++ xs } := by
  induction xs generalizing s with
  | nil => simp; rfl
  | cons x xs ih =>
    rw [lzeEmit_cons, ih (by simp [lzeOutByte, h])]
    simp [lzeOutByte, h, State.setOut]

/-- With the route on, emission is a sequence of forwarded `SBF_PUT` commands (R200, R78). -/
theorem lzeEmit_on (xs : List Byte) {s : State} (h : lzeToSbf s = true) :
    lzeEmit xs s = xs.foldl (fun t x => sbfPut x t) s := by
  induction xs generalizing s with
  | nil => rfl
  | cons x xs ih =>
    have hx : lzeOutByte x s = sbfPut x s := by simp [lzeOutByte, h]
    obtain ⟨c, fr, hc⟩ := sbfPut_effect x s
    rw [lzeEmit_cons, List.foldl_cons, hx, ih (by rw [hc]; simp [h])]

/-- The encoder with the low byte of the accumulator taken (R196). -/
def Lze.byteTaken (e : Lze) : Lze :=
  { e with acc := BitVec.ofNat 32 (e.acc.toNat / 2 ^ 8), nbits := BitVec.ofNat 5 (e.nbits.toNat - 8) }

/-- The loop of R196, as a function of the encoder alone. -/
def Lze.flushed : Nat → Lze → Lze × List Byte
  | 0, e => (e, [])
  | n + 1, e => ((e.byteTaken.flushed n).1, BitVec.ofNat 8 (e.acc.toNat % 2 ^ 8) :: (e.byteTaken.flushed n).2)

theorem lzeFlushBytes_eq (n : Nat) (s : State) :
    lzeFlushBytes n s = lzeEmit (s.lze.flushed n).2 (s.setLze (s.lze.flushed n).1) := by
  induction n generalizing s with
  | zero => rfl
  | succ n ih =>
    unfold lzeFlushBytes
    simp only [lzeOutByte_lze, Lze.flushed, lzeEmit_cons, lzeEmit_setLze]
    rw [ih]
    simp [lzeEmit_setLze, Lze.byteTaken]

/-- The encoder with the `W` bits of `c` above the bits it holds (R196). -/
def Lze.codeGiven (e : Lze) (c : Nat) : Lze :=
  { e with acc := BitVec.ofNat 32 (e.acc.toNat + c * 2 ^ e.nbits.toNat),
           nbits := BitVec.ofNat 5 (e.nbits.toNat + e.w.toNat) }

/-- `EmitCode(c)`, as a function of the encoder alone: the encoder after it, and the bytes that go out. -/
def Lze.codeOut (e : Lze) (c : Nat) : Lze × List Byte :=
  (e.codeGiven c).flushed ((e.codeGiven c).nbits.toNat / 8)

theorem emitCode_eq (c : Nat) (s : State) :
    emitCode c s = lzeEmit (s.lze.codeOut c).2 (s.setLze (s.lze.codeOut c).1) := by
  unfold emitCode
  rw [lzeFlushBytes_eq]
  simp [lzeEmit_setLze, Lze.codeOut, Lze.codeGiven]

@[simp] theorem emitCode_lze (c : Nat) (s : State) : (emitCode c s).lze = (s.lze.codeOut c).1 := by
  simp [emitCode_eq]

/-- The loop of R196 writes the bit accumulator and nothing else of the encoder. -/
theorem flushed_eq (n : Nat) (e : Lze) :
    (e.flushed n).1 = { e with acc := (e.flushed n).1.acc, nbits := (e.flushed n).1.nbits } := by
  induction n generalizing e with
  | zero => rfl
  | succ n ih =>
    conv_lhs => rw [Lze.flushed]
    conv_lhs => rw [ih]
    rfl

theorem flushed_spec (n : Nat) {e : Lze} (h : 8 * n ≤ e.nbits.toNat) :
    (e.flushed n).1.nbits.toNat = e.nbits.toNat - 8 * n ∧
    (e.flushed n).1.acc.toNat = e.acc.toNat / 2 ^ (8 * n) ∧
    (e.flushed n).2.length = n ∧ bytesValue (e.flushed n).2 = e.acc.toNat % 2 ^ (8 * n) := by
  induction n generalizing e with
  | zero => simp [Lze.flushed, bytesValue, Nat.mod_one]
  | succ n ih =>
    have hn : e.byteTaken.nbits.toNat = e.nbits.toNat - 8 := toNat_ofNat_of_lt (by omega)
    have ha : e.byteTaken.acc.toNat = e.acc.toNat / 2 ^ 8 :=
      toNat_ofNat_of_lt (lt_of_le_of_lt (Nat.div_le_self _ _) e.acc.isLt)
    obtain ⟨h1, h2, h3, h4⟩ := ih (e := e.byteTaken) (by omega)
    simp only [Lze.flushed, bytesValue, List.length_cons]
    refine ⟨by omega, ?_, by omega, ?_⟩
    · rw [h2, ha, Nat.div_div_eq_div_mul, ← Nat.pow_add]
      congr 2; omega
    · rw [h4, ha, toNat_ofNat_of_lt (Nat.mod_lt _ (by decide))]
      have hp : 2 ^ (8 * (n + 1)) = 2 ^ 8 * 2 ^ (8 * n) := by rw [← Nat.pow_add]; congr 1; omega
      rw [hp, Nat.mod_mul]

/-- `EmitCode` writes the bit accumulator and nothing else of the encoder (R196). -/
theorem codeOut_eq (e : Lze) (c : Nat) :
    (e.codeOut c).1 = { e with acc := (e.codeOut c).1.acc, nbits := (e.codeOut c).1.nbits } := by
  unfold Lze.codeOut
  conv_lhs => rw [flushed_eq]
  rfl

/-- `EmitCode(c)` (R196) when at most 7 bits are held: the bits held and the code's `W` bits above them are one number;
its full bytes go out, lowest first, and the rest stays. -/
theorem codeOut_spec {e : Lze} {c : Nat} (hn : e.nbits.toNat < 8) (ha : e.acc.toNat < 2 ^ e.nbits.toNat)
    (hw : e.w.toNat ≤ 12) (hc : c < 2 ^ e.w.toNat) :
    (e.codeOut c).1.nbits.toNat = (e.nbits.toNat + e.w.toNat) % 8 ∧
    (e.codeOut c).1.acc.toNat < 2 ^ (e.codeOut c).1.nbits.toNat ∧
    (e.codeOut c).2.length = (e.nbits.toNat + e.w.toNat) / 8 ∧
    bytesValue (e.codeOut c).2 + 2 ^ (8 * (e.codeOut c).2.length) * (e.codeOut c).1.acc.toNat =
      e.acc.toNat + c * 2 ^ e.nbits.toNat := by
  have hlt : e.acc.toNat + c * 2 ^ e.nbits.toNat < 2 ^ (e.nbits.toNat + e.w.toNat) := by
    calc e.acc.toNat + c * 2 ^ e.nbits.toNat < 2 ^ e.nbits.toNat + c * 2 ^ e.nbits.toNat := by omega
      _ = (c + 1) * 2 ^ e.nbits.toNat := by ring
      _ ≤ 2 ^ e.w.toNat * 2 ^ e.nbits.toNat := Nat.mul_le_mul_right _ (by omega)
      _ = 2 ^ (e.nbits.toNat + e.w.toNat) := by rw [Nat.pow_add, Nat.mul_comm]
  have gn : (e.codeGiven c).nbits.toNat = e.nbits.toNat + e.w.toNat := toNat_ofNat_of_lt (by omega)
  have ga : (e.codeGiven c).acc.toNat = e.acc.toNat + c * 2 ^ e.nbits.toNat :=
    toNat_ofNat_of_lt (lt_of_lt_of_le hlt (Nat.pow_le_pow_right (by decide) (by omega)))
  obtain ⟨h1, h2, h3, h4⟩ := flushed_spec ((e.codeGiven c).nbits.toNat / 8) (e := e.codeGiven c) (by omega)
  rw [gn] at h1 h2 h3 h4
  rw [ga] at h2 h4
  unfold Lze.codeOut
  rw [gn]
  refine ⟨by omega, ?_, h3, ?_⟩
  · rw [h2, h1, Nat.div_lt_iff_lt_mul (Nat.two_pow_pos _), ← Nat.pow_add]
    rwa [Nat.sub_add_cancel (by omega)]
  · rw [h2, h3, h4, Nat.mod_add_div]

/-- The emission the statements write is the machine's (R196). -/
theorem lzeEmitted_eq (xs : List Byte) (s : State) : lzeEmitted xs s = lzeEmit xs s := by
  unfold lzeEmitted
  split
  · next h => rw [lzeEmit_on xs (show lzeToSbf s = true from h)]
  · next h => rw [lzeEmit_off xs (show lzeToSbf s = false from by simpa [lzeToSbf] using h)]; rfl

/-- What `EmitCode(c)` does when at most 7 bits are held and the code fits the width (R196). -/
theorem emitCode_codeWritten {s : State} {c : Nat} (hn : s.lze.nbits.toNat < 8)
    (ha : s.lze.acc.toNat < 2 ^ s.lze.nbits.toNat) (hw : s.lze.w.toNat ≤ 12) (hc : c < 2 ^ s.lze.w.toNat) :
    CodeWritten c s (emitCode c s) := by
  obtain ⟨h1, h2, h3, h4⟩ := codeOut_spec hn ha hw hc
  refine ⟨(s.lze.codeOut c).2, (s.lze.codeOut c).1.acc, (s.lze.codeOut c).1.nbits, ?_, h3, h1, h2, h4⟩
  rw [lzeEmitted_eq, emitCode_eq]
  conv_lhs => rw [codeOut_eq]
  rfl

/-- An inserted mapping answers for its own key and for no other (R206). -/
theorem hashLookup_hashInsert (ht : Mem Code) (p q : Code) (b x : Byte) (c : Code) :
    hashLookup (hashInsert ht p b c) q x = if q = p ∧ x = b then some c else hashLookup ht q x := by
  unfold hashLookup hashInsert hashKey
  rw [Memory.find?_insert]
  have : (p.toNat * 256 + b.toNat = q.toNat * 256 + x.toNat) ↔ (q = p ∧ x = b) := by
    constructor
    · intro h; exact ⟨BitVec.eq_of_toNat_eq (by omega), BitVec.eq_of_toNat_eq (by omega)⟩
    · rintro ⟨rfl, rfl⟩; rfl
  simp only [this]

/-! ## The encoder stays legal -/

theorem insert_perm_of_absent {α : Type} {m : Mem α} {i : Nat} (v : α) (h : Memory.find? m i = none) :
    (Memory.insert m i v).Perm ((i, v) :: m) := by
  induction m with
  | nil => exact .refl _
  | cons e m ih =>
    obtain ⟨k, x⟩ := e
    unfold Memory.find? at h
    split at h
    · simp at h
    · next hk =>
      unfold Memory.insert
      split
      · exact .refl _
      · exact ((ih h).cons _).trans (.swap _ _ _)

/-- What `EmitCode` keeps of R35. -/
theorem codeOut_streamOk {e : Lze} {c : Nat} (h : e.StreamOk) (hc : c < 2 ^ e.w.toNat) : (e.codeOut c).1.StreamOk := by
  obtain ⟨h1, h2, -, -⟩ := codeOut_spec h.nbits h.acc h.w_hi hc
  rw [codeOut_eq]
  exact ⟨h.cs_lo, h.cs_hi, h.w_lo, h.w_hi, h.next_lo, h.next_hi, h.w_next, h.next_w, by simp only; omega, h2, h.pend, h.pend_is,
    h.codes, h.distinct⟩

theorem lt_two_pow_w {e : Lze} (h : e.StreamOk) {c : Nat} (hc : isDataCode e.cs.toNat (e.next.toNat + 1) c) :
    c < 2 ^ e.w.toNat := by
  have h1 := h.next_w
  have h2 := h.next_lo
  rcases hc with hc | hc
  · have h3 : e.eoi = clearCode e.cs.toNat + 1 := rfl
    omega
  · omega

/-- LZE started for a legal code size satisfies R35. -/
theorem begun_streamOk (e : Lze) {cs : Byte} (h1 : 2 ≤ cs.toNat) (h2 : cs.toNat ≤ 8) : (e.begun cs).StreamOk := by
  have hp : 2 ^ cs.toNat ≤ 2 ^ 8 := Nat.pow_le_pow_right (by decide) h2
  have hp2 : 2 ^ 2 ≤ 2 ^ cs.toNat := Nat.pow_le_pow_right (by decide) h1
  have hcs : (e.begun cs).cs.toNat = cs.toNat := toNat_ofNat_of_lt (by omega)
  have hn : (e.begun cs).next.toNat = 2 ^ cs.toNat + 1 := toNat_ofNat_of_lt (by simp only [endCode]; omega)
  have hw : (e.begun cs).w.toNat = cs.toNat + 1 := toNat_ofNat_of_lt (by omega)
  have he : (e.begun cs).eoi = 2 ^ cs.toNat + 1 := by simp only [Lze.eoi, hcs, endCode]
  constructor
  · omega
  · omega
  · omega
  · omega
  · omega
  · omega
  · rw [hw, hn, Nat.add_sub_cancel]; omega
  · rw [hw, hn, Nat.pow_succ]; omega
  · simp [Lze.begun]
  · simp [Lze.begun]
  · intro _; exact ⟨by omega, rfl⟩
  · simp [Lze.begun]
  · simp [Lze.begun, hashClear]
  · simp [Lze.begun, hashClear]

/-- The registration of a miss keeps R35, where the emission has advanced `NEXT` and no ceiling is reached; the pending code is
then set to a literal (R194). -/
theorem registered_streamOk {e : Lze} {p : Code} {b : Byte} (h : e.StreamOk) (hp : e.pend = some p)
    (hb : b.toNat < e.clear) (hl : hashLookup e.ht p b = none)
    (hcap : ¬ (e.next.toNat + 1 = 2 ^ e.w.toNat ∧ e.w.toNat = 12)) :
    { (e.advanced.registered p b) with pend := some (b.setWidth 12) : Lze }.StreamOk := by
  have hpd := h.pend_is p hp
  have hnw := h.next_w
  have hw := two_pow_le_4096 h.w_hi
  have w_lo := h.w_lo
  have w_hi := h.w_hi
  have w_next := h.w_next
  have next_lo := h.next_lo
  have next_hi := h.next_hi
  have hcl : e.eoi = clearCode e.cs.toNat + 1 := rfl
  have hbw : (b.setWidth 12).toNat = b.toNat := by simp only [BitVec.toNat_setWidth]; omega
  have hn : (BitVec.ofNat 13 (e.next.toNat + 1)).toNat = e.next.toNat + 1 := toNat_ofNat_of_lt (by omega)
  have hc : (BitVec.ofNat 12 (e.next.toNat + 1)).toNat = e.next.toNat + 1 := by
    apply toNat_ofNat_of_lt
    rcases Nat.lt_or_ge (e.next.toNat + 1) 4096 with h4 | h4
    · exact h4
    · exfalso
      apply hcap
      have h12 : e.w.toNat = 12 := by
        by_contra hne
        have : 2 ^ e.w.toNat ≤ 2 ^ 11 := Nat.pow_le_pow_right (by decide) (by omega)
        omega
      exact ⟨by rw [h12] at hnw ⊢; omega, h12⟩
  have hcodes : ∀ m ∈ hashInsert e.ht p b (BitVec.ofNat 12 (e.next.toNat + 1)),
      e.eoi < m.2.toNat ∧ m.2.toNat ≤ e.next.toNat + 1 ∧ isDataCode e.cs.toNat m.2.toNat (m.1 / 256) ∧
        m.1 % 256 < e.clear := by
    intro m hm
    rcases Memory.mem_insert hm with rfl | hm
    · have h1 : (p.toNat * 256 + b.toNat) / 256 = p.toNat := by omega
      have h2 : (p.toNat * 256 + b.toNat) % 256 = b.toNat := by omega
      simp only [hashKey, hc, h1, h2]
      exact ⟨by omega, le_refl _, hpd, hb⟩
    · obtain ⟨h1, h2, h3, h4⟩ := h.codes m hm
      exact ⟨h1, by omega, h3, h4⟩
  have hdist : ((hashInsert e.ht p b (BitVec.ofNat 12 (e.next.toNat + 1))).map (fun m => m.2)).Nodup := by
    have hperm : (hashInsert e.ht p b (BitVec.ofNat 12 (e.next.toNat + 1))).Perm _ := insert_perm_of_absent _ hl
    rw [(hperm.map _).nodup_iff]
    simp only [List.map_cons, List.nodup_cons]
    refine ⟨?_, h.distinct⟩
    simp only [List.mem_map, not_exists, not_and]
    intro m hm heq
    have := (h.codes m hm).2.1
    rw [heq, hc] at this
    omega
  have heoi : e.eoi = endCode e.cs.toNat := rfl
  have hlt : e.clear < 2 ^ 12 ∨ True := .inr trivial
  have hpend : ∀ q, some (b.setWidth 12) = some q → isDataCode e.cs.toNat (e.next.toNat + 1 + 1) q.toNat := by
    intro q hq
    simp only [Option.some.injEq] at hq
    subst hq
    rw [hbw]
    exact .inl hb
  unfold Lze.registered
  simp only [Lze.atThreshold, Lze.advanced, hn, decide_eq_true_eq]
  split
  · next ht =>
    have h12 : e.w.toNat < 12 := by omega
    have hww : (BitVec.ofNat 4 (e.w.toNat + 1)).toNat = e.w.toNat + 1 := toNat_ofNat_of_lt (by omega)
    have hp12 : 2 ^ e.w.toNat ≤ 2 ^ 11 := Nat.pow_le_pow_right (by decide) (by omega)
    constructor <;> simp only [Lze.widened, hn, hww]
    · exact h.cs_lo
    · exact h.cs_hi
    · omega
    · omega
    · show e.eoi ≤ _; omega
    · omega
    · rw [Nat.add_sub_cancel]; omega
    · rw [Nat.pow_succ]; omega
    · exact h.nbits
    · exact h.acc
    · simp
    · exact hpend
    · exact hcodes
    · exact hdist
  · next ht =>
    constructor <;> simp only [hn]
    · exact h.cs_lo
    · exact h.cs_hi
    · omega
    · omega
    · show e.eoi ≤ _; omega
    · by_contra h4
      have h12 : e.w.toNat = 12 := by
        by_contra hne
        have : 2 ^ e.w.toNat ≤ 2 ^ 11 := Nat.pow_le_pow_right (by decide) (by omega)
        omega
      rw [h12] at ht hnw
      omega
    · omega
    · omega
    · exact h.nbits
    · exact h.acc
    · simp
    · exact hpend
    · exact hcodes
    · exact hdist

/-- The encoder right after `Ceiling()` (R195) and the new pending literal. -/
theorem ceiling_streamOk {e : Lze} {b : Byte} (h1 : 2 ≤ e.cs.toNat) (h2 : e.cs.toNat ≤ 8) (hn : e.nbits.toNat < 8)
    (ha : e.acc.toNat < 2 ^ e.nbits.toNat) (hb : b.toNat < e.clear) :
    { e with w := BitVec.ofNat 4 (e.cs.toNat + 1), next := BitVec.ofNat 13 e.eoi, ht := hashClear,
             pend := some (b.setWidth 12) : Lze }.StreamOk := by
  have hp : 2 ^ e.cs.toNat ≤ 2 ^ 8 := Nat.pow_le_pow_right (by decide) h2
  have hp2 : 2 ^ 2 ≤ 2 ^ e.cs.toNat := Nat.pow_le_pow_right (by decide) h1
  have he : e.eoi = 2 ^ e.cs.toNat + 1 := rfl
  have hnx : (BitVec.ofNat 13 e.eoi).toNat = e.eoi := toNat_ofNat_of_lt (by omega)
  have hw : (BitVec.ofNat 4 (e.cs.toNat + 1)).toNat = e.cs.toNat + 1 := toNat_ofNat_of_lt (by omega)
  have hbw : (b.setWidth 12).toNat = b.toNat := by simp only [BitVec.toNat_setWidth]; omega
  constructor <;> simp only [hnx, hw]
  · exact h1
  · exact h2
  · omega
  · omega
  · exact le_refl _
  · omega
  · rw [Nat.add_sub_cancel]; omega
  · rw [Nat.pow_succ]; omega
  · exact hn
  · exact ha
  · simp
  · intro q hq
    simp only [Option.some.injEq] at hq
    subst hq
    rw [hbw]
    exact .inl hb
  · simp [hashClear]
  · simp [hashClear]

@[simp] theorem lzeMiss_st (p : Code) (b : Byte) (s : State) : (lzeMiss p b s).lze.st = s.lze.st := by
  unfold lzeMiss lzeRegister lzeCeiling lzeSetPend lzeAdvance Lze.registered Lze.widened Lze.advanced
  have h := fun (e : Lze) (c : Nat) => congrArg Lze.st (codeOut_eq e c)
  simp only [] at h
  split
  · simp [h]
  · simp only [State.setLze_lze, emitCode_lze]
    split <;> simp [h]

/-- A miss keeps R35 (R194, R195). -/
theorem lzeMiss_streamOk {s : State} {p : Code} {b : Byte} (h : s.lze.StreamOk) (hp : s.lze.pend = some p)
    (hb : b.toNat < s.lze.clear) (hl : hashLookup s.lze.ht p b = none) : (lzeMiss p b s).lze.StreamOk := by
  have hpw := lt_two_pow_w h (h.pend_is p hp)
  have h1 := codeOut_streamOk h hpw
  have heq := codeOut_eq s.lze p.toNat
  have e_pend : (s.lze.codeOut p.toNat).1.pend = some p := by rw [heq]; exact hp
  have e_ht : (s.lze.codeOut p.toNat).1.ht = s.lze.ht := by rw [heq]
  have e_clear : (s.lze.codeOut p.toNat).1.clear = s.lze.clear := by rw [heq]; rfl
  unfold lzeMiss lzeSetPend lzeRegister lzeAdvance
  simp only [State.setLze_lze, emitCode_lze]
  generalize (s.lze.codeOut p.toNat).1 = e at *
  have hnw := h1.next_w
  have hw := two_pow_le_4096 h1.w_hi
  have hn : e.advanced.next.toNat = e.next.toNat + 1 := toNat_ofNat_of_lt (by omega)
  have hat : (e.advanced.atThreshold && decide (e.advanced.w.toNat = Config.maxWidth)) = true ↔
      e.next.toNat + 1 = 2 ^ e.w.toNat ∧ e.w.toNat = 12 := by
    simp only [Lze.atThreshold, hn, Bool.and_eq_true]
    exact ⟨fun h => ⟨of_decide_eq_true h.1, of_decide_eq_true h.2⟩, fun h => ⟨decide_eq_true h.1, decide_eq_true h.2⟩⟩
  split
  · have hlo := h1.next_lo
    have hcl : e.advanced.clear < 2 ^ e.advanced.w.toNat := by
      have h3 : e.eoi = e.advanced.clear + 1 := rfl
      have h4 : e.advanced.w = e.w := rfl
      rw [h4]; omega
    obtain ⟨a1, a2, -, -⟩ := codeOut_spec (e := e.advanced) h1.nbits h1.acc h1.w_hi hcl
    have heq2 := codeOut_eq e.advanced e.advanced.clear
    have b_cs : (e.advanced.codeOut e.advanced.clear).1.cs = e.cs := by rw [heq2]; rfl
    unfold lzeCeiling
    simp only [State.setLze_lze, emitCode_lze]
    refine ceiling_streamOk (by rw [b_cs]; exact h1.cs_lo) (by rw [b_cs]; exact h1.cs_hi) (by omega) a2 ?_
    have b_clear : (e.advanced.codeOut e.advanced.clear).1.clear = e.clear := by unfold Lze.clear at b_cs ⊢; rw [b_cs]
    rw [b_clear, e_clear]; exact hb
  · next hcap =>
    rw [hat] at hcap
    simp only [State.setLze_lze]
    exact registered_streamOk h1 e_pend (by rw [e_clear]; exact hb) (by rw [e_ht]; exact hl) hcap

theorem lzeMiss_ok {s : State} {p : Code} {b : Byte} (h : s.lze.Ok) (ha : s.lze.st.phase = .active)
    (hp : s.lze.pend = some p) (hb : b.toNat < s.lze.clear) (hl : hashLookup s.lze.ht p b = none) :
    (lzeMiss p b s).lze.Ok := by
  have h1 := lzeMiss_streamOk (h.stream ha) hp hb hl
  refine ⟨by have := h1.next_hi; omega, h1.w_hi, ?_, fun _ => ⟨h1.cs_lo, h1.cs_hi⟩, fun _ => h1⟩
  unfold lzeMiss lzeSetPend lzeRegister lzeAdvance lzeCeiling Lze.registered Lze.widened Lze.advanced
  have heq := fun (e : Lze) (c : Nat) => congrArg Lze.ht (codeOut_eq e c)
  simp only [] at heq
  simp only [State.setLze_lze, emitCode_lze]
  split
  · rfl
  · simp only [State.setLze_lze]
    split <;> simp only [heq] <;> exact Memory.rising_insert _ _ h.rising

theorem lzeFeed_ok (b : Byte) {s : State} (h : s.lze.Ok) : (lzeFeed b s).lze.Ok := by
  unfold lzeFeed
  split
  · exact h
  · exact ⟨h.next, h.w, h.rising, by simp, by simp⟩
  · exact ⟨h.next, h.w, h.rising, by simp, by simp⟩
  · next ha =>
    have hs := h.stream ha
    split
    · exact ⟨h.next, h.w, h.rising, by simp, by simp⟩
    · next hb =>
      have hb' : b.toNat < s.lze.clear := by omega
      have hbw : (b.setWidth 12).toNat = b.toNat := by simp only [BitVec.toNat_setWidth]; omega
      split
      · refine ⟨h.next, h.w, h.rising, h.cs, fun _ => ?_⟩
        refine ⟨hs.cs_lo, hs.cs_hi, hs.w_lo, hs.w_hi, hs.next_lo, hs.next_hi, hs.w_next, hs.next_w, hs.nbits, hs.acc,
          by simp [lzeSetPend], ?_, hs.codes, hs.distinct⟩
        intro q hq
        simp only [lzeSetPend, State.setLze_lze, Option.some.injEq] at hq
        subst hq
        rw [hbw]
        exact .inl hb'
      · next p hp =>
        split
        · next c hl =>
          refine ⟨h.next, h.w, h.rising, h.cs, fun _ => ?_⟩
          refine ⟨hs.cs_lo, hs.cs_hi, hs.w_lo, hs.w_hi, hs.next_lo, hs.next_hi, hs.w_next, hs.next_w, hs.nbits, hs.acc,
            by simp [lzeSetPend], ?_, hs.codes, hs.distinct⟩
          intro q hq
          simp only [lzeSetPend, State.setLze_lze, Option.some.injEq] at hq
          subst hq
          obtain ⟨h1, h2, -, -⟩ := hs.codes _ (Memory.mem_of_find? hl)
          exact .inr ⟨h1, by simp only [lzeSetPend, State.setLze_lze]; simp only [] at h2; omega⟩
        · next hl => exact lzeMiss_ok h ha hp hb' hl

theorem lzeBegin_ok (cs : Byte) {s : State} (h : s.lze.Ok) : (lzeBegin cs s).lze.Ok := by
  unfold lzeBegin
  simp only []
  split
  · next hc =>
    obtain ⟨h1, h2⟩ := codeSizeOk_iff.1 hc
    have hs := begun_streamOk (clearErr .lze s).lze h1 h2
    split
    · have hclear : ((clearErr .lze s).lze.begun cs).clear < 2 ^ ((clearErr .lze s).lze.begun cs).w.toNat := by
        have h3 := hs.next_w
        have h4 := hs.next_lo
        have h5 : ((clearErr .lze s).lze.begun cs).eoi = ((clearErr .lze s).lze.begun cs).clear + 1 := rfl
        omega
      have h6 := codeOut_streamOk hs hclear
      simp only [State.setLze_lze, emitCode_lze]
      refine ⟨by have := h6.next_hi; omega, h6.w_hi, ?_, fun _ => ⟨h6.cs_lo, h6.cs_hi⟩, fun _ => h6⟩
      rw [codeOut_eq]; rfl
    · exact ⟨by have := hs.next_hi; simp only [State.setLze_lze]; omega, hs.w_hi, rfl, fun _ => ⟨hs.cs_lo, hs.cs_hi⟩, fun _ => hs⟩
  · exact ⟨h.next, h.w, h.rising, by simp, by simp⟩

@[simp] theorem lzeFlushPartial_w (s : State) : (lzeFlushPartial s).lze.w = s.lze.w := by
  unfold lzeFlushPartial; split <;> simp [lzeOutByte_lze]
@[simp] theorem lzeFlushPartial_next (s : State) : (lzeFlushPartial s).lze.next = s.lze.next := by
  unfold lzeFlushPartial; split <;> simp [lzeOutByte_lze]
@[simp] theorem lzeFlushPartial_cs (s : State) : (lzeFlushPartial s).lze.cs = s.lze.cs := by
  unfold lzeFlushPartial; split <;> simp [lzeOutByte_lze]
@[simp] theorem lzeFlushPartial_ht (s : State) : (lzeFlushPartial s).lze.ht = s.lze.ht := by
  unfold lzeFlushPartial; split <;> simp [lzeOutByte_lze]

/-- The last data code of R198 leaves the counters in range. -/
theorem lzeLastCode_ok {s : State} (h : s.lze.StreamOk) :
    (lzeLastCode s).lze.next.toNat ≤ 4096 ∧ (lzeLastCode s).lze.w.toNat ≤ 12 ∧ (lzeLastCode s).lze.ht = s.lze.ht ∧
      (lzeLastCode s).lze.cs = s.lze.cs := by
  have h1 := h.next_hi
  have h2 := h.w_hi
  unfold lzeLastCode
  split
  · exact ⟨by omega, h2, rfl, rfl⟩
  · next p hp =>
    have heq := codeOut_eq s.lze p.toNat
    have hn : (BitVec.ofNat 13 (s.lze.next.toNat + 1)).toNat = s.lze.next.toNat + 1 := toNat_ofNat_of_lt (by omega)
    simp only [lzeAdvance, State.setLze_lze, emitCode_lze]
    rw [heq]
    unfold Lze.finalWidth
    split
    · next hw =>
      simp only [Bool.and_eq_true] at hw
      have hw2 : s.lze.w.toNat < 12 := of_decide_eq_true hw.2
      have hww : (BitVec.ofNat 4 (s.lze.w.toNat + 1)).toNat = s.lze.w.toNat + 1 := toNat_ofNat_of_lt (by omega)
      simp only [Lze.advanced, Lze.widened, hn, hww]
      exact ⟨by omega, by omega, trivial, trivial⟩
    · simp only [Lze.advanced, hn]
      exact ⟨by omega, h2, trivial, trivial⟩

theorem lzeFinish_ok {s : State} (h : s.lze.Ok) : (lzeFinish s).lze.Ok := by
  unfold lzeFinish
  split
  · exact h
  · exact ⟨h.next, h.w, h.rising, by simp, by simp⟩
  · exact ⟨h.next, h.w, h.rising, by simp, by simp⟩
  · next ha =>
    have hs := h.stream ha
    obtain ⟨h1, h2, h3, h4⟩ := lzeLastCode_ok hs
    have heq := codeOut_eq (lzeLastCode s).lze (lzeLastCode s).lze.eoi
    have key : (lzeDone (lzeFlushPartial (emitCode (lzeLastCode s).lze.eoi (lzeLastCode s)))).lze.Ok := by
      refine ⟨?_, ?_, ?_, fun _ => ?_, by simp [lzeDone]⟩
      · simp only [lzeDone, State.setLze_lze, lzeFlushPartial_next, emitCode_lze]; rw [heq]; exact h1
      · simp only [lzeDone, State.setLze_lze, lzeFlushPartial_w, emitCode_lze]; rw [heq]; exact h2
      · simp only [lzeDone, State.setLze_lze, lzeFlushPartial_ht, emitCode_lze]; rw [heq]; simp only [h3]; exact h.rising
      · simp only [lzeDone, State.setLze_lze, lzeFlushPartial_cs, emitCode_lze]; rw [heq]; simp only [h4]
        exact ⟨hs.cs_lo, hs.cs_hi⟩
    simp only []
    split
    · obtain ⟨f, so, hf⟩ := sbfEnd_effect (lzeDone (lzeFlushPartial (emitCode (lzeLastCode s).lze.eoi (lzeLastCode s))))
      rw [hf]
      exact key
    · exact key

end Sys2Proof.Machine
end

