-- ==== Sys2Proof/Laws/Sbf.lean ====
section
/-! SUPPORT. The framer: its buffer as a list of bytes, and that its commands keep R28. -/

namespace Sys2Proof.Machine

theorem pushed_fill {f : Sbf} (b : Byte) (h : f.fill.toNat ≤ 254) : (f.pushed b).fill.toNat = f.fill.toNat + 1 :=
  toNat_ofNat_of_lt (by omega)

/-- The buffer after a put: the bytes it held, then the new one (R131). -/
theorem pushed_bufBytes (f : Sbf) (b : Byte) :
    (f.pushed b).bufBytes (f.fill.toNat + 1) = f.bufBytes f.fill.toNat ++ [b] := by
  unfold Sbf.bufBytes
  rw [List.range_succ, List.map_append]
  congr 1
  · apply List.map_congr_left
    intro i hi
    have : i < f.fill.toNat := List.mem_range.1 hi
    unfold Sbf.bufAt Sbf.pushed
    exact Memory.read_write_other _ _ _ (by omega)
  · simp [Sbf.bufAt, Sbf.pushed]

/-- A put keeps the buffer's canonical form. -/
theorem pushed_memory {f : Sbf} (b : Byte) (h : f.Ok) :
    Memory.wf 0#8 (f.pushed b).buf = true ∧ Memory.within 255 (f.pushed b).buf = true :=
  ⟨Memory.wf_write _ _ h.wf, Memory.within_write _ (by have := h.fill; omega) h.size⟩

theorem sbfBegin_ok {s : State} (h : s.sbf.Ok) : (sbfBegin s).sbf.Ok := ⟨by simp [sbfBegin], h.wf, h.size⟩

theorem sbfPut_ok (b : Byte) {s : State} (h : s.sbf.Ok) : (sbfPut b s).sbf.Ok := by
  obtain ⟨h1, h2⟩ := pushed_memory b h
  have h3 := pushed_fill b h.fill
  have h4 := h.fill
  unfold sbfPut
  split
  · exact h
  · exact ⟨h.fill, h.wf, h.size⟩
  · exact ⟨h.fill, h.wf, h.size⟩
  · simp only []
    split
    · exact ⟨by simp, h1, h2⟩
    · next hn =>
      have hn' : ¬ (s.sbf.pushed b).fill.toNat = 255 := hn
      exact ⟨by simp only [State.setSbf_sbf]; omega, h1, h2⟩

theorem sbfEnd_ok {s : State} (h : s.sbf.Ok) : (sbfEnd s).sbf.Ok := by
  unfold sbfEnd
  split
  · exact h
  · exact ⟨h.fill, h.wf, h.size⟩
  · exact ⟨h.fill, h.wf, h.size⟩
  · exact ⟨by simp, h.wf, h.size⟩

theorem foldl_sbfPut_ok (xs : List Byte) {s : State} (h : s.sbf.Ok) : (xs.foldl (fun t x => sbfPut x t) s).sbf.Ok := by
  induction xs generalizing s with
  | nil => exact h
  | cons x xs ih => exact ih (sbfPut_ok x h)

end Sys2Proof.Machine
end

