-- ==== Sys2Proof/Laws/Inv.lean ====
section
/-! SUPPORT. The parts of a legal state, per rule: the status words (R23), and each rule's effect on all units at once. -/

namespace Sys2Proof.Machine

/-! ## Status words -/

theorem UnitStatus.reset_ok : UnitStatus.reset.Ok := ⟨by decide, fun _ => rfl⟩
theorem UnitStatus.started_ok : UnitStatus.started.Ok := ⟨by decide, fun _ => rfl⟩

/-- An error status is a legal one, whatever its info (R303). -/
theorem UnitStatus.err_ok {c : ErrCode} (i : BitVec 16) (h : c ≠ .noError) :
    (⟨.err, c, i⟩ : UnitStatus).Ok := ⟨by simp [h], fun hc => absurd hc h⟩

/-- A change of phase within IDLE, ACTIVE and DONE keeps the status legal. -/
theorem UnitStatus.Ok.withPhase {st : UnitStatus} (h : st.Ok) (p : Phase) (h1 : st.phase ≠ .err) (h2 : p ≠ .err) :
    ({ st with phase := p } : UnitStatus).Ok := by
  refine ⟨⟨fun hp => absurd hp h2, fun hc => absurd (h.err_iff.2 hc) h1⟩, h.info⟩

/-- Every unit's status is legal. -/
def StatusOk (s : State) : Prop := ∀ u, (s.status u).Ok

theorem StatusOk.setSbu {s : State} (h : StatusOk s) {b : Sbu} (hb : b.st.Ok) : StatusOk (s.setSbu b) := by
  intro u; cases u
  · exact hb
  · exact h .sbf
  · exact h .lzd
  · exact h .lze
  · exact h .cmp

theorem StatusOk.setSbf {s : State} (h : StatusOk s) {b : Sbf} (hb : b.st.Ok) : StatusOk (s.setSbf b) := by
  intro u; cases u
  · exact h .sbu
  · exact hb
  · exact h .lzd
  · exact h .lze
  · exact h .cmp

theorem StatusOk.setLzd {s : State} (h : StatusOk s) {b : Lzd} (hb : b.st.Ok) : StatusOk (s.setLzd b) := by
  intro u; cases u
  · exact h .sbu
  · exact h .sbf
  · exact hb
  · exact h .lze
  · exact h .cmp

theorem StatusOk.setLze {s : State} (h : StatusOk s) {b : Lze} (hb : b.st.Ok) : StatusOk (s.setLze b) := by
  intro u; cases u
  · exact h .sbu
  · exact h .sbf
  · exact h .lzd
  · exact hb
  · exact h .cmp

theorem StatusOk.setCmp {s : State} (h : StatusOk s) {b : Cmp} (hb : b.st.Ok) : StatusOk (s.setCmp b) := by
  intro u; cases u
  · exact h .sbu
  · exact h .sbf
  · exact h .lzd
  · exact h .lze
  · exact hb

theorem StatusOk.setOut {s : State} (h : StatusOk s) (o : Channels) : StatusOk (s.setOut o) := by
  intro u; have := h u; cases u <;> exact this

/-! ## Every rule keeps every status legal -/

theorem sbuBegin_status {s : State} (h : StatusOk s) : StatusOk (sbuBegin s) := h.setSbu UnitStatus.started_ok
theorem sbfBegin_status {s : State} (h : StatusOk s) : StatusOk (sbfBegin s) := h.setSbf UnitStatus.started_ok

theorem sbfPut_status (b : Byte) {s : State} (h : StatusOk s) : StatusOk (sbfPut b s) := by
  unfold sbfPut
  split
  · exact h
  · exact h.setSbf (UnitStatus.err_ok _ (by simp))
  · exact h.setSbf (UnitStatus.err_ok _ (by simp))
  · simp only []
    split
    · exact (h.setSbf (h .sbf)).setOut _
    · exact h.setSbf (h .sbf)

theorem sbfEnd_status {s : State} (h : StatusOk s) : StatusOk (sbfEnd s) := by
  unfold sbfEnd
  split
  · exact h
  · exact h.setSbf (UnitStatus.err_ok _ (by simp))
  · exact h.setSbf (UnitStatus.err_ok _ (by simp))
  · next ha => exact (h.setSbf ((h .sbf).withPhase .done (by simp [ha]) (by simp))).setOut _

theorem emitFrame_status {s : State} (h : StatusOk s) (he : s.cmp.st.phase ≠ .err) : StatusOk (emitFrame s) :=
  (h.setCmp ((h .cmp).withPhase .done he (by simp))).setOut _

theorem cmpScreen_status (w k : BitVec 16) {s : State} (h : StatusOk s) : StatusOk (cmpScreen w k s) := by
  unfold cmpScreen
  simp only []
  split
  · rw [clearErr_cmp, raiseErr_cmp, State.setCmp_setCmp]
    exact h.setCmp (UnitStatus.err_ok _ (by simp))
  · rw [clearErr_cmp, State.setCmp_setCmp]
    exact h.setCmp UnitStatus.reset_ok

theorem whenIdle_status (op : Byte) (f : Cmp → Cmp) (hf : ∀ c, (f c).st = c.st) {s : State} (h : StatusOk s) :
    StatusOk (whenIdle op f s) := by
  unfold whenIdle
  split
  · exact h
  · exact h.setCmp (UnitStatus.err_ok _ (by simp))
  · exact h.setCmp (UnitStatus.err_ok _ (by simp))
  · exact h.setCmp (by rw [hf]; exact h .cmp)

theorem cmpImageBegin_status (l : Bool) (w k : BitVec 16) {s : State} (h : StatusOk s) :
    StatusOk (cmpImageBegin l w k s) := by
  unfold cmpImageBegin
  split
  · exact h
  · exact h.setCmp (UnitStatus.err_ok _ (by simp))
  · exact h.setCmp (UnitStatus.err_ok _ (by simp))
  · next hi =>
    have h1 : StatusOk (s.setCmp (s.cmp.imageBegun l w k)) :=
      h.setCmp ((h .cmp).withPhase .active (by simp [hi]) (by simp))
    simp only []
    split
    · exact emitFrame_status h1 (by simp [Cmp.imageBegun])
    · exact h1

theorem cmpPixel_status (x : Byte) {s : State} (h : StatusOk s) : StatusOk (cmpPixel x s) := by
  unfold cmpPixel
  split
  · exact h
  · exact h.setCmp (UnitStatus.err_ok _ (by simp))
  · exact h
  · next ha =>
    have h1 : StatusOk (s.setCmp (s.cmp.pixelTaken x)) := h.setCmp (h .cmp)
    unfold emitWhenFilled
    split
    · exact emitFrame_status h1 (by simp [Cmp.pixelTaken, ha])
    · exact h1

theorem cmpImageEnd_status {s : State} (h : StatusOk s) : StatusOk (cmpImageEnd s) := by
  unfold cmpImageEnd
  split
  · exact h
  · exact h.setCmp (UnitStatus.err_ok _ (by simp))
  · next ha =>
    split
    · have h1 := emitFrame_status h (by simp [ha])
      exact h1.setCmp ((h1 .cmp).withPhase .idle (by simp [emitFrame]) (by simp))
    · exact h.setCmp (UnitStatus.err_ok _ (by simp))
  · next hd => exact h.setCmp ((h .cmp).withPhase .idle (by simp [hd]) (by simp))

theorem cmpFinish_status {s : State} (h : StatusOk s) : StatusOk (cmpFinish s) := by
  unfold cmpFinish
  split
  · exact h
  · exact h.setCmp (UnitStatus.err_ok _ (by simp))
  · exact h.setCmp (UnitStatus.err_ok _ (by simp))
  · exact h.setOut _

theorem lzdEmit_status (e : List Byte) {s : State} (h : StatusOk s) : StatusOk (lzdEmit e s) := by
  unfold lzdEmit
  induction e generalizing s with
  | nil => exact h
  | cons x e ih =>
    refine ih (s := lzdOutByte x s) ?_
    unfold lzdOutByte
    split
    · exact cmpPixel_status x h
    · exact h.setOut _

theorem afterSymbol_status {d : Lzd} (c : Nat) (h : d.st.Ok) (ha : d.st.phase ≠ .err) : (d.afterSymbol c).st.Ok := by
  unfold Lzd.afterSymbol
  split
  · simpa using h
  · exact h
  · exact h.withPhase .done ha (by simp)
  · simpa using h
  · simpa using h
  · exact UnitStatus.err_ok _ (by simp)

theorem run_status {d : Lzd} (n : Nat) (h : d.st.Ok) : (d.run n).1.st.Ok := by
  induction n generalizing d with
  | zero => exact h
  | succ n ih =>
    unfold Lzd.run
    split
    · next hc =>
      simp only [Lzd.hasCode, Bool.and_eq_true, decide_eq_true_eq] at hc
      exact ih (afterSymbol_status (d := d.codeTaken) _ h (by simp [Lzd.codeTaken, hc.1]))
    · exact h

theorem lzdBegin_status (cs : Byte) {s : State} (h : StatusOk s) : StatusOk (lzdBegin cs s) := by
  unfold lzdBegin
  simp only []
  split
  · rw [clearErr_lzd, State.setLzd_setLzd]
    exact h.setLzd UnitStatus.started_ok
  · rw [clearErr_lzd, raiseErr_lzd, State.setLzd_setLzd]
    exact h.setLzd (UnitStatus.err_ok _ (by simp))

theorem lzdFeed_status (b : Byte) {s : State} (h : StatusOk s) : StatusOk (lzdFeed b s) := by
  by_cases ha : s.lzd.st.phase = .active
  · rw [lzdFeed_active b ha]
    exact lzdEmit_status _ (h.setLzd (run_status (d := s.lzd.byteGiven b) _ (h .lzd)))
  · unfold lzdFeed
    split
    · exact h
    · exact h.setLzd (UnitStatus.err_ok _ (by simp))
    · exact h
    · next h' => exact absurd h' ha

theorem lzdForwardEnd_status {s : State} (h : StatusOk s) : StatusOk (lzdForwardEnd s) := by
  unfold lzdForwardEnd
  split
  · exact cmpImageEnd_status h
  · exact h

theorem lzdFinish_status {s : State} (h : StatusOk s) : StatusOk (lzdFinish s) := by
  unfold lzdFinish
  split
  · exact h
  · exact h.setLzd (UnitStatus.err_ok _ (by simp))
  · next ha =>
    split
    · exact lzdForwardEnd_status (h.setLzd ((h .lzd).withPhase .done (by simp [ha]) (by simp)))
    · exact h.setLzd (UnitStatus.err_ok _ (by simp))
  · exact lzdForwardEnd_status h

theorem sbuFeed_status (b : Byte) {s : State} (h : StatusOk s) : StatusOk (sbuFeed b s) := by
  unfold sbuFeed
  split
  · exact h
  · exact h.setSbu (UnitStatus.err_ok _ (by simp))
  · exact h.setSbu (UnitStatus.err_ok _ (by simp))
  · next ha =>
    split
    · split
      · have h1 : StatusOk (setPhase .sbu .done s) := h.setSbu ((h .sbu).withPhase .done (by simp [ha]) (by simp))
        simp only []
        split
        · exact lzdFinish_status h1
        · exact h1
      · exact h.setSbu (h .sbu)
    · simp only []
      split
      · exact lzdFeed_status b (h.setSbu (h .sbu))
      · exact (h.setSbu (h .sbu)).setOut _

theorem sbuFinish_status {s : State} (h : StatusOk s) : StatusOk (sbuFinish s) := by
  unfold sbuFinish
  split
  · exact h
  · exact h.setSbu (UnitStatus.err_ok _ (by simp))
  · exact h
  · exact h.setSbu (UnitStatus.err_ok _ (by simp))

theorem lzeEmit_status (xs : List Byte) {s : State} (h : StatusOk s) : StatusOk (lzeEmit xs s) := by
  induction xs generalizing s with
  | nil => exact h
  | cons x xs ih =>
    rw [lzeEmit_cons]
    refine ih ?_
    unfold lzeOutByte
    split
    · exact sbfPut_status x h
    · exact h.setOut _

theorem emitCode_status (c : Nat) {s : State} (h : StatusOk s) : StatusOk (emitCode c s) := by
  rw [emitCode_eq]
  exact lzeEmit_status _ (h.setLze (by rw [codeOut_eq]; exact h .lze))

theorem lzeBegin_status (cs : Byte) {s : State} (h : StatusOk s) : StatusOk (lzeBegin cs s) := by
  unfold lzeBegin
  simp only []
  split
  · have h1 : StatusOk ((clearErr .lze s).setLze ((clearErr .lze s).lze.begun cs)) := by
      rw [clearErr_lze, State.setLze_setLze]
      exact h.setLze UnitStatus.started_ok
    split
    · exact emitCode_status _ h1
    · exact h1
  · rw [clearErr_lze, raiseErr_lze, State.setLze_setLze]
    exact h.setLze (UnitStatus.err_ok _ (by simp))

@[simp] theorem Lze.registered_st (e : Lze) (p : Code) (b : Byte) : (e.registered p b).st = e.st := by
  unfold Lze.registered; simp only []; split <;> rfl

@[simp] theorem Lze.finalWidth_st (e : Lze) : e.finalWidth.st = e.st := by
  unfold Lze.finalWidth; split <;> rfl

theorem lzeMiss_status (p : Code) (b : Byte) {s : State} (h : StatusOk s) : StatusOk (lzeMiss p b s) := by
  have h1 := emitCode_status p.toNat h
  have h2 : StatusOk (lzeAdvance (emitCode p.toNat s)) := h1.setLze (h1 .lze)
  have h3 : StatusOk (lzeRegister p b (lzeAdvance (emitCode p.toNat s))) := by
    unfold lzeRegister
    split
    · have h4 := emitCode_status (lzeAdvance (emitCode p.toNat s)).lze.clear h2
      exact h4.setLze (h4 .lze)
    · exact h2.setLze (by rw [Lze.registered_st]; exact h2 .lze)
  exact h3.setLze (h3 .lze)

theorem lzeFeed_status (b : Byte) {s : State} (h : StatusOk s) : StatusOk (lzeFeed b s) := by
  unfold lzeFeed
  split
  · exact h
  · exact h.setLze (UnitStatus.err_ok _ (by simp))
  · exact h.setLze (UnitStatus.err_ok _ (by simp))
  · split
    · exact h.setLze (UnitStatus.err_ok _ (by simp))
    · split
      · exact h.setLze (h .lze)
      · split
        · exact h.setLze (h .lze)
        · exact lzeMiss_status _ b h

theorem lzeLastCode_status {s : State} (h : StatusOk s) : StatusOk (lzeLastCode s) := by
  unfold lzeLastCode
  split
  · exact h
  · next p _ =>
    have h1 := emitCode_status p.toNat h
    exact h1.setLze (by rw [Lze.finalWidth_st]; exact h1 .lze)

theorem lzeFlushPartial_status {s : State} (h : StatusOk s) : StatusOk (lzeFlushPartial s) := by
  unfold lzeFlushPartial
  split
  · have h1 := lzeEmit_status [BitVec.ofNat 8 (s.lze.acc.toNat % 2 ^ 8)] h
    exact h1.setLze (h1 .lze)
  · exact h

@[simp] theorem lzeFlushPartial_st (s : State) : (lzeFlushPartial s).lze.st = s.lze.st := by
  unfold lzeFlushPartial; split <;> simp [lzeOutByte_lze]

@[simp] theorem codeOut_st (e : Lze) (c : Nat) : (e.codeOut c).1.st = e.st := by rw [codeOut_eq]

@[simp] theorem lzeLastCode_st (s : State) : (lzeLastCode s).lze.st = s.lze.st := by
  unfold lzeLastCode; split <;> simp [lzeAdvance, Lze.advanced]

theorem lzeFinish_status {s : State} (h : StatusOk s) : StatusOk (lzeFinish s) := by
  unfold lzeFinish
  split
  · exact h
  · exact h.setLze (UnitStatus.err_ok _ (by simp))
  · exact h.setLze (UnitStatus.err_ok _ (by simp))
  · next ha =>
    have h1 := lzeFlushPartial_status (emitCode_status (lzeLastCode s).lze.eoi (lzeLastCode_status h))
    have h2 : StatusOk (lzeDone (lzeFlushPartial (emitCode (lzeLastCode s).lze.eoi (lzeLastCode s)))) :=
      h1.setLze ((h1 .lze).withPhase .done (by simp [ha]) (by simp))
    simp only []
    split
    · exact sbfEnd_status h2
    · exact h2

theorem resetBlock_status (s : State) : StatusOk (resetBlock s) := by
  intro u; cases u <;> exact UnitStatus.reset_ok

/-! ## Each rule keeps the rest of the block legal -/

/-- A rule that touches CMP and its channel alone keeps the block legal if it keeps CMP legal; the next four say the same of the
other effects. -/
theorem Inv.cmpEffect {s t : State} (h : Inv s) (e : CmpEffect s t) (h1 : StatusOk t) (h2 : t.cmp.Ok s.canvasCap.toNat) :
    Inv t := by
  obtain ⟨c, fr, rfl⟩ := e
  exact ⟨h.cap, h.sys, h1, h.sbf, h.lzd, h.lze, h2⟩

theorem Inv.sbfEffect {s t : State} (h : Inv s) (e : SbfEffect s t) (h1 : StatusOk t) (h2 : t.sbf.Ok) : Inv t := by
  obtain ⟨c, fr, rfl⟩ := e
  exact ⟨h.cap, h.sys, h1, h2, h.lzd, h.lze, h.cmp⟩

theorem Inv.lzdEffect {s t : State} (h : Inv s) (e : LzdEffect s t) (h1 : StatusOk t) (h2 : t.lzd.Ok)
    (h3 : t.cmp.Ok s.canvasCap.toNat) : Inv t := by
  obtain ⟨c, d, fr, f2, rfl⟩ := e
  exact ⟨h.cap, h.sys, h1, h.sbf, h2, h.lze, h3⟩

theorem Inv.sbuEffect {s t : State} (h : Inv s) (e : SbuEffect s t) (h1 : StatusOk t) (h2 : t.lzd.Ok)
    (h3 : t.cmp.Ok s.canvasCap.toNat) : Inv t := by
  obtain ⟨b, c, d, fr, f2, f3, rfl⟩ := e
  exact ⟨h.cap, h.sys, h1, h.sbf, h2, h.lze, h3⟩

theorem Inv.lzeEffect {s t : State} (h : Inv s) (e : LzeEffect s t) (h1 : StatusOk t) (h2 : t.lze.Ok) (h3 : t.sbf.Ok) : Inv t := by
  obtain ⟨c, d, fr, f2, rfl⟩ := e
  exact ⟨h.cap, h.sys, h1, h3, h.lzd, h2, h.cmp⟩

theorem lzdEmit_cmpOk (e : List Byte) {s : State} {cap} (h : s.cmp.Ok cap) : (lzdEmit e s).cmp.Ok cap := by
  unfold lzdEmit
  induction e generalizing s with
  | nil => exact h
  | cons x e ih =>
    refine ih (s := lzdOutByte x s) ?_
    unfold lzdOutByte
    split
    · exact cmpPixel_ok x h
    · exact h

theorem lzdFeed_cmpOk (b) {s : State} {cap} (h : s.cmp.Ok cap) : (lzdFeed b s).cmp.Ok cap := by
  by_cases ha : s.lzd.st.phase = .active
  · rw [lzdFeed_active b ha]
    exact lzdEmit_cmpOk _ h
  · unfold lzdFeed
    split
    · exact h
    · exact h
    · exact h
    · next h' => exact absurd h' ha

theorem lzdForwardEnd_cmpOk {s : State} {cap} (h : s.cmp.Ok cap) : (lzdForwardEnd s).cmp.Ok cap := by
  unfold lzdForwardEnd; split
  · exact cmpImageEnd_ok h
  · exact h

theorem lzdFinish_cmpOk {s : State} {cap} (h : s.cmp.Ok cap) : (lzdFinish s).cmp.Ok cap := by
  unfold lzdFinish
  split
  · exact h
  · exact h
  · split
    · exact lzdForwardEnd_cmpOk h
    · exact h
  · exact lzdForwardEnd_cmpOk h

theorem lzeEmit_sbfOk (e : List Byte) {s : State} (h : s.sbf.Ok) : (lzeEmit e s).sbf.Ok := by
  induction e generalizing s with
  | nil => exact h
  | cons x e ih =>
    rw [lzeEmit_cons]
    refine ih (s := lzeOutByte x s) ?_
    unfold lzeOutByte
    split
    · exact sbfPut_ok x h
    · exact h

theorem emitCode_sbfOk (c) {s : State} (h : s.sbf.Ok) : (emitCode c s).sbf.Ok := by
  rw [emitCode_eq]; exact lzeEmit_sbfOk _ h

theorem lzeMiss_sbfOk (p b) {s : State} (h : s.sbf.Ok) : (lzeMiss p b s).sbf.Ok := by
  unfold lzeMiss lzeSetPend lzeRegister lzeCeiling lzeAdvance
  split
  · exact emitCode_sbfOk _ (emitCode_sbfOk _ h)
  · exact (emitCode_sbfOk _ h)

theorem lzeFeed_sbfOk (b) {s : State} (h : s.sbf.Ok) : (lzeFeed b s).sbf.Ok := by
  unfold lzeFeed
  split
  · exact h
  · exact h
  · exact h
  · split
    · exact h
    · split
      · exact h
      · split
        · exact h
        · exact lzeMiss_sbfOk _ _ h

theorem lzeBegin_sbfOk (b) {s : State} (h : s.sbf.Ok) : (lzeBegin b s).sbf.Ok := by
  unfold lzeBegin
  simp only []
  split
  · split
    · exact emitCode_sbfOk _ h
    · exact h
  · exact h

theorem lzeFinish_sbfOk {s : State} (h : s.sbf.Ok) : (lzeFinish s).sbf.Ok := by
  unfold lzeFinish
  have a1 : (lzeLastCode s).sbf.Ok := by
    unfold lzeLastCode; split
    · exact h
    · exact emitCode_sbfOk _ h
  have a2 := emitCode_sbfOk (lzeLastCode s).lze.eoi a1
  have a3 : (lzeFlushPartial (emitCode (lzeLastCode s).lze.eoi (lzeLastCode s))).sbf.Ok := by
    generalize (emitCode (lzeLastCode s).lze.eoi (lzeLastCode s)) = q at *
    unfold lzeFlushPartial; split
    · exact lzeEmit_sbfOk [_] a2
    · exact a2
  split
  · exact h
  · exact h
  · exact h
  · simp only []
    split
    · exact sbfEnd_ok a3
    · exact a3

theorem sbuFeed_lzdOk_cmpOk (b) {s : State} (h : Inv s) : (sbuFeed b s).lzd.Ok ∧ (sbuFeed b s).cmp.Ok s.canvasCap.toNat := by
  unfold sbuFeed
  have := h.lzd; have := h.cmp
  split
  · tauto
  · tauto
  · tauto
  · split
    · split
      · simp only []
        split
        · exact ⟨lzdFinish_ok h.lzd, lzdFinish_cmpOk h.cmp⟩
        · tauto
      · tauto
    · simp only []
      split
      · exact ⟨lzdFeed_ok _ h.lzd, lzdFeed_cmpOk _ h.cmp⟩
      · tauto

theorem Inv.respond {s : State} (h : Inv s) (v : Word) : Inv (respond v s) :=
  ⟨h.cap, h.sys, fun u => by have := h.status u; cases u <;> exact this, h.sbf, h.lzd, h.lze, h.cmp⟩

theorem Inv.illegal {s : State} (h : Inv s) (op : Byte) : Inv (illegalCommand op s) :=
  ⟨h.cap, by simp [illegalCommand, Sys.Ok, Machine.respond], fun u => by have := h.status u; cases u <;> exact this,
    h.sbf, h.lzd, h.lze, h.cmp⟩

theorem resetBlock_lzdOk {s : State} (h : s.lzd.Ok) : (resetBlock s).lzd.Ok := by
  have hs : (resetBlock s).lzd.st.phase = .idle := rfl
  refine ⟨by simp [resetBlock, Lzd.reset], by simp [resetBlock, Lzd.reset], h.pfx_wf, h.sfx_wf, h.pfx_in, h.sfx_in, ?_, ?_⟩
  · simp [hs]
  · simp [hs]

theorem Lze.reset_ok : Lze.reset.Ok := by
  refine ⟨by simp [Lze.reset], by simp [Lze.reset], rfl, ?_, ?_⟩ <;> simp [Lze.reset, UnitStatus.reset]

theorem Cmp.reset_ok (cap : Nat) : Cmp.reset.Ok cap := by
  refine ⟨rfl, rfl, ?_, rfl, rfl, rfl, rfl, ?_, ?_, fun _ => rfl, ?_, ?_⟩ <;>
    simp [Cmp.reset, Cmp.canvasSize, UnitStatus.reset]

theorem resetBlock_inv {s : State} (h : Inv s) : Inv (resetBlock s) :=
  ⟨h.cap, by simp [Sys.Ok, resetBlock, State.reset, Sys.reset], resetBlock_status s,
    ⟨by simp [resetBlock, Sbf.reset], h.sbf.wf, h.sbf.size⟩, resetBlock_lzdOk h.lzd, Lze.reset_ok, Cmp.reset_ok _⟩

/-! ## The memories of the reset state -/

/-- Every memory of the reset state has its canonical form. -/
theorem reset_memories :
    Memory.wf 0#8 State.reset.sbf.buf = true ∧ Memory.wf 0#12 State.reset.lzd.pfx = true ∧
    Memory.wf 0#8 State.reset.lzd.sfx = true ∧ Memory.rising State.reset.lze.ht = true ∧
    Memory.wf transparent State.reset.cmp.canvas = true ∧ Memory.wf black State.reset.cmp.gct = true ∧
    Memory.wf black State.reset.cmp.lct = true := ⟨rfl, rfl, rfl, rfl, rfl, rfl, rfl⟩

end Sys2Proof.Machine
end

