-- ==== Sys2Proof/Laws/PerInstr.lean ====
section
/-! SUPPORT. What is said of every command as syntax: its word has its opcode at [63:56] and 0 in every reserved-zero bit of its format (R90 to
R94), so that it spells the row of R94 it stands for. -/

namespace Sys2Proof.Laws.Spells

/-- The word of `i` has `i`'s opcode, and its reserved-zero bits are 0 (R92). -/
def Statement (i : Instr) : Prop := opcodeOf (encode i) = i.opcode ∧ encode i &&& i.format.reserved = 0#64

/-- The opcode field of a word built from an opcode and operand bits. -/
theorem opcodeOf_append (op : Byte) (o : BitVec 56) : opcodeOf (op ++ o : Word) = op := by
  unfold opcodeOf field
  ext i hi
  simp only [BitVec.getElem_extractLsb', BitVec.getLsbD_append]
  rw [if_neg (by omega)]
  simp [BitVec.getLsbD_eq_getElem hi]

theorem opcodeOf_encode (i : Instr) : opcodeOf (encode i) = i.opcode := opcodeOf_append _ _

/-- Two words laid out alike: the reserved bits meet zeros only. -/
theorem append_and_eq_zero {m n : Nat} {a c : BitVec m} {b d : BitVec n} (h1 : a &&& c = 0#m) (h2 : b &&& d = 0#n) :
    (a ++ b) &&& (c ++ d) = 0#(m + n) := by
  rw [BitVec.and_append, h1, h2]
  simp

theorem and_zero (n : Nat) (a : BitVec n) : a &&& 0#n = 0#n := by simp
theorem zero_and (n : Nat) (a : BitVec n) : 0#n &&& a = 0#n := by simp

/-- Format N: no operand bit. -/
theorem reserved_N (op : Byte) : (op ++ 0#56 : Word) &&& Format.N.reserved = 0#64 :=
  append_and_eq_zero (c := 0#8) (d := 0xFFFFFFFFFFFFFF#56) (and_zero _ _) (zero_and _ _)

/-- Format B: one byte at [7:0]. -/
theorem reserved_B (op b : Byte) : (op ++ (0#48 ++ b) : Word) &&& Format.B.reserved = 0#64 :=
  append_and_eq_zero (c := 0#8) (d := 0xFFFFFFFFFFFF#48 ++ 0#8) (and_zero _ _)
    (append_and_eq_zero (zero_and _ _) (and_zero _ _))

/-- Format C: six bits at [5:0]. -/
theorem reserved_C (op : Byte) (c : BitVec 6) : (op ++ (0#50 ++ c) : Word) &&& Format.C.reserved = 0#64 :=
  append_and_eq_zero (c := 0#8) (d := 0x3FFFFFFFFFFFF#50 ++ 0#6) (and_zero _ _)
    (append_and_eq_zero (zero_and _ _) (and_zero _ _))

/-- Format P: two 16-bit fields at [31:16] and [15:0]. -/
theorem reserved_P (op : Byte) (x y : BitVec 16) : (op ++ (0#24 ++ x ++ y) : Word) &&& Format.P.reserved = 0#64 :=
  append_and_eq_zero (c := 0#8) (d := 0xFFFFFF#24 ++ 0#16 ++ 0#16) (and_zero _ _)
    (append_and_eq_zero (append_and_eq_zero (zero_and _ _) (and_zero _ _)) (and_zero _ _))

/-- Format TR: the table select at [48] and a byte at [47:40]. -/
theorem reserved_TR (op : Byte) (t : BitVec 1) (i : Byte) :
    (op ++ (0#7 ++ t ++ i ++ 0#40) : Word) &&& Format.TR.reserved = 0#64 :=
  append_and_eq_zero (c := 0#8) (d := 0x7F#7 ++ 0#1 ++ 0#8 ++ 0xFFFFFFFFFF#40) (and_zero _ _)
    (append_and_eq_zero (append_and_eq_zero (append_and_eq_zero (zero_and _ _) (and_zero _ _)) (and_zero _ _)) (zero_and _ _))

/-- Format TS: the table select at [48] and nine bits at [8:0]. -/
theorem reserved_TS (op : Byte) (t : BitVec 1) (n : BitVec 9) :
    (op ++ (0#7 ++ t ++ 0#39 ++ n) : Word) &&& Format.TS.reserved = 0#64 :=
  append_and_eq_zero (c := 0#8) (d := 0x7F#7 ++ 0#1 ++ 0x7FFFFFFFFF#39 ++ 0#9) (and_zero _ _)
    (append_and_eq_zero (append_and_eq_zero (append_and_eq_zero (zero_and _ _) (and_zero _ _)) (zero_and _ _)) (and_zero _ _))

/-- Format TW: the table select at [48], a byte at [47:40] and a colour at [23:0]. -/
theorem reserved_TW (op : Byte) (t : BitVec 1) (i r g b : Byte) :
    (op ++ (0#7 ++ t ++ i ++ 0#16 ++ r ++ g ++ b) : Word) &&& Format.TW.reserved = 0#64 :=
  append_and_eq_zero (c := 0#8) (d := 0x7F#7 ++ 0#1 ++ 0#8 ++ 0xFFFF#16 ++ 0#8 ++ 0#8 ++ 0#8) (and_zero _ _)
    (append_and_eq_zero (append_and_eq_zero (append_and_eq_zero (append_and_eq_zero (append_and_eq_zero
      (append_and_eq_zero (zero_and _ _) (and_zero _ _)) (and_zero _ _)) (zero_and _ _)) (and_zero _ _)) (and_zero _ _))
      (and_zero _ _))

/-- Format G: 29 bits at [28:0]; the word written has 0 at the don't-care bits. -/
theorem reserved_G (op : Byte) (d : BitVec 3) (u f : BitVec 1) (ti : Byte) (dl : BitVec 16) :
    (op ++ (0#27 ++ d ++ u ++ f ++ ti ++ dl) : Word) &&& Format.G.reserved = 0#64 :=
  append_and_eq_zero (c := 0#8) (d := 0x7FFFFF8#27 ++ 0#3 ++ 0#1 ++ 0#1 ++ 0#8 ++ 0#16) (and_zero _ _)
    (append_and_eq_zero (append_and_eq_zero (append_and_eq_zero (append_and_eq_zero (append_and_eq_zero
      (zero_and _ _) (and_zero _ _)) (and_zero _ _)) (and_zero _ _)) (and_zero _ _)) (and_zero _ _))

/-- Format IB: a flag at [48] and two 16-bit fields at [31:16] and [15:0]. -/
theorem reserved_IB (op : Byte) (l : BitVec 1) (w h : BitVec 16) :
    (op ++ (0#7 ++ l ++ 0#16 ++ w ++ h) : Word) &&& Format.IB.reserved = 0#64 :=
  append_and_eq_zero (c := 0#8) (d := 0x7F#7 ++ 0#1 ++ 0xFFFF#16 ++ 0#16 ++ 0#16) (and_zero _ _)
    (append_and_eq_zero (append_and_eq_zero (append_and_eq_zero (append_and_eq_zero
      (zero_and _ _) (and_zero _ _)) (zero_and _ _)) (and_zero _ _)) (and_zero _ _))

/-! ## One lemma per command -/

theorem nop : Statement .nop :=
  ⟨opcodeOf_encode _, reserved_N _⟩
theorem reset : Statement .reset :=
  ⟨opcodeOf_encode _, reserved_N _⟩
theorem cfg (c : BitVec 6) : Statement (.cfg c) :=
  ⟨opcodeOf_encode _, reserved_C _ _⟩
theorem rdReg (r : Reg) : Statement (.rdReg r) :=
  ⟨opcodeOf_encode _, reserved_B _ _⟩
theorem rdCanvas (x y : BitVec 16) : Statement (.rdCanvas x y) :=
  ⟨opcodeOf_encode _, reserved_P _ _ _⟩
theorem rdCt (t : Table) (j : Byte) : Statement (.rdCt t j) :=
  ⟨opcodeOf_encode _, reserved_TR _ _ _⟩
theorem sbuBegin : Statement .sbuBegin :=
  ⟨opcodeOf_encode _, reserved_N _⟩
theorem sbuFeed (b : Byte) : Statement (.sbuFeed b) :=
  ⟨opcodeOf_encode _, reserved_B _ _⟩
theorem sbuFinish : Statement .sbuFinish :=
  ⟨opcodeOf_encode _, reserved_N _⟩
theorem sbfBegin : Statement .sbfBegin :=
  ⟨opcodeOf_encode _, reserved_N _⟩
theorem sbfPut (b : Byte) : Statement (.sbfPut b) :=
  ⟨opcodeOf_encode _, reserved_B _ _⟩
theorem sbfEnd : Statement .sbfEnd :=
  ⟨opcodeOf_encode _, reserved_N _⟩
theorem lzdBegin (cs : Byte) : Statement (.lzdBegin cs) :=
  ⟨opcodeOf_encode _, reserved_B _ _⟩
theorem lzdFeed (b : Byte) : Statement (.lzdFeed b) :=
  ⟨opcodeOf_encode _, reserved_B _ _⟩
theorem lzdFinish : Statement .lzdFinish :=
  ⟨opcodeOf_encode _, reserved_N _⟩
theorem lzeBegin (cs : Byte) : Statement (.lzeBegin cs) :=
  ⟨opcodeOf_encode _, reserved_B _ _⟩
theorem lzeFeed (b : Byte) : Statement (.lzeFeed b) :=
  ⟨opcodeOf_encode _, reserved_B _ _⟩
theorem lzeFinish : Statement .lzeFinish :=
  ⟨opcodeOf_encode _, reserved_N _⟩
theorem cmpScreen (w h : BitVec 16) : Statement (.cmpScreen w h) :=
  ⟨opcodeOf_encode _, reserved_P _ _ _⟩
theorem cmpCtSize (t : Table) (n : BitVec 9) : Statement (.cmpCtSize t n) :=
  ⟨opcodeOf_encode _, reserved_TS _ _ _⟩
theorem cmpCtWrite (t : Table) (j r g bl : Byte) : Statement (.cmpCtWrite t j r g bl) :=
  ⟨opcodeOf_encode _, reserved_TW _ _ _ _ _ _⟩
theorem cmpGce (d : BitVec 3) (u f : Bool) (ti : Byte) (dl : BitVec 16) : Statement (.cmpGce d u f ti dl) :=
  ⟨opcodeOf_encode _, reserved_G _ _ _ _ _ _⟩
theorem cmpImagePos (left top : BitVec 16) : Statement (.cmpImagePos left top) :=
  ⟨opcodeOf_encode _, reserved_P _ _ _⟩
theorem cmpImageBegin (l : Bool) (w h : BitVec 16) : Statement (.cmpImageBegin l w h) :=
  ⟨opcodeOf_encode _, reserved_IB _ _ _ _⟩
theorem cmpPixel (idx : Byte) : Statement (.cmpPixel idx) :=
  ⟨opcodeOf_encode _, reserved_B _ _⟩
theorem cmpImageEnd : Statement .cmpImageEnd :=
  ⟨opcodeOf_encode _, reserved_N _⟩
theorem cmpFinish : Statement .cmpFinish :=
  ⟨opcodeOf_encode _, reserved_N _⟩

end Sys2Proof.Laws.Spells
end

