-- ==== Sys2Proof/Tests/Slice0.lean ====
section
/-! SUPPORT. The model's own tests: words written out from R91 and R94 and from the examples of the rules, one step each from the examples
of the rules, and for every statement with hypotheses a state and operands that meet them. -/

namespace Sys2Proof.Tests

open Sys2Proof.Machine

/-! ## Helpers -/

/-- The state after some commands from power-on reset. -/
def after (is : List Instr) : State := (runCommands is State.reset).getD State.reset

/-- The state a command answers. -/
def result (i : Instr) (s : State) : State :=
  match exec i s with
  | .next t => t
  | .fault _ | .refused _ => s

/-- The last response given. -/
def response (s : State) : Option Word := s.responses.getLast?

/-- The word of `RD_REG` of a register after some commands. -/
def reads (r : Reg) (is : List Instr) : Option Word := response (result (.rdReg r) (after is))

/-! ## WellFormed -/

theorem test_ctSize_257_ill_formed : (Instr.cmpCtSize .gct 257#9).wellFormed = false := by decide
theorem test_ctSize_256_well_formed : (Instr.cmpCtSize .lct 256#9).wellFormed = true := by decide

/-! ## Decoding: every constructor, from a word laid out by R91 and R94 -/

theorem test_decode_nop : decode 0x0000000000000000#64 = .ok .nop := by decide
theorem test_decode_reset : decode 0x0100000000000000#64 = .ok .reset := by decide
theorem test_decode_cfg : decode 0x0200000000000024#64 = .ok (.cfg 0b100100#6) := by decide
theorem test_decode_rdReg : decode 0x0300000000000048#64 = .ok (.rdReg .cmpFrameCount) := by decide
theorem test_decode_rdCanvas : decode 0x0400000012345678#64 = .ok (.rdCanvas 0x1234#16 0x5678#16) := by decide
theorem test_decode_rdCt : decode 0x0501AB0000000000#64 = .ok (.rdCt .lct 0xAB#8) := by decide
theorem test_decode_sbuBegin : decode 0x1000000000000000#64 = .ok .sbuBegin := by decide
theorem test_decode_sbuFeed : decode 0x11000000000000C3#64 = .ok (.sbuFeed 0xC3#8) := by decide
theorem test_decode_sbuFinish : decode 0x1200000000000000#64 = .ok .sbuFinish := by decide
theorem test_decode_sbfBegin : decode 0x1800000000000000#64 = .ok .sbfBegin := by decide
theorem test_decode_sbfPut : decode 0x19000000000000FF#64 = .ok (.sbfPut 0xFF#8) := by decide
theorem test_decode_sbfEnd : decode 0x1A00000000000000#64 = .ok .sbfEnd := by decide
theorem test_decode_lzdBegin : decode 0x2000000000000002#64 = .ok (.lzdBegin 2#8) := by decide
theorem test_decode_lzdFeed : decode 0x2100000000000030#64 = .ok (.lzdFeed 0x30#8) := by decide
theorem test_decode_lzdFinish : decode 0x2200000000000000#64 = .ok .lzdFinish := by decide
theorem test_decode_lzeBegin : decode 0x3000000000000008#64 = .ok (.lzeBegin 8#8) := by decide
theorem test_decode_lzeFeed : decode 0x3100000000000081#64 = .ok (.lzeFeed 0x81#8) := by decide
theorem test_decode_lzeFinish : decode 0x3200000000000000#64 = .ok .lzeFinish := by decide
theorem test_decode_cmpScreen : decode 0x4000000080017FFE#64 = .ok (.cmpScreen 0x8001#16 0x7FFE#16) := by decide
theorem test_decode_cmpCtSize : decode 0x4101000000000100#64 = .ok (.cmpCtSize .lct 256#9) := by decide
theorem test_decode_cmpCtWrite :
    decode 0x4201050000112233#64 = .ok (.cmpCtWrite .lct 5#8 0x11#8 0x22#8 0x33#8) := by decide
theorem test_decode_cmpGce : decode 0x430000001603000A#64 = .ok (.cmpGce 5#3 true false 3#8 10#16) := by decide
theorem test_decode_cmpGce_dontCare : decode 0x43000000E903000A#64 = .ok (.cmpGce 2#3 false true 3#8 10#16) := by decide
theorem test_decode_cmpImagePos : decode 0x4400000000010002#64 = .ok (.cmpImagePos 1#16 2#16) := by decide
theorem test_decode_cmpImageBegin :
    decode 0x4501000000030004#64 = .ok (.cmpImageBegin true 3#16 4#16) := by decide
theorem test_decode_cmpPixel : decode 0x4600000000000007#64 = .ok (.cmpPixel 7#8) := by decide
theorem test_decode_cmpImageEnd : decode 0x4700000000000000#64 = .ok .cmpImageEnd := by decide
theorem test_decode_cmpFinish : decode 0x4800000000000000#64 = .ok .cmpFinish := by decide

theorem test_decode_nop_with_a_bit : decode 0x0000000000000001#64 = .error .reservedBit := by decide
theorem test_decode_cfg_bit6 : decode 0x0200000000000040#64 = .error .reservedBit := by decide
theorem test_decode_unassigned : decode 0x0600000000000000#64 = .error .unassignedOpcode := by decide
theorem test_decode_unassigned_register : decode 0x0300000000000003#64 = .error .constraint := by decide
theorem test_decode_ctSize_257 : decode 0x4101000000000101#64 = .error .constraint := by decide
/-- R77: byte 0 of the transport is the low byte. -/
theorem test_decodeBytes_little_endian :
    decodeBytes [0xAA#8, 0#8, 0#8, 0#8, 0#8, 0#8, 0#8, 0x11#8, 0x55#8] = .ok (.sbuFeed 0xAA#8, [0x55#8]) := by decide
theorem test_decodeTableWord_ctSize : decodeTableWord 64 0x4100000000000002 = some (.cmpCtSize .gct 2#9) := by decide

/-! ## One step each -/

theorem test_step_after_reset :
    step (State.reset.withFetchWord 64 0x0200000000000003) = .next (after [.cfg 3#6]) := rfl
theorem test_step_empty_port : step State.reset = .next State.reset := rfl
theorem test_step_first_illegal :
    (match step (State.reset.withFetchWord 64 0x0600000000000000) with
      | .next t => t.sys | .fault _ | .refused _ => State.reset.sys) = { illegal := true, illOp := 0x06#8 } := by decide
theorem test_core_reset : core.reset = State.reset := rfl

theorem test_nop : after [.nop] = { State.reset with responses := [0#64] } := by decide
theorem test_reset_keeps_channels :
    (after [.lzeBegin 2#8, .lzeFinish, .reset]).out.lzeOut = [0x05#8] := by decide
theorem test_reset_clears_config : (after [.cfg 0b111111#6, .reset]).config = 0#6 := by decide
theorem test_cfg : reads .config [.cfg 0b101011#6] = some 0x2B#64 := by decide
/-- R284's example. -/
theorem test_rdReg_width : reads .lzdWidth [.lzdBegin 8#8] = some 9#64 := by decide
theorem test_rdReg_sysStatus : reads .sysStatus [.sbuFeed 0#8, .cmpPixel 0#8] = some 0x310000#64 := by decide
/-- R285 off the canvas: the first column beyond it. -/
theorem test_rdCanvas_off : (result (.rdCanvas 2#16 0#16) (after [.cmpScreen 2#16 2#16])).sys =
    { illegal := true, illOp := 0x04#8 } := by decide
/-- R286's example. -/
theorem test_rdCt :
    response (result (.rdCt .gct 1#8) (after [.cmpCtWrite .gct 1#8 0xFF#8 0#8 0#8])) = some 0xFF0000#64 := by decide
/-- R121's example. -/
theorem test_sbuFeed_zero_is_data :
    (after [.sbuBegin, .sbuFeed 2#8, .sbuFeed 0xAA#8, .sbuFeed 0#8, .sbuFeed 0#8]).out.sbuOut = [0xAA#8, 0#8] := by decide
theorem test_sbuFeed_done :
    reads .sbuStatus [.sbuBegin, .sbuFeed 2#8, .sbuFeed 0xAA#8, .sbuFeed 0#8, .sbuFeed 0#8] = some 2#64 := by decide
/-- R122's example. -/
theorem test_sbuFinish_truncated :
    reads .sbuStatus [.sbuBegin, .sbuFeed 5#8, .sbuFeed 1#8, .sbuFeed 2#8, .sbuFinish] = some 0x30203#64 := by decide
/-- R132's example. -/
theorem test_sbfEnd : (after [.sbfBegin, .sbfPut 0x30#8, .sbfPut 0x0A#8, .sbfEnd]).out.sbfOut =
    [2#8, 0x30#8, 0x0A#8, 0#8] := by decide
theorem test_sbfEnd_empty : (after [.sbfBegin, .sbfEnd]).out.sbfOut = [0#8] := by decide
/-- R150's examples. -/
theorem test_lzdBegin_1 : reads .lzdStatus [.lzdBegin 1#8] = some 0x10303#64 := by decide
theorem test_lzdBegin_8_next : reads .lzdNext [.lzdBegin 8#8] = some 257#64 := by decide
/-- R151's example: codes 0 and 6 at width 3, the second the code that equals the table size (R157). -/
theorem test_lzdFeed_kwk : (after [.lzdBegin 2#8, .lzdFeed 0x30#8]).out.lzdOut = [0#8, 0#8, 0#8] := by decide
/-- R158's example. -/
theorem test_lzdFeed_invalid : reads .lzdStatus [.lzdBegin 2#8, .lzdFeed 6#8] = some 0x60403#64 := by decide
/-- R163's example. -/
theorem test_lzdFinish_missing_end :
    reads .lzdStatus [.lzdBegin 2#8, .lzdFeed 0#8, .lzdFinish] = some 0x503#64 := by decide
/-- R190's example. -/
theorem test_lzeBegin_leading_clear : reads .lzeBits [.cfg 8#6, .lzeBegin 2#8] = some 0x400000003#64 := by decide
/-- R192's and R198's examples. -/
theorem test_lzeFeed_bits :
    reads .lzeBits [.lzeBegin 2#8, .lzeFeed 0#8, .lzeFeed 0#8, .lzeFeed 0#8, .lzeFeed 0#8] = some 0x3000000006#64 := by decide
theorem test_lzeFinish : (after [.lzeBegin 2#8, .lzeFeed 0#8, .lzeFeed 0#8, .lzeFeed 0#8, .lzeFeed 0#8,
    .lzeFinish]).out.lzeOut = [0x30#8, 0x0A#8] := by decide
/-- R199's examples. -/
theorem test_lzeFinish_empty : (after [.cfg 8#6, .lzeBegin 2#8, .lzeFinish]).out.lzeOut = [0x2C#8] := by decide
/-- R230's example. -/
theorem test_cmpScreen : reads .cmpScreen [.cmpScreen 2#16 2#16] = some 0x20002#64 := by decide
theorem test_cmpScreen_too_large : reads .cmpStatus [.cmpScreen 1025#16 1024#16] = some 0x703#64 := by decide
theorem test_cmpCtSize : reads .cmpLctSize [.cmpCtSize .lct 256#9] = some 256#64 := by decide
theorem test_cmpCtWrite_lct :
    response (result (.rdCt .lct 255#8) (after [.cmpCtWrite .lct 255#8 1#8 2#8 3#8])) = some 0x010203#64 := by decide
/-- R233's example. -/
theorem test_cmpGce : reads .cmpGce [.cmpGce 2#3 false true 3#8 10#16] = some 0x10903000A#64 := by decide
theorem test_cmpImagePos : reads .cmpImgPos [.cmpImagePos 1#16 0#16] = some 0x10000#64 := by decide
theorem test_cmpImageBegin : reads .cmpImgSize [.cmpImageBegin true 3#16 4#16] = some 0x1000000030004#64 := by decide
theorem test_cmpImageBegin_zero_area : reads .cmpFrameCount [.cmpImageBegin false 0#16 4#16] = some 1#64 := by decide
/-- A table colour has alpha 255 (R241); an index beyond the table is transparent black (R240). -/
theorem test_cmpPixel_colour : (after [.cmpScreen 2#16 1#16, .cmpCtSize .gct 2#9, .cmpCtWrite .gct 1#8 0xFF#8 0#8 0#8,
    .cmpImageBegin false 2#16 1#16, .cmpPixel 1#8, .cmpPixel 2#8]).out.frameOut =
    [.frame 2#16 1#16 [⟨255#8, 0#8, 0#8, 255#8⟩, ⟨0#8, 0#8, 0#8, 0#8⟩] 0#16] := by decide
theorem test_cmpPixel_surplus : reads .cmpPixCount
    [.cmpScreen 1#16 1#16, .cmpImageBegin false 1#16 1#16, .cmpPixel 0#8, .cmpPixel 0#8] = some 1#64 := by decide
/-- R244's example. -/
theorem test_cmpImageEnd_short :
    reads .cmpStatus [.cmpImageBegin false 2#16 2#16, .cmpPixel 0#8, .cmpImageEnd] = some 0x803#64 := by decide
theorem test_cmpFinish : (after [.cmpFinish]).out.frameOut = [.finished] := by decide

/-! ## States that meet the hypotheses of the statements -/

theorem witness_DecodeEncode : ∃ i : Instr, i.wellFormed = true := ⟨.cmpCtSize .lct 256#9, by decide⟩

theorem witness_EncodeDecode : ∃ (c : Word) (i : Instr), decode c = .ok i ∧ i.opcode = 0x43#8 :=
  ⟨0x43000000E903000A#64, .cmpGce 2#3 false true 3#8 10#16, by decide⟩

theorem witness_StepRunsCommand : ∃ (s : State) (c : Word) (ws : List Word) (i : Instr),
    s.port = c :: ws ∧ decode c = .ok i :=
  ⟨{ State.reset with port := [0x1000000000000000#64, 0#64] }, 0x1000000000000000#64, [0#64], .sbuBegin, rfl, by decide⟩

/-- An unassigned opcode, an unassigned register, a table size of 257, and the pixel (0, 0) of the empty canvas. -/
theorem witness_StepOnIllegalWord :
    ¬ matchesRow 0x0600000000000000#64 ∧ ¬ wordConstraint 0x0300000000000003#64 ∧ ¬ wordConstraint 0x4100000000000101#64 ∧
    ¬ canvasConstraint State.reset 0x0400000000000000#64 ∧
    ∃ (s : State) (c : Word) (ws : List Word), s.port = c :: ws ∧
      ¬ (matchesRow c ∧ wordConstraint c ∧ canvasConstraint s c) := by
  refine ⟨by unfold matchesRow; decide, by unfold wordConstraint; decide, by unfold wordConstraint; decide,
    by unfold canvasConstraint; decide, { State.reset with port := [0x0600000000000000#64] }, _, _, rfl, ?_⟩
  unfold matchesRow
  exact fun h => absurd h.1 (by decide)

theorem witness_EmptyPortIdles : ∃ s : State, s.port = [] := ⟨State.reset, rfl⟩

theorem witness_ResetIsPowerOn : ∃ r : Reg, r ≠ .canvasCap := ⟨.sysStatus, by decide⟩

/-- The last pixel of a canvas, and the pixels one beyond it to the right and below. -/
theorem witness_RdCanvasReads : ∃ s : State,
    ((1#16).toNat < s.cmp.screenW.toNat ∧ (2#16).toNat < s.cmp.screenH.toNat) ∧
    s.cmp.screenW.toNat ≤ (2#16).toNat ∧ s.cmp.screenH.toNat ≤ (3#16).toNat :=
  ⟨after [.cmpScreen 2#16 3#16], by decide⟩

theorem witness_EveryCommandResponds : isRead .nop = false := by decide

theorem witness_PhaseChecks : ∃ (i : Instr) (u : UnitId) (s : State), i.wellFormed = true ∧ targetOf i = some u ∧
    (s.status u).phase ≠ .err ∧ accepts i (s.status u).phase = false :=
  ⟨.cmpCtSize .gct 256#9, .cmp, after [.cmpImageBegin false 1#16 1#16], by decide⟩

/-- Each unit in ERR. -/
theorem witness_ErrIgnores :
    (∃ (i : Instr) (u : UnitId) (s : State), i.wellFormed = true ∧ targetOf i = some u ∧ isBegin i = false ∧
      (s.status u).phase = .err) ∧
    (∃ s : State, s.lzd.st.phase = .err) ∧ (∃ s : State, s.cmp.st.phase = .err) ∧ (∃ s : State, s.sbf.st.phase = .err) :=
  ⟨⟨.sbuFeed 0#8, .sbu, after [.sbuFeed 0#8], by decide⟩, ⟨after [.lzdFinish], by decide⟩,
    ⟨after [.cmpImageEnd], by decide⟩, ⟨after [.sbfEnd], by decide⟩⟩

/-- A BEGIN of another unit, and a forwarded command to the unit in ERR. -/
theorem witness_ErrStaysUntilBegin :
    (∃ (i : Instr) (u : UnitId) (s t : State), (s.status u).phase = .err ∧ exec i s = .next t ∧ i ≠ .reset ∧
      ¬ (targetOf i = some u ∧ isBegin i = true)) ∧
    (∃ (s t : State), (s.status .cmp).phase = .err ∧ lzdToCmp s = true ∧ exec (.lzdFeed 0x30#8) s = .next t ∧
      t.lzd.prev = some 6#12) :=
  ⟨⟨.sbuBegin, .lzd, after [.lzdFinish], _, by decide, rfl, by decide, by decide⟩,
    ⟨after [.cfg 2#6, .cmpImageEnd, .lzdBegin 2#8], _, by decide, by decide, rfl, by decide⟩⟩

/-- Two blocks with the same SBU, LZD and LZE that differ in the routes and in the units behind them. -/
theorem witness_ErrorsDoNotPropagate :
    (∃ s s' t t' : State, s.sbu = s'.sbu ∧ exec (.sbuFeed 1#8) s = .next t ∧ exec (.sbuFeed 1#8) s' = .next t') ∧
    (∃ s s' t t' : State, targetOf (.lzdFeed 0#8) = some .lzd ∧ s.lzd = s'.lzd ∧
      s.config.getLsbD 4 = s'.config.getLsbD 4 ∧ exec (.lzdFeed 0#8) s = .next t ∧ exec (.lzdFeed 0#8) s' = .next t') ∧
    (∃ s s' t t' : State, targetOf .lzeFinish = some .lze ∧ s.lze = s'.lze ∧
      s.config.getLsbD 3 = s'.config.getLsbD 3 ∧ exec .lzeFinish s = .next t ∧ exec .lzeFinish s' = .next t') :=
  ⟨⟨after [.sbuBegin], after [.cfg 1#6, .sbuBegin], _, _, by decide, rfl, rfl⟩,
    ⟨after [.lzdBegin 2#8], after [.cfg 2#6, .lzdBegin 2#8], _, _, by decide, by decide, by decide, rfl, rfl⟩,
    ⟨after [.lzeBegin 2#8], after [.cfg 4#6, .lzeBegin 2#8], _, _, by decide, by decide, by decide, rfl, rfl⟩⟩

theorem witness_ChannelsOnlyGrow : ∃ (i : Instr) (s t : State), exec i s = .next t :=
  ⟨.cmpFinish, State.reset, _, rfl⟩

/-- A command of each unit, with its routes off. -/
theorem witness_UnitFrames :
    (∃ s t : State, (Instr.sbuFeed 1#8).wellFormed = true ∧ exec (.sbuFeed 1#8) s = .next t ∧
      targetOf (.sbuFeed 1#8) = some .sbu ∧ s.config.getLsbD 0 = false ∧ s.config.getLsbD 1 = false) ∧
    (∃ s t : State, exec (.sbfPut 1#8) s = .next t ∧ targetOf (.sbfPut 1#8) = some .sbf) ∧
    (∃ s t : State, exec (.lzdFeed 1#8) s = .next t ∧ targetOf (.lzdFeed 1#8) = some .lzd ∧ s.config.getLsbD 1 = false) ∧
    (∃ s t : State, exec (.lzeFeed 1#8) s = .next t ∧ targetOf (.lzeFeed 1#8) = some .lze ∧ s.config.getLsbD 2 = false) ∧
    (∃ s t : State, (Instr.cmpCtSize .gct 256#9).wellFormed = true ∧ exec (.cmpCtSize .gct 256#9) s = .next t ∧
      targetOf (.cmpCtSize .gct 256#9) = some .cmp) :=
  ⟨⟨after [.sbuBegin], _, by decide, rfl, by decide⟩, ⟨after [.sbfBegin], _, rfl, by decide⟩,
    ⟨after [.lzdBegin 2#8], _, rfl, by decide⟩, ⟨after [.lzeBegin 2#8], _, rfl, by decide⟩,
    ⟨State.reset, _, by decide, rfl, by decide⟩⟩

theorem witness_SysStateIsSticky : ∃ (i : Instr) (s t : State), i.wellFormed = true ∧ exec i s = .next t ∧ i ≠ .reset ∧
    (∀ x y, i = .rdCanvas x y → x.toNat < s.cmp.screenW.toNat ∧ y.toNat < s.cmp.screenH.toNat) ∧ (∀ c, i ≠ .cfg c) := by
  refine ⟨.rdCanvas 1#16 2#16, after [.cmpScreen 2#16 3#16], _, by decide, rfl, by decide, ?_, by simp⟩
  intro x y h
  cases h
  decide

/-- A legal state, made of the parts' own lemmas. -/
theorem witness_inv : Inv (State.reset.setConfig 3#6) :=
  ⟨by decide, fun _ => rfl, fun u => by cases u <;> exact UnitStatus.reset_ok, ⟨by decide, rfl, rfl⟩, Lzd.reset_ok,
    Lze.reset_ok, Cmp.reset_ok _⟩

theorem witness_StepKeepsLegal : ∃ s t : State, Inv s ∧ step s = .next t := ⟨_, _, witness_inv, rfl⟩

/-- A state for each clause of R121: the smallest and the largest length, the last byte of a block, and both routes. -/
theorem witness_SbuFeed :
    (∃ s : State, s.sbu.st.phase = .err) ∧ (∃ s : State, s.sbu.st.phase = .idle) ∧ (∃ s : State, s.sbu.st.phase = .done) ∧
    (∃ s : State, s.sbu.st.phase = .active ∧ s.sbu.count = 0#8 ∧ (1#8 : Byte) ≠ 0#8 ∧ (255#8 : Byte) ≠ 0#8 ∧
      s.config.getLsbD 0 = false) ∧
    (∃ s : State, s.sbu.st.phase = .active ∧ s.sbu.count = 0#8 ∧ s.config.getLsbD 0 = true) ∧
    (∃ s : State, s.sbu.st.phase = .active ∧ s.sbu.count = 1#8 ∧ s.sbu.count ≠ 0#8 ∧ s.config.getLsbD 0 = false) ∧
    (∃ s : State, s.sbu.st.phase = .active ∧ s.sbu.count = 255#8 ∧ s.sbu.count ≠ 0#8 ∧ s.config.getLsbD 0 = true) :=
  ⟨⟨after [.sbuFinish], by decide⟩, ⟨State.reset, by decide⟩, ⟨after [.sbuBegin, .sbuFeed 0#8], by decide⟩,
    ⟨after [.sbuBegin], by decide⟩, ⟨after [.cfg 1#6, .sbuBegin], by decide⟩,
    ⟨after [.sbuBegin, .sbuFeed 1#8], by decide⟩, ⟨after [.cfg 1#6, .sbuBegin, .sbuFeed 255#8], by decide⟩⟩

theorem witness_SbuFinish :
    (∃ s : State, s.sbu.st.phase = .err ∨ s.sbu.st.phase = .done) ∧ (∃ s : State, s.sbu.st.phase = .idle) ∧
    (∃ s : State, s.sbu.st.phase = .active ∧ s.sbu.count = 255#8) :=
  ⟨⟨after [.sbuFinish], by decide⟩, ⟨State.reset, by decide⟩, ⟨after [.sbuBegin, .sbuFeed 255#8], by decide⟩⟩

/-- The empty buffer, one place below the last, and the last place. -/
theorem witness_SbfPut : ∀ n : BitVec 8, n.toNat ≤ 254 → ∃ s : State, s.sbf.st.phase = .active ∧ s.sbf.fill = n ∧
    s.sbf.fill.toNat ≤ 254 :=
  fun n h => ⟨(after [.sbfBegin]).setSbf { (after [.sbfBegin]).sbf with fill := n }, rfl, rfl, h⟩

theorem witness_SbfEnd : (∃ s : State, s.sbf.st.phase = .active ∧ s.sbf.fill = 0#8) ∧
    (∃ s : State, s.sbf.st.phase = .active ∧ s.sbf.fill = 1#8) :=
  ⟨⟨after [.sbfBegin], by decide⟩, ⟨after [.sbfBegin, .sbfPut 7#8], by decide⟩⟩

/-- The phases of the clauses of `SbfPut` and `SbfEnd` that turn the command away. -/
theorem witness_SbfPut_SbfEnd_phases : (∃ s : State, s.sbf.st.phase = .err) ∧ (∃ s : State, s.sbf.st.phase = .idle) ∧
    (∃ s : State, s.sbf.st.phase = .done) :=
  ⟨⟨after [.sbfEnd], by decide⟩, ⟨State.reset, by decide⟩, ⟨after [.sbfBegin, .sbfEnd], by decide⟩⟩

/-- A word of opcode 0x00 that is not `NOP`'s. -/
theorem witness_NopDoesNothing : ∃ c : Word, c.extractLsb' 56 8 = 0x00#8 ∧ c ≠ 0x0000000000000000#64 :=
  ⟨0x0080000000000000#64, by decide⟩

/-- For the third clause, a block of every length between two short ones. -/
theorem witness_UnframingLaw :
    (∀ n, 1 ≤ n → n ≤ 255 → ∃ (s : State) (blocks : List (List Byte)), s.config.getLsbD 0 = false ∧
      (∀ b ∈ blocks, 1 ≤ b.length ∧ b.length ≤ 255) ∧ blocks.map List.length = [1, n, 2]) ∧
    (∃ s : State, s.config.getLsbD 0 = false) ∧
    (∃ (s t : State) (xs : List Byte), s.config.getLsbD 0 = false ∧
      runCommands (.sbuBegin :: xs.map Instr.sbuFeed) s = some t ∧ t.sbu.st.phase = .done) ∧
    (∃ (n : Nat) (s u : State) (d : List Byte), n < (framed d).length ∧
      runCommands (.sbuBegin :: ((framed d).take n).map Instr.sbuFeed) s = some u) :=
  ⟨fun n h1 h2 => ⟨State.reset, [[9#8], List.replicate n 7#8, [0#8, 0#8]], by decide, by simp [h1, h2], by simp⟩,
    ⟨State.reset, by decide⟩, ⟨State.reset, _, [1#8, 9#8, 2#8, 9#8, 9#8, 0#8], by decide, rfl, by decide⟩,
    ⟨2, State.reset, _, [7#8], by decide, rfl⟩⟩

/-- The smallest and the largest code size, and the two just outside. -/
theorem witness_LzdBegin : (2 ≤ (2#8).toNat ∧ (2#8).toNat ≤ 8) ∧ (2 ≤ (8#8).toNat ∧ (8#8).toNat ≤ 8) ∧
    (1#8).toNat < 2 ∧ 8 < (9#8).toNat := by decide

/-- An ACTIVE decoder with a registered entry: after the codes 0 and 6 at code size 2. -/
def decoding : State := lzdFeed 0x30#8 (lzdBegin 2#8 State.reset)

theorem decoding_ok : decoding.lzd.Ok := lzdFeed_ok _ (lzdBegin_ok _ Lzd.reset_ok)

theorem decoding_active : decoding.lzd.st.phase = .active := by decide

theorem decoding_tableOk : decoding.lzd.TableOk := decoding_ok.table (.inl decoding_active)

theorem witness_LzdFeedReads : ∃ s : State, s.lzd.Ok ∧ s.lzd.st.phase = .active :=
  ⟨decoding, decoding_ok, decoding_active⟩

theorem witness_LzdFeedAfterEnd : (∃ s : State, s.lzd.st.phase = .done) ∧ (∃ s : State, s.lzd.st.phase = .err) ∧
    (∃ s : State, s.lzd.st.phase = .idle) :=
  ⟨⟨after [.lzdBegin 2#8, .lzdFeed 0x05#8], by decide⟩, ⟨after [.lzdFinish], by decide⟩, ⟨State.reset, by decide⟩⟩

/-- The largest literal, and the registered code. -/
theorem witness_ExpansionIsTheChain : decoding.lzd.TableOk ∧
    isDataCode decoding.lzd.cs.toNat decoding.lzd.next.toNat 3 ∧
    isDataCode decoding.lzd.cs.toNat decoding.lzd.next.toNat 6 :=
  ⟨decoding_tableOk, by unfold isDataCode; decide, by unfold isDataCode; decide⟩

theorem decoding_expands_6 : Expands decoding.lzd 6 [0#8, 0#8] := by
  have h : Expands decoding.lzd 6 ([BitVec.ofNat 8 (decoding.lzd.prefixAt 6).toNat] ++ [decoding.lzd.suffixAt 6]) :=
    .slot (by decide) (.literal (by decide))
  have h1 : [BitVec.ofNat 8 (decoding.lzd.prefixAt 6).toNat] ++ [decoding.lzd.suffixAt 6] = [0#8, 0#8] := by decide
  rwa [h1] at h

theorem witness_TableSizeCodeEntry : ∃ (d d' : Lzd) (p : Code) (e : List Byte) (x : Byte), d.TableOk ∧ d.full = false ∧
    d.prev = some p ∧ Expands d p.toNat e ∧ e.head? = some x ∧ Grows d d.next.toNat x d' :=
  ⟨decoding.lzd, _, 6#12, [0#8, 0#8], 0#8, decoding_tableOk, by decide, by decide, decoding_expands_6, rfl,
    grown_grows _ [0#8] decoding_tableOk⟩

theorem witness_WidthLaw : (∃ s : State, s.lzd.TableOk ∧ s.lzd.st.phase = .active) ∧ 2 ≤ (2#8).toNat ∧ (8#8).toNat ≤ 8 :=
  ⟨⟨decoding, decoding_tableOk, decoding_active⟩, by decide⟩

/-- Every clause of R163. -/
theorem witness_LzdFinish :
    (∃ s : State, s.lzd.st.phase = .err) ∧ (∃ s : State, s.lzd.st.phase = .idle) ∧
    (∃ s : State, s.lzd.st.phase = .active ∧ s.config.getLsbD 4 = false) ∧
    (∃ s : State, s.lzd.st.phase = .active ∧ s.config.getLsbD 4 = true ∧ s.config.getLsbD 1 = false) ∧
    (∃ s : State, s.lzd.st.phase = .active ∧ s.config.getLsbD 4 = true ∧ s.config.getLsbD 1 = true) ∧
    (∃ s : State, s.lzd.st.phase = .done ∧ s.config.getLsbD 1 = false) ∧
    (∃ s : State, s.lzd.st.phase = .done ∧ s.config.getLsbD 1 = true) :=
  ⟨⟨after [.lzdFinish], by decide⟩, ⟨State.reset, by decide⟩, ⟨after [.lzdBegin 2#8], by decide⟩,
    ⟨after [.cfg 0x10#6, .lzdBegin 2#8], by decide⟩, ⟨after [.cfg 0x12#6, .lzdBegin 2#8], by decide⟩,
    ⟨after [.lzdBegin 2#8, .lzdFeed 5#8], by decide⟩, ⟨after [.cfg 2#6, .lzdBegin 2#8, .lzdFeed 5#8], by decide⟩⟩

theorem witness_LzeBegin : ((1#8).toNat < 2 ∧ 8 < (9#8).toNat) ∧
    (∃ s : State, (2 ≤ (2#8).toNat ∧ (2#8).toNat ≤ 8) ∧ s.config.getLsbD 3 = false) ∧
    (∃ s : State, (2 ≤ (8#8).toNat ∧ (8#8).toNat ≤ 8) ∧ s.config.getLsbD 3 = true) :=
  ⟨by decide, ⟨State.reset, by decide⟩, ⟨after [.cfg 8#6], by decide⟩⟩

/-- The smallest byte that is no literal, the largest literal as first byte, and a hit. -/
theorem witness_LzeFeedNoCode :
    (∃ s : State, s.lze.st.phase = .active ∧ 2 ^ s.lze.cs.toNat ≤ (4#8).toNat) ∧
    (∃ s : State, s.lze.st.phase = .active ∧ (3#8).toNat < 2 ^ s.lze.cs.toNat ∧ s.lze.pend = none) ∧
    (∃ s : State, s.lze.st.phase = .active ∧ (0#8).toNat < 2 ^ s.lze.cs.toNat ∧ s.lze.pend = some 0#12 ∧
      hashLookup s.lze.ht 0#12 0#8 = some 6#12) :=
  ⟨⟨after [.lzeBegin 2#8], by decide⟩, ⟨after [.lzeBegin 2#8], by decide⟩,
    ⟨after [.lzeBegin 2#8, .lzeFeed 0#8, .lzeFeed 0#8], by decide⟩⟩

/-- An ACTIVE encoder with a pending code. -/
def encoding : State := lzeFeed 0#8 (lzeBegin 2#8 State.reset)

theorem encoding_ok : encoding.lze.Ok := lzeFeed_ok _ (lzeBegin_ok _ Lze.reset_ok)

theorem witness_LzeFeedMiss : ∃ (s : State) (b : Byte) (p : Code), s.lze.Ok ∧ s.lze.st.phase = .active ∧
    b.toNat < 2 ^ s.lze.cs.toNat ∧ s.lze.pend = some p ∧ hashLookup s.lze.ht p b = none ∧ s.lze.next.toNat + 1 ≠ 4096 :=
  ⟨encoding, 3#8, 0#12, encoding_ok, by decide⟩

/-- An ACTIVE encoder one code below the ceiling, with an empty dictionary. -/
def nearCeiling : Lze :=
  { st := .started, cs := 8#4, w := 12#4, next := 4095#13, pend := some 255#12, acc := 0x7F#32, nbits := 7#5, ht := [] }

theorem nearCeiling_streamOk : nearCeiling.StreamOk where
  cs_lo := by decide
  cs_hi := by decide
  w_lo := by decide
  w_hi := by decide
  next_lo := by decide
  next_hi := by decide
  w_next := by decide
  next_w := by decide
  nbits := by decide
  acc := by decide
  pend := by simp [nearCeiling]
  pend_is := by
    intro p hp
    have : p = 255#12 := by simpa [nearCeiling] using hp.symm
    subst this
    exact .inl (by decide)
  codes := by simp [nearCeiling]
  distinct := by simp [nearCeiling]

theorem nearCeiling_ok : nearCeiling.Ok :=
  ⟨by decide, by decide, rfl, fun _ => by decide, fun _ => nearCeiling_streamOk⟩

theorem witness_LzeFeedCeiling : ∃ (s : State) (b : Byte) (p : Code), s.lze.Ok ∧ s.lze.st.phase = .active ∧
    b.toNat < 2 ^ s.lze.cs.toNat ∧ s.lze.pend = some p ∧ hashLookup s.lze.ht p b = none ∧ s.lze.next.toNat + 1 = 4096 :=
  ⟨State.reset.setLze nearCeiling, 255#8, 255#12, nearCeiling_ok, by decide⟩

/-- R195 at the ceiling: the pending code and the clear code at 12 bits above the 7 bits held, then the post-clear values. -/
theorem test_lzeFeed_ceiling :
    (lzeFeed 1#8 (State.reset.setLze nearCeiling)).lze =
      { nearCeiling with w := 9#4, next := 257#13, pend := some 1#12, acc := 8#32, nbits := 7#5 } := by decide

/-- An encoder with a pending code and one without, and both routes. -/
theorem witness_LzeFinish :
    (∃ (s : State) (p : Code), s.lze.Ok ∧ s.lze.st.phase = .active ∧ s.lze.pend = some p ∧ s.config.getLsbD 2 = false) ∧
    (∃ s : State, s.lze.Ok ∧ s.lze.st.phase = .active ∧ s.lze.pend = none ∧ s.config.getLsbD 2 = true) :=
  ⟨⟨encoding, 0#12, encoding_ok, by decide⟩,
    ⟨lzeBegin 2#8 (State.reset.setConfig 4#6), lzeBegin_ok _ Lze.reset_ok, by decide⟩⟩

/-- The phases of the clauses of `LzeFinish` and `LzeFeedNoCode` that turn the command away. -/
theorem witness_LzeFeed_LzeFinish_phases : (∃ s : State, s.lze.st.phase = .err) ∧ (∃ s : State, s.lze.st.phase = .idle) ∧
    (∃ s : State, s.lze.st.phase = .done) :=
  ⟨⟨after [.lzeFinish], by decide⟩, ⟨State.reset, by decide⟩, ⟨after [.lzeBegin 2#8, .lzeFinish], by decide⟩⟩

theorem witness_EmptyInput : (∃ s : State, 2 ≤ (8#8).toNat ∧ (8#8).toNat ≤ 8 ∧ s.config.getLsbD 2 = false ∧
      s.config.getLsbD 3 = false) ∧
    (∃ s : State, 2 ≤ (2#8).toNat ∧ (2#8).toNat ≤ 8 ∧ s.config.getLsbD 2 = false ∧ s.config.getLsbD 3 = true) :=
  ⟨⟨State.reset, by decide⟩, ⟨after [.cfg 8#6], by decide⟩⟩

/-- Two keys that differ in the byte alone. -/
theorem witness_HashTableIsTheMap : ∃ ops : List (Code × Byte × Code), ops.length < 16384 ∧
    (ops.map (fun o => (o.1, o.2.1))).Nodup :=
  ⟨[(0#12, 0#8, 6#12), (0#12, 1#8, 7#12)], by decide⟩

theorem witness_RoundTrip : ∃ (s u : State) (cs : Byte) (d : List Byte), 2 ≤ cs.toNat ∧ cs.toNat ≤ 8 ∧
    (∀ b ∈ d, b.toNat < 2 ^ cs.toNat) ∧ s.config.getLsbD 2 = false ∧ u.config.getLsbD 1 = false :=
  ⟨State.reset, State.reset, 2#8, [0#8, 3#8, 0#8, 3#8, 0#8], by decide⟩

/-- The largest canvas, and one pixel more than it (R230). -/
theorem witness_CmpScreen : ∃ (s : State) (w h w' h' : BitVec 16), w.toNat * h.toNat = s.canvasCap.toNat ∧
    w'.toNat * h'.toNat = s.canvasCap.toNat + 1 :=
  ⟨{ State.reset with canvasCap := 15#32 }, 3#16, 5#16, 4#16, 4#16, by decide⟩

theorem witness_CmpTables : 256 < (257#9).toNat ∧ (256#9).toNat ≤ 256 ∧ ∃ s : State, s.cmp.st.phase = .idle :=
  ⟨by decide, by decide, State.reset, by decide⟩

/-- The phases of the clauses of `CmpTables`, `CmpGceAndPosition`, `CmpImageBegin`, `CmpPixel` and `CmpEnds` that turn the command
away. -/
theorem witness_Cmp_phases : (∃ s : State, s.cmp.st.phase = .err) ∧ (∃ s : State, s.cmp.st.phase = .idle) ∧
    (∃ s : State, s.cmp.st.phase = .active) ∧ (∃ s : State, s.cmp.st.phase = .done) :=
  ⟨⟨after [.cmpImageEnd], by decide⟩, ⟨State.reset, by decide⟩, ⟨after [.cmpImageBegin false 1#16 1#16], by decide⟩,
    ⟨after [.cmpImageBegin false 0#16 0#16], by decide⟩⟩

theorem witness_CmpGceAndPosition : ∃ s : State, s.cmp.st.phase = .idle := ⟨State.reset, by decide⟩

theorem witness_CmpImageBegin : (∃ s : State, s.cmp.st.phase = .idle) ∧ (1#16).toNat * (1#16).toNat ≠ 0 ∧
    (0#16).toNat * (65535#16).toNat = 0 := ⟨⟨State.reset, by decide⟩, by decide, by decide⟩

/-- A finished image; an image before its last pixel, and at its last pixel. -/
theorem witness_CmpPixel :
    (∃ s : State, s.cmp.st.phase = .done) ∧
    (∃ s : State, s.cmp.st.phase = .active ∧ s.cmp.pixCount.toNat < s.cmp.imgW.toNat * s.cmp.imgH.toNat ∧
      s.cmp.pixCount.toNat + 1 ≠ s.cmp.imgW.toNat * s.cmp.imgH.toNat) ∧
    (∃ s : State, s.cmp.st.phase = .active ∧ s.cmp.pixCount.toNat < s.cmp.imgW.toNat * s.cmp.imgH.toNat ∧
      s.cmp.pixCount.toNat + 1 = s.cmp.imgW.toNat * s.cmp.imgH.toNat) :=
  ⟨⟨after [.cmpImageBegin false 0#16 0#16], by decide⟩, ⟨after [.cmpImageBegin false 2#16 1#16], by decide⟩,
    ⟨after [.cmpImageBegin false 2#16 1#16, .cmpPixel 0#8], by decide⟩⟩

theorem witness_CmpEnds :
    (∃ s : State, s.cmp.st.phase = .done) ∧ (∃ s : State, s.cmp.st.phase = .active ∧ s.config.getLsbD 5 = false) ∧
    (∃ s : State, s.cmp.st.phase = .active ∧ s.config.getLsbD 5 = true) ∧ (∃ s : State, s.cmp.st.phase = .idle) :=
  ⟨⟨after [.cmpImageBegin false 0#16 0#16], by decide⟩, ⟨after [.cmpImageBegin false 2#16 1#16], by decide⟩,
    ⟨after [.cfg 0x20#6, .cmpImageBegin false 2#16 1#16], by decide⟩, ⟨State.reset, by decide⟩⟩

/-- Two blocks that differ in the disposal method alone, with and without the command that reads it. -/
theorem witness_DisposalHasNoEffect :
    SameButDisposal (after [.cmpGce 1#3 false true 3#8 9#16]) (after [.cmpGce 2#3 false true 3#8 9#16]) ∧
    after [.cmpGce 1#3 false true 3#8 9#16] ≠ after [.cmpGce 2#3 false true 3#8 9#16] ∧
    (Instr.cmpPixel 3#8) ≠ .rdReg .cmpGce :=
  ⟨by unfold SameButDisposal; decide, by decide, by decide⟩

theorem witness_ImageLaw : ∃ (s : State) (w h : BitVec 16) (px : List Byte), s.cmp.st.phase = .idle ∧
    px.length = w.toNat * h.toNat ∧ 0 < px.length :=
  ⟨after [.cmpScreen 2#16 2#16], 2#16, 1#16, [0#8, 1#8], by decide⟩

theorem witness_TransparencyLaw : ∃ (s : State) (w1 h1 w2 h2 : BitVec 16) (px1 px2 : List Byte) (loads : List Instr),
    s.cmp.st.phase = .idle ∧ px1.length = w1.toNat * h1.toNat ∧ px2.length = w2.toNat * h2.toNat ∧
    (∀ i ∈ loads, (∃ t n, i = .cmpCtSize t n) ∨ ∃ t j r g b, i = .cmpCtWrite t j r g b) ∧
    0 < s.cmp.screenW.toNat ∧ 0 < s.cmp.screenH.toNat ∧ px2[0]? = some 3#8 :=
  ⟨after [.cmpScreen 1#16 1#16], 1#16, 1#16, 1#16, 1#16, [0#8], [3#8], [.cmpCtSize .lct 4#9], by decide, by decide, by decide,
    by simp, by decide, by decide, by decide⟩

theorem witness_RouteLzdToCmp : ∃ s s0 : State, s.config.getLsbD 1 = true ∧
    s0 = { s with config := s.config &&& 0b111101#6 } ∧ s.lzd.st.phase = .active :=
  ⟨after [.cfg 2#6, .lzdBegin 2#8], _, by decide, rfl, by decide⟩

theorem witness_RouteLzeToSbf : ∃ (i : Instr) (s s0 : State), targetOf i = some .lze ∧ s.config.getLsbD 2 = true ∧
    s0 = { s with config := s.config &&& 0b111011#6 } ∧ i = .lzeFinish ∧ s.lze.st.phase = .active :=
  ⟨.lzeFinish, after [.cfg 4#6, .lzeBegin 2#8], _, by decide, by decide, rfl, rfl, by decide⟩

end Sys2Proof.Tests
end

section
/-! What a command can do, said once for all 27, and the two statements about every step that follow from it: SYS state is sticky (R24, R25),
and a legal block stays legal (R26 to R42, R68, R70, R164). -/

namespace Sys2Proof.Machine

/-! ## What a command can do -/

/-- The rule of a unit's command, run by the host or by a `Forward` (R78); the SYS commands address no unit. -/
def unitRule (s : State) : Instr → State
  | .nop | .reset | .cfg _ | .rdReg _ | .rdCanvas _ _ | .rdCt _ _ => s
  | .sbuBegin => sbuBegin s
  | .sbuFeed b => sbuFeed b s
  | .sbuFinish => sbuFinish s
  | .sbfBegin => sbfBegin s
  | .sbfPut b => sbfPut b s
  | .sbfEnd => sbfEnd s
  | .lzdBegin cs => lzdBegin cs s
  | .lzdFeed b => lzdFeed b s
  | .lzdFinish => lzdFinish s
  | .lzeBegin cs => lzeBegin cs s
  | .lzeFeed b => lzeFeed b s
  | .lzeFinish => lzeFinish s
  | .cmpScreen w h => cmpScreen w h s
  | .cmpCtSize t n => cmpCtSize t n s
  | .cmpCtWrite t i r g bl => cmpCtWrite t i r g bl s
  | .cmpGce d u f ti dl => cmpGce d u f ti dl s
  | .cmpImagePos left top => cmpImagePos left top s
  | .cmpImageBegin l w h => cmpImageBegin l w h s
  | .cmpPixel idx => cmpPixel idx s
  | .cmpImageEnd => cmpImageEnd s
  | .cmpFinish => cmpFinish s

/-- `ExecResult s i t`: the command `i` may take the block from `s` to `t`, by the kind of command it is. -/
inductive ExecResult (s : State) : Instr → State → Prop
  /-- A unit's command runs its rule and responds 0 (R280). -/
  | unit {i : Instr} {u : UnitId} (hu : targetOf i = some u) (hw : i.wellFormed = true) :
      ExecResult s i (respond 0#64 (unitRule s i))
  /-- `NOP` and the reads only respond (R79, R281). -/
  | answered {i : Instr} (v : Word) (hi : i = .nop ∨ isRead i = true) : ExecResult s i (respond v s)
  | reset : ExecResult s .reset (respond 0#64 (resetBlock s))
  | cfg (c : BitVec 6) : ExecResult s (.cfg c) (respond 0#64 (s.setConfig c))
  /-- `RD_CANVAS` off the canvas (R285). -/
  | offCanvas {x y : BitVec 16} (h : s.cmp.onCanvas x.toNat y.toNat = false) :
      ExecResult s (.rdCanvas x y) (illegalCommand 0x04#8 s)
  /-- A table size that no word spells (R94). -/
  | badTableSize {t : Table} {n : BitVec 9} (h : (Instr.cmpCtSize t n).wellFormed = false) :
      ExecResult s (.cmpCtSize t n) (illegalCommand 0x41#8 s)

/-- Every command completes (R280, R357), in one of the ways of `ExecResult`. -/
theorem exec_result (s : State) : ∀ i : Instr, ∃ t, exec i s = .next t ∧ ExecResult s i t
  | .nop => ⟨_, rfl, .answered _ (.inl rfl)⟩
  | .rdReg _ | .rdCt _ _ => ⟨_, rfl, .answered _ (.inr rfl)⟩
  | .reset => ⟨_, rfl, .reset⟩
  | .cfg c => ⟨_, rfl, .cfg c⟩
  | .rdCanvas x y => by
    cases h : s.cmp.onCanvas x.toNat y.toNat with
    | true => exact ⟨_, if_pos h, .answered _ (.inr rfl)⟩
    | false => exact ⟨_, if_neg (by simp [h]), .offCanvas h⟩
  | .cmpCtSize t n => by
    by_cases h : n.toNat ≤ Config.paletteMax
    · exact ⟨_, if_pos h, .unit rfl (decide_eq_true h)⟩
    · exact ⟨_, if_neg h, .badTableSize (decide_eq_false h)⟩
  | .sbuBegin | .sbuFeed _ | .sbuFinish | .sbfBegin | .sbfPut _ | .sbfEnd
  | .lzdBegin _ | .lzdFeed _ | .lzdFinish | .lzeBegin _ | .lzeFeed _ | .lzeFinish
  | .cmpScreen _ _ | .cmpCtWrite _ _ _ _ _ | .cmpGce _ _ _ _ _ | .cmpImagePos _ _ | .cmpImageBegin _ _ _
  | .cmpPixel _ | .cmpImageEnd | .cmpFinish => ⟨_, rfl, .unit rfl rfl⟩

theorem execResult_of_exec {i : Instr} {s t : State} (h : exec i s = .next t) : ExecResult s i t := by
  obtain ⟨t', ht', hr⟩ := exec_result s i
  obtain rfl : t' = t := by simpa [ht'] using h
  exact hr

/-! ## The effect of a unit's command, and SYS state -/

theorem cmpCtSize_effect (t : Table) (n : BitVec 9) (s : State) : CmpEffect s (cmpCtSize t n s) :=
  whenIdle_effect _ _ s

theorem cmpCtWrite_effect (t : Table) (i r g bl : Byte) (s : State) : CmpEffect s (cmpCtWrite t i r g bl s) :=
  whenIdle_effect _ _ s

theorem cmpGce_effect (d : BitVec 3) (u f : Bool) (ti : Byte) (dl : BitVec 16) (s : State) :
    CmpEffect s (cmpGce d u f ti dl s) :=
  whenIdle_effect _ _ s

theorem cmpImagePos_effect (left top : BitVec 16) (s : State) : CmpEffect s (cmpImagePos left top s) :=
  whenIdle_effect _ _ s

/-- What a command can change at all, by the unit it addresses. -/
def TargetEffect : Option UnitId → State → State → Prop
  | none => fun s t => t = s
  | some .sbu => SbuEffect
  | some .sbf => SbfEffect
  | some .lzd => LzdEffect
  | some .lze => LzeEffect
  | some .cmp => CmpEffect

theorem unitRule_effect (s : State) : ∀ i : Instr, TargetEffect (targetOf i) s (unitRule s i)
  | .nop | .reset | .cfg _ | .rdReg _ | .rdCanvas _ _ | .rdCt _ _ => rfl
  | .sbuBegin => sbuBegin_effect s
  | .sbuFeed b => sbuFeed_effect b s
  | .sbuFinish => sbuFinish_effect s
  | .sbfBegin => sbfBegin_effect s
  | .sbfPut b => sbfPut_effect b s
  | .sbfEnd => sbfEnd_effect s
  | .lzdBegin cs => lzdBegin_effect cs s
  | .lzdFeed b => lzdFeed_effect b s
  | .lzdFinish => lzdFinish_effect s
  | .lzeBegin cs => lzeBegin_effect cs s
  | .lzeFeed b => lzeFeed_effect b s
  | .lzeFinish => lzeFinish_effect s
  | .cmpScreen w h => cmpScreen_effect w h s
  | .cmpCtSize t n => cmpCtSize_effect t n s
  | .cmpCtWrite t i r g bl => cmpCtWrite_effect t i r g bl s
  | .cmpGce d u f ti dl => cmpGce_effect d u f ti dl s
  | .cmpImagePos left top => cmpImagePos_effect left top s
  | .cmpImageBegin l w h => cmpImageBegin_effect l w h s
  | .cmpPixel idx => cmpPixel_effect idx s
  | .cmpImageEnd => cmpImageEnd_effect s
  | .cmpFinish => cmpFinish_effect s

/-- No unit writes SYS state, forwards included (R24, R25, R78). -/
theorem TargetEffect.sys_config {s t : State} : ∀ {u : Option UnitId}, TargetEffect u s t →
    t.sys = s.sys ∧ t.config = s.config
  | none, h => h ▸ ⟨rfl, rfl⟩
  | some .sbu, ⟨_, _, _, _, _, _, h⟩ => h ▸ ⟨rfl, rfl⟩
  | some .sbf, ⟨_, _, h⟩ => h ▸ ⟨rfl, rfl⟩
  | some .lzd, ⟨_, _, _, _, h⟩ => h ▸ ⟨rfl, rfl⟩
  | some .lze, ⟨_, _, _, _, h⟩ => h ▸ ⟨rfl, rfl⟩
  | some .cmp, ⟨_, _, h⟩ => h ▸ ⟨rfl, rfl⟩

/-- Settles O22, by the kinds of command: a unit's command has an effect on its units alone, and the two illegal commands are excluded by the
premises. -/
theorem sysStateIsSticky : Obligations.SysStateIsSticky := by
  intro i s t hw he hreset hcanvas
  cases execResult_of_exec he with
  | unit hu _ =>
    obtain ⟨hsys, hconfig⟩ := (unitRule_effect s i).sys_config
    exact ⟨hsys, fun _ => hconfig⟩
  | answered v _ => exact ⟨rfl, fun _ => rfl⟩
  | reset => exact absurd rfl hreset
  | cfg c => exact ⟨rfl, fun hcfg => absurd rfl (hcfg c)⟩
  | offCanvas hoff => simp [Cmp.onCanvas, hcanvas _ _ rfl] at hoff
  | badTableSize hbad => simp [hw] at hbad

/-! ## Every step keeps the block legal -/

theorem Inv.setPort {s : State} (h : Inv s) (p : List Word) : Inv (s.setPort p) :=
  ⟨h.cap, h.sys, fun u => by have := h.status u; cases u <;> exact this, h.sbf, h.lzd, h.lze, h.cmp⟩

theorem Inv.setConfig {s : State} (h : Inv s) (c : BitVec 6) : Inv (s.setConfig c) :=
  ⟨h.cap, h.sys, fun u => by have := h.status u; cases u <;> exact this, h.sbf, h.lzd, h.lze, h.cmp⟩

/-- `SBU_FINISH` forwards nothing (R122). -/
theorem sbuFinish_keeps_lzd_cmp (s : State) : (sbuFinish s).lzd = s.lzd ∧ (sbuFinish s).cmp = s.cmp := by
  unfold sbuFinish
  split <;> exact ⟨rfl, rfl⟩

/-- `LZD_BEGIN` emits nothing (R150). -/
theorem lzdBegin_keeps_cmp (cs : Byte) (s : State) : (lzdBegin cs s).cmp = s.cmp := by
  unfold lzdBegin
  simp only []
  split <;> rfl

theorem cmpCtSize_status (t : Table) (n : BitVec 9) {s : State} (h : StatusOk s) : StatusOk (cmpCtSize t n s) :=
  whenIdle_status _ _ (fun _ => by cases t <;> rfl) h

theorem cmpCtWrite_status (t : Table) (i r g bl : Byte) {s : State} (h : StatusOk s) :
    StatusOk (cmpCtWrite t i r g bl s) :=
  whenIdle_status _ _ (fun _ => by cases t <;> rfl) h

theorem cmpGce_status (d : BitVec 3) (u f : Bool) (ti : Byte) (dl : BitVec 16) {s : State} (h : StatusOk s) :
    StatusOk (cmpGce d u f ti dl s) :=
  whenIdle_status _ _ (fun _ => by rfl) h

theorem cmpImagePos_status (left top : BitVec 16) {s : State} (h : StatusOk s) : StatusOk (cmpImagePos left top s) :=
  whenIdle_status _ _ (fun _ => by rfl) h

/-- Every rule of a unit keeps the block legal: it stays inside its effect, and keeps the parts its effect names legal. -/
theorem unitRule_inv {s : State} (h : Inv s) : ∀ i : Instr, i.wellFormed = true → Inv (unitRule s i)
  | .nop, _ | .reset, _ | .cfg _, _ | .rdReg _, _ | .rdCanvas _ _, _ | .rdCt _ _, _ => h
  | .sbuBegin, _ => h.sbuEffect (sbuBegin_effect s) (sbuBegin_status h.status) h.lzd h.cmp
  | .sbuFeed b, _ =>
    have ⟨hlzd, hcmp⟩ := sbuFeed_lzdOk_cmpOk b h
    h.sbuEffect (sbuFeed_effect b s) (sbuFeed_status b h.status) hlzd hcmp
  | .sbuFinish, _ =>
    have ⟨hlzd, hcmp⟩ := sbuFinish_keeps_lzd_cmp s
    h.sbuEffect (sbuFinish_effect s) (sbuFinish_status h.status) (hlzd ▸ h.lzd) (hcmp ▸ h.cmp)
  | .sbfBegin, _ => h.sbfEffect (sbfBegin_effect s) (sbfBegin_status h.status) (sbfBegin_ok h.sbf)
  | .sbfPut b, _ => h.sbfEffect (sbfPut_effect b s) (sbfPut_status b h.status) (sbfPut_ok b h.sbf)
  | .sbfEnd, _ => h.sbfEffect (sbfEnd_effect s) (sbfEnd_status h.status) (sbfEnd_ok h.sbf)
  | .lzdBegin cs, _ =>
    h.lzdEffect (lzdBegin_effect cs s) (lzdBegin_status cs h.status) (lzdBegin_ok cs h.lzd)
      (lzdBegin_keeps_cmp cs s ▸ h.cmp)
  | .lzdFeed b, _ =>
    h.lzdEffect (lzdFeed_effect b s) (lzdFeed_status b h.status) (lzdFeed_ok b h.lzd) (lzdFeed_cmpOk b h.cmp)
  | .lzdFinish, _ =>
    h.lzdEffect (lzdFinish_effect s) (lzdFinish_status h.status) (lzdFinish_ok h.lzd) (lzdFinish_cmpOk h.cmp)
  | .lzeBegin cs, _ =>
    h.lzeEffect (lzeBegin_effect cs s) (lzeBegin_status cs h.status) (lzeBegin_ok cs h.lze) (lzeBegin_sbfOk cs h.sbf)
  | .lzeFeed b, _ =>
    h.lzeEffect (lzeFeed_effect b s) (lzeFeed_status b h.status) (lzeFeed_ok b h.lze) (lzeFeed_sbfOk b h.sbf)
  | .lzeFinish, _ =>
    h.lzeEffect (lzeFinish_effect s) (lzeFinish_status h.status) (lzeFinish_ok h.lze) (lzeFinish_sbfOk h.sbf)
  | .cmpScreen w k, _ => h.cmpEffect (cmpScreen_effect w k s) (cmpScreen_status w k h.status) (cmpScreen_ok w k h.cmp)
  | .cmpCtSize t n, hw =>
    h.cmpEffect (cmpCtSize_effect t n s) (cmpCtSize_status t n h.status) (cmpCtSize_ok t n (of_decide_eq_true hw) h.cmp)
  | .cmpCtWrite t i r g bl, _ =>
    h.cmpEffect (cmpCtWrite_effect t i r g bl s) (cmpCtWrite_status t i r g bl h.status) (cmpCtWrite_ok t i r g bl h.cmp)
  | .cmpGce d u f ti dl, _ =>
    h.cmpEffect (cmpGce_effect d u f ti dl s) (cmpGce_status d u f ti dl h.status) (cmpGce_ok d u f ti dl h.cmp)
  | .cmpImagePos left top, _ =>
    h.cmpEffect (cmpImagePos_effect left top s) (cmpImagePos_status left top h.status) (cmpImagePos_ok left top h.cmp)
  | .cmpImageBegin l w k, _ =>
    h.cmpEffect (cmpImageBegin_effect l w k s) (cmpImageBegin_status l w k h.status) (cmpImageBegin_ok l w k h.cmp)
  | .cmpPixel idx, _ => h.cmpEffect (cmpPixel_effect idx s) (cmpPixel_status idx h.status) (cmpPixel_ok idx h.cmp)
  | .cmpImageEnd, _ => h.cmpEffect (cmpImageEnd_effect s) (cmpImageEnd_status h.status) (cmpImageEnd_ok h.cmp)
  | .cmpFinish, _ => h.cmpEffect (cmpFinish_effect s) (cmpFinish_status h.status) (cmpFinish_ok h.cmp)

theorem exec_inv {i : Instr} {s t : State} (h : Inv s) (he : exec i s = .next t) : Inv t := by
  cases execResult_of_exec he with
  | unit _ hw => exact (unitRule_inv h i hw).respond _
  | answered v _ => exact h.respond v
  | reset => exact (resetBlock_inv h).respond _
  | cfg c => exact (h.setConfig c).respond _
  | offCanvas _ => exact h.illegal _
  | badTableSize _ => exact h.illegal _

/-- Settles O24: an empty port changes nothing, a word that spells a command runs it, and any other is an illegal command; taking the word
from the port keeps the block legal, and so does each of the three. -/
theorem stepKeepsLegal : Obligations.StepKeepsLegal := by
  intro s t h hstep
  unfold step at hstep
  cases hport : s.port with
  | nil =>
    obtain rfl : s = t := by simpa [hport, idle] using hstep
    exact h
  | cons w ws =>
    simp only [takeCommand_cons hport] at hstep
    cases hdecode : decode w with
    | ok i =>
      simp only [hdecode] at hstep
      exact exec_inv (h.setPort ws) hstep
    | error e =>
      obtain rfl : illegalCommand (opcodeOf w) (s.setPort ws) = t := by simpa [hdecode] using hstep
      exact (h.setPort ws).illegal _

end Sys2Proof.Machine
end

section
/-! The command port (R76), and what a run of forwarded commands does: a command of the host and a `Forward` (R78) run the same rule of the
unit, and that rule reads nothing of the host's side of the interface. From it: a route does what the host does by passing the bytes on
itself (R78, R162, R196, R200). -/

namespace Sys2Proof.Machine

/-! ## The command port -/

/-- Settles O5: the port's oldest word is taken, and `step` runs what it decodes to. -/
theorem stepRunsCommand : Obligations.StepRunsCommand := by
  intro s c ws i hport hdecode
  simp only [step, takeCommand_cons hport, hdecode]
  rfl

/-- Settles O7: no word is taken from an empty port. -/
theorem emptyPortIdles : Obligations.EmptyPortIdles := by
  intro s hport
  simp only [step, takeCommand_nil hport, idle]

/-! ## Commands of a unit -/

theorem targetOf_of_isRead {i : Instr} (h : isRead i = true) : targetOf i = none := by
  cases i with
  | rdReg _ | rdCanvas _ _ | rdCt _ _ => rfl
  | _ => cases h

/-- A command a word can spell, addressed to a unit, runs the unit's rule and responds 0 (R280). -/
theorem exec_of_target {i : Instr} {u : UnitId} (hu : targetOf i = some u) (hw : i.wellFormed = true) (s : State) :
    exec i s = .next (respond 0#64 (unitRule s i)) := by
  obtain ⟨t, ht, hr⟩ := exec_result s i
  cases hr with
  | unit _ _ => exact ht
  | answered v hi =>
    rcases hi with rfl | hi
    · cases hu
    · simp [targetOf_of_isRead hi] at hu
  | reset | cfg _ | offCanvas _ => cases hu
  | badTableSize hbad => simp [hw] at hbad

theorem wellFormed_of_target_lze {i : Instr} (h : targetOf i = some .lze) : i.wellFormed = true := by
  cases i with
  | lzeBegin _ | lzeFeed _ | lzeFinish => rfl
  | _ => cases h

/-! ## Forwarded commands -/

/-- The commands that the emission of LZD, the emission of LZE and `LZE_FINISH` forward (R162, R196, R198). -/
inductive Forwarded : Instr → Prop
  | pixel (x : Byte) : Forwarded (.cmpPixel x)
  | put (x : Byte) : Forwarded (.sbfPut x)
  | terminator : Forwarded .sbfEnd

theorem Forwarded.exec_eq {i : Instr} (h : Forwarded i) (s : State) :
    exec i s = .next (respond 0#64 (unitRule s i)) := by
  cases h <;> rfl

/-- The block with another `CONFIG`, other responses, and other items in the channels that LZD and LZE fill with their routes off. -/
def State.recast (s : State) (c : BitVec 6) (rs : List Word) (lo eo : List Byte) : State :=
  { s with config := c, responses := rs, out := { s.out with lzdOut := lo, lzeOut := eo } }

section
variable (s : State) (c : BitVec 6) (rs : List Word) (lo eo : List Byte)

theorem emitWhenFilled_recast : emitWhenFilled (s.recast c rs lo eo) = (emitWhenFilled s).recast c rs lo eo := by
  unfold emitWhenFilled
  rw [show (s.recast c rs lo eo).cmp = s.cmp from rfl]
  split <;> rfl

theorem cmpPixel_recast (x : Byte) : cmpPixel x (s.recast c rs lo eo) = (cmpPixel x s).recast c rs lo eo := by
  unfold cmpPixel
  rw [show (s.recast c rs lo eo).cmp = s.cmp from rfl]
  split
  · rfl
  · rfl
  · rfl
  · exact emitWhenFilled_recast (s.setCmp (s.cmp.pixelTaken x)) c rs lo eo

theorem sbfPut_recast (x : Byte) : sbfPut x (s.recast c rs lo eo) = (sbfPut x s).recast c rs lo eo := by
  unfold sbfPut
  rw [show (s.recast c rs lo eo).sbf = s.sbf from rfl]
  split
  · rfl
  · rfl
  · rfl
  · simp only []
    split <;> rfl

theorem sbfEnd_recast : sbfEnd (s.recast c rs lo eo) = (sbfEnd s).recast c rs lo eo := by
  unfold sbfEnd
  rw [show (s.recast c rs lo eo).sbf = s.sbf from rfl]
  split <;> rfl

end

/-- The rule of a forwarded command neither reads nor writes what `recast` replaces. -/
theorem Forwarded.unitRule_recast {i : Instr} (h : Forwarded i) (s : State) (c : BitVec 6) (rs : List Word)
    (lo eo : List Byte) : unitRule (s.recast c rs lo eo) i = (unitRule s i).recast c rs lo eo := by
  cases h with
  | pixel x => exact cmpPixel_recast s c rs lo eo x
  | put x => exact sbfPut_recast s c rs lo eo x
  | terminator => exact sbfEnd_recast s c rs lo eo

/-- Forwarded commands one after another, as rules. -/
def forwardAll (is : List Instr) (s : State) : State := is.foldl unitRule s

theorem forwardAll_recast {is : List Instr} (h : ∀ i ∈ is, Forwarded i) (s : State) (c : BitVec 6) (rs : List Word)
    (lo eo : List Byte) : forwardAll is (s.recast c rs lo eo) = (forwardAll is s).recast c rs lo eo := by
  induction is generalizing s with
  | nil => rfl
  | cons i is ih =>
    obtain ⟨hi, his⟩ := List.forall_mem_cons.1 h
    simp only [forwardAll, List.foldl_cons, hi.unitRule_recast] at ih ⊢
    exact ih his _

/-- The host's run of commands that could be forwarded does what forwarding them does, and responds 0 to each (R78, R280). -/
theorem runCommands_recast {is : List Instr} (h : ∀ i ∈ is, Forwarded i) (s : State) (c : BitVec 6) (rs : List Word)
    (lo eo : List Byte) :
    ∃ rs', runCommands is (s.recast c rs lo eo) = some ((forwardAll is s).recast c rs' lo eo) := by
  induction is generalizing s rs with
  | nil => exact ⟨rs, rfl⟩
  | cons i is ih =>
    obtain ⟨hi, his⟩ := List.forall_mem_cons.1 h
    simp only [runCommands, hi.exec_eq, hi.unitRule_recast]
    exact ih his (unitRule s i) (rs ++ [0#64])

/-- Forwarding the commands `is` within a command, against a command with the route off, after which the host issues them: the states differ
in what `recast` replaces, which `is` neither reads nor writes. -/
theorem forwardAll_eq_runCommands {is : List Instr} (h : ∀ i ∈ is, Forwarded i) (s : State) (c : BitVec 6) (lo eo : List Byte) :
    ∃ t, runCommands is (respond 0#64 (s.recast c s.responses lo eo)) = some t ∧ t.out.lzdOut = lo ∧ t.out.lzeOut = eo ∧
      respond 0#64 (forwardAll is s) = t.recast s.config (s.responses ++ [0#64]) s.out.lzdOut s.out.lzeOut := by
  obtain ⟨rs, hrun⟩ := runCommands_recast h s c (s.responses ++ [0#64]) lo eo
  have hself : forwardAll is s = (forwardAll is s).recast s.config s.responses s.out.lzdOut s.out.lzeOut :=
    forwardAll_recast h s _ _ _ _
  refine ⟨_, hrun, rfl, rfl, ?_⟩
  rw [hself]
  rfl

/-! ## LZD_TO_CMP -/

/-- What `LZD_FEED b` makes of the decoder, and the bytes it emits, in every phase (R151, R163, R301). -/
def Lzd.feedResult (d : Lzd) (b : Byte) : Lzd × List Byte :=
  match d.st.phase with
  | .active => d.fed b
  | .idle => ({ d with st := { phase := .err, errCode := .protocol, errInfo := (0x21#8).setWidth 16 } }, [])
  | .done | .err => (d, [])

/-- `LZD_FEED` writes the decoder and emits bytes, and both depend on the decoder alone. -/
theorem lzdFeed_eq (b : Byte) (s : State) :
    lzdFeed b s = lzdEmit (s.lzd.feedResult b).2 (s.setLzd (s.lzd.feedResult b).1) := by
  cases h : s.lzd.st.phase with
  | active => simp only [Lzd.feedResult, h, lzdFeed_active b h]
  | idle | done | err => simp [Lzd.feedResult, lzdFeed, h]

theorem lzdEmit_eq_forwardAll (xs : List Byte) {s : State} (h : lzdToCmp s = true) :
    lzdEmit xs s = forwardAll (xs.map Instr.cmpPixel) s := by
  simp [lzdEmit_on xs h, forwardAll, List.foldl_map, unitRule]

theorem forwarded_pixels (xs : List Byte) : ∀ i ∈ xs.map Instr.cmpPixel, Forwarded i := by
  intro i hi
  obtain ⟨x, -, rfl⟩ := List.mem_map.1 hi
  exact .pixel x

/-- Settles O57: `LZD_FEED` makes the same decoder `d` and the same bytes `xs` with the route on and off (`lzdFeed_eq`); on, the bytes are
forwarded pixels, off, they are appended to `LZD_OUT`; and the host's pixels do what forwarded ones do (`forwardAll_eq_runCommands`). -/
theorem routeLzdToCmp : Obligations.RouteLzdToCmp := by
  rintro s s0 b hroute rfl
  obtain ⟨d, xs, hfeed⟩ : ∃ d xs, ∀ t : State, t.lzd = s.lzd → lzdFeed b t = lzdEmit xs (t.setLzd d) :=
    ⟨_, _, fun t ht => by rw [lzdFeed_eq, ht]⟩
  have hon : lzdFeed b s = forwardAll (xs.map Instr.cmpPixel) (s.setLzd d) := by
    rw [hfeed s rfl]
    exact lzdEmit_eq_forwardAll xs hroute
  have hoff : lzdFeed b { s with config := s.config &&& 0b111101#6 } =
      (s.setLzd d).recast (s.config &&& 0b111101#6) s.responses (s.out.lzdOut ++ xs) s.out.lzeOut := by
    rw [hfeed { s with config := s.config &&& 0b111101#6 } rfl]
    exact lzdEmit_off xs (by simp [lzdToCmp, State.setLzd])
  obtain ⟨t, hrun, -, heo, heq⟩ := forwardAll_eq_runCommands (forwarded_pixels xs) (s.setLzd d) (s.config &&& 0b111101#6)
    (s.out.lzdOut ++ xs) s.out.lzeOut
  refine ⟨_, _, t, xs, rfl, congrArg (fun t => Host.Outcome.next (respond 0#64 t)) hoff, rfl, hrun, ?_⟩
  rw [hon, heq, State.setLzd_out, ← heo]
  rfl

/-! ## LZE_TO_SBF -/

/-- `f` writes the encoder and emits bytes, nothing else, and what it writes and emits depends on the encoder (here `e`) and on
`LZE_LEADING_CLEAR` (here `l`) alone: not on the route, nor on the unit behind it. -/
def EmitsFrom (e : Lze) (l : Bool) (f : State → State) : Prop :=
  ∃ e' xs, ∀ s : State, s.lze = e → lzeLeadingClear s = l → f s = lzeEmit xs (s.setLze e')

theorem lzeEmit_config (xs : List Byte) (s : State) : (lzeEmit xs s).config = s.config :=
  (TargetEffect.sys_config (u := some .lze) (lzeEmit_effect xs s)).2

section
variable {e : Lze} {l : Bool} {f g : State → State}

theorem EmitsFrom.congr (hg : EmitsFrom e l g) (h : ∀ s : State, s.lze = e → lzeLeadingClear s = l → f s = g s) :
    EmitsFrom e l f := by
  obtain ⟨e', xs, hg⟩ := hg
  exact ⟨e', xs, fun s he hl => by rw [h s he hl, hg s he hl]⟩

theorem EmitsFrom.next (hf : EmitsFrom e l f) (hg : ∀ e, EmitsFrom e l g) : EmitsFrom e l (g ∘ f) := by
  obtain ⟨e₁, xs, hf⟩ := hf
  obtain ⟨e₂, ys, hg⟩ := hg e₁
  refine ⟨e₂, xs ++ ys, fun s he hl => ?_⟩
  have hl' : lzeLeadingClear (lzeEmit xs (s.setLze e₁)) = l := by
    rw [lzeLeadingClear, lzeEmit_config]
    exact hl
  rw [Function.comp_apply, hf s he hl, hg _ (by simp) hl', lzeEmit_append, ← lzeEmit_setLze, State.setLze_setLze]

theorem emitsFrom_id : EmitsFrom e l id := ⟨e, [], by rintro s rfl _; rfl⟩

theorem emitsFrom_setLze (k : Lze → Lze) : EmitsFrom e l (fun s => s.setLze (k s.lze)) :=
  ⟨k e, [], by rintro s rfl _; rfl⟩

theorem emitsFrom_emitCode (c : Lze → Nat) : EmitsFrom e l (fun s => emitCode (c s.lze) s) :=
  ⟨(e.codeOut (c e)).1, (e.codeOut (c e)).2, by rintro s rfl _; exact emitCode_eq _ s⟩

theorem emitsFrom_lzeCeiling : EmitsFrom e l lzeCeiling :=
  ((emitsFrom_emitCode Lze.clear).next fun _ => emitsFrom_setLze fun e =>
    { e with w := BitVec.ofNat 4 (e.cs.toNat + 1), next := BitVec.ofNat 13 e.eoi, ht := hashClear } :)

theorem emitsFrom_lzeRegister (p : Code) (b : Byte) : EmitsFrom e l (lzeRegister p b) := by
  cases h : e.atThreshold && decide (e.w.toNat = Config.maxWidth) with
  | true => exact emitsFrom_lzeCeiling.congr fun s he _ => by simp only [lzeRegister, he, h, if_true]
  | false => exact (emitsFrom_setLze fun e => e.registered p b).congr fun s he _ => by simp [lzeRegister, he, h]

theorem emitsFrom_lzeSetPend (c : Option Code) : EmitsFrom e l (lzeSetPend c) :=
  emitsFrom_setLze fun e => { e with pend := c }

theorem emitsFrom_lzeMiss (p : Code) (b : Byte) : EmitsFrom e l (lzeMiss p b) :=
  ((((emitsFrom_emitCode fun _ => p.toNat).next fun _ => emitsFrom_setLze Lze.advanced).next fun _ =>
    emitsFrom_lzeRegister p b).next fun _ => emitsFrom_lzeSetPend (some (b.setWidth 12)) :)

theorem emitsFrom_raiseErr (c : ErrCode) (i : BitVec 16) : EmitsFrom e l (raiseErr .lze c i) :=
  emitsFrom_setLze fun e => { e with st := { phase := .err, errCode := c, errInfo := i } }

theorem emitsFrom_lzeFeed (b : Byte) : EmitsFrom e l (lzeFeed b) := by
  cases h : e.st.phase with
  | err => exact emitsFrom_id.congr fun s he _ => by simp [lzeFeed, he, h]
  | idle | done => exact (emitsFrom_raiseErr .protocol _).congr fun s he _ => by simp only [lzeFeed, he, h]; rfl
  | active =>
    by_cases hb : e.clear ≤ b.toNat
    · exact (emitsFrom_raiseErr .badSymbol (b.setWidth 16)).congr fun s he _ => by simp [lzeFeed, he, h, hb]
    · cases hp : e.pend with
      | none => exact (emitsFrom_lzeSetPend _).congr fun s he _ => by simp [lzeFeed, he, h, hb, hp]; rfl
      | some p =>
        cases hl : hashLookup e.ht p b with
        | some c => exact (emitsFrom_lzeSetPend (some c)).congr fun s he _ => by simp [lzeFeed, he, h, hb, hp, hl]
        | none => exact (emitsFrom_lzeMiss p b).congr fun s he _ => by simp [lzeFeed, he, h, hb, hp, hl]

theorem emitsFrom_lzeBegin (cs : Byte) : EmitsFrom e l (lzeBegin cs) := by
  have hclear : EmitsFrom e l (clearErr .lze) :=
    emitsFrom_setLze fun e => { e with st := { e.st with errCode := .noError, errInfo := 0#16 } }
  cases hcs : codeSizeOk cs with
  | false =>
    exact (hclear.next fun _ => emitsFrom_raiseErr .badCodeSize (cs.setWidth 16)).congr fun s _ _ => by
      simp [lzeBegin, hcs]
  | true =>
    have hbegun : EmitsFrom e l ((fun s => s.setLze (s.lze.begun cs)) ∘ clearErr .lze) :=
      hclear.next fun _ => emitsFrom_setLze (Lze.begun · cs)
    cases l with
    | false => exact hbegun.congr fun s _ hl => by simp [lzeBegin, hcs, hl]
    | true => exact (hbegun.next fun _ => emitsFrom_emitCode Lze.clear).congr fun s _ hl => by simp [lzeBegin, hcs, hl]

theorem emitsFrom_lzeLastCode : EmitsFrom e l lzeLastCode := by
  cases hp : e.pend with
  | none => exact emitsFrom_id.congr fun s he _ => by simp [lzeLastCode, he, hp]
  | some p =>
    exact (((emitsFrom_emitCode fun _ => p.toNat).next fun _ => emitsFrom_setLze Lze.advanced).next fun _ =>
      emitsFrom_setLze Lze.finalWidth).congr fun s he _ => by simp only [lzeLastCode, he, hp]; rfl

theorem emitsFrom_lzeFlushPartial : EmitsFrom e l lzeFlushPartial := by
  by_cases h : 0 < e.nbits.toNat
  · refine ⟨{ e with acc := 0#32, nbits := 0#5 }, [BitVec.ofNat 8 (e.acc.toNat % 2 ^ 8)], ?_⟩
    rintro s rfl _
    simp only [lzeFlushPartial, h, if_true, lzeEmit_setLze, lzeOutByte_lze]
    rfl
  · exact emitsFrom_id.congr fun s he _ => by simp [lzeFlushPartial, he, h]

/-- `LZE_FINISH` of an ACTIVE encoder, before it forwards `SBF_END` (R198). -/
def lzeFinishStream (s : State) : State :=
  lzeDone (lzeFlushPartial (emitCode (lzeLastCode s).lze.eoi (lzeLastCode s)))

theorem emitsFrom_lzeFinishStream : EmitsFrom e l lzeFinishStream :=
  (((emitsFrom_lzeLastCode.next fun _ => emitsFrom_emitCode Lze.eoi).next fun _ => emitsFrom_lzeFlushPartial).next fun _ =>
    emitsFrom_setLze fun e => { e with pend := none, st := { e.st with phase := .done } } :)

end

/-- What an LZE command forwards to SBF, with the route on, after the bytes it emits (R198). -/
def lzeTrailer (i : Instr) (e : Lze) : List Instr := if i = .lzeFinish ∧ e.st.phase = .active then [.sbfEnd] else []

theorem lzeFinish_active {s : State} (h : s.lze.st.phase = .active) :
    lzeFinish s = if lzeToSbf (lzeFinishStream s) then sbfEnd (lzeFinishStream s) else lzeFinishStream s := by
  unfold lzeFinish
  rw [h]
  rfl

/-- As `EmitsFrom`, for the rule of an LZE command: with the route on it forwards its trailer after the bytes it emits. -/
def RuleEmitsFrom (e : Lze) (l : Bool) (i : Instr) : Prop :=
  ∃ e' xs, ∀ s : State, s.lze = e → lzeLeadingClear s = l →
    unitRule s i = forwardAll (if lzeToSbf s then lzeTrailer i e else []) (lzeEmit xs (s.setLze e'))

theorem EmitsFrom.rule {e : Lze} {l : Bool} {f : State → State} {i : Instr} (hf : EmitsFrom e l f)
    (hrule : ∀ s : State, s.lze = e → unitRule s i = f s) (htrailer : lzeTrailer i e = []) : RuleEmitsFrom e l i := by
  obtain ⟨e', xs, hf⟩ := hf
  exact ⟨e', xs, fun s he hl => by rw [hrule s he, hf s he hl, htrailer, ite_self]; rfl⟩

/-- What an LZE command makes of the encoder, emits and forwards depends on the encoder and on `LZE_LEADING_CLEAR` alone. -/
theorem ruleEmitsFrom_of_target {i : Instr} (hi : targetOf i = some .lze) (e : Lze) (l : Bool) : RuleEmitsFrom e l i := by
  cases i with
  | lzeBegin cs => exact (emitsFrom_lzeBegin cs).rule (fun _ _ => rfl) rfl
  | lzeFeed b => exact (emitsFrom_lzeFeed b).rule (fun _ _ => rfl) rfl
  | lzeFinish =>
    cases hp : e.st.phase with
    | err => exact emitsFrom_id.rule (fun s he => by simp [unitRule, lzeFinish, he, hp]) (by simp [lzeTrailer, hp])
    | idle | done =>
      exact (emitsFrom_raiseErr .protocol ((0x32#8).setWidth 16)).rule
        (fun s he => by simp [unitRule, lzeFinish, he, hp]) (by simp [lzeTrailer, hp])
    | active =>
      obtain ⟨e', xs, hstream⟩ := emitsFrom_lzeFinishStream (e := e) (l := l)
      refine ⟨e', xs, fun s he hl => ?_⟩
      have hroute : lzeToSbf (lzeEmit xs (s.setLze e')) = lzeToSbf s := by
        rw [lzeToSbf, lzeEmit_config]
        rfl
      rw [unitRule, lzeFinish_active (he ▸ hp), hstream s he hl, hroute]
      split <;> simp [lzeTrailer, hp, forwardAll, unitRule]
  | _ => cases hi

theorem lzeEmit_eq_forwardAll (xs : List Byte) {s : State} (h : lzeToSbf s = true) :
    lzeEmit xs s = forwardAll (xs.map Instr.sbfPut) s := by
  simp [lzeEmit_on xs h, forwardAll, List.foldl_map, unitRule]

theorem forwardAll_append (is js : List Instr) (s : State) :
    forwardAll (is ++ js) s = forwardAll js (forwardAll is s) := List.foldl_append

theorem forwarded_putsTrailer (xs : List Byte) (i : Instr) (e : Lze) :
    ∀ j ∈ xs.map Instr.sbfPut ++ lzeTrailer i e, Forwarded j := by
  intro j hj
  rcases List.mem_append.1 hj with hj | hj
  · obtain ⟨x, -, rfl⟩ := List.mem_map.1 hj
    exact .put x
  · unfold lzeTrailer at hj
    split at hj
    · exact List.mem_singleton.1 hj ▸ .terminator
    · cases hj

/-- Settles O58: an LZE command makes the same encoder `e` and the same bytes `xs` with the route on and off (`ruleEmitsFrom_of_target`);
on, the bytes are forwarded puts, with `SBF_END` after them where the stream ends, off, they are appended to `LZE_OUT`; and the host's
commands do what forwarded ones do (`forwardAll_eq_runCommands`). -/
theorem routeLzeToSbf : Obligations.RouteLzeToSbf := by
  rintro i s s0 hi hroute rfl
  obtain ⟨e, xs, hrule⟩ := ruleEmitsFrom_of_target hi s.lze (lzeLeadingClear s)
  have hon : unitRule s i = forwardAll (xs.map Instr.sbfPut ++ lzeTrailer i s.lze) (s.setLze e) := by
    rw [hrule s rfl rfl, forwardAll_append, if_pos (show lzeToSbf s = true from hroute)]
    exact congrArg _ (lzeEmit_eq_forwardAll xs hroute)
  have hoff : unitRule { s with config := s.config &&& 0b111011#6 } i =
      (s.setLze e).recast (s.config &&& 0b111011#6) s.responses s.out.lzdOut (s.out.lzeOut ++ xs) := by
    rw [hrule { s with config := s.config &&& 0b111011#6 } rfl (by simp [lzeLeadingClear]),
      if_neg (by simp [lzeToSbf])]
    exact lzeEmit_off xs (by simp [lzeToSbf, State.setLze])
  obtain ⟨t, hrun, hlo, -, heq⟩ := forwardAll_eq_runCommands (forwarded_putsTrailer xs i s.lze) (s.setLze e)
    (s.config &&& 0b111011#6) s.out.lzdOut (s.out.lzeOut ++ xs)
  have hexec := exec_of_target hi (wellFormed_of_target_lze hi)
  refine ⟨_, _, t, xs, hexec s, (hexec _).trans (congrArg (fun t => Host.Outcome.next (respond 0#64 t)) hoff), rfl, hrun, ?_⟩
  rw [hon, heq, State.setLze_out, ← hlo]
  rfl

/-! ## The channels (R75) -/

/-- No unit's rule removes, reorders or changes an item of a channel, forwards included (R75, R78). -/
theorem TargetEffect.channels_grow {s t : State} : ∀ {u : Option UnitId}, TargetEffect u s t →
    s.out.sbuOut <+: t.out.sbuOut ∧ s.out.sbfOut <+: t.out.sbfOut ∧ s.out.lzdOut <+: t.out.lzdOut ∧
    s.out.lzeOut <+: t.out.lzeOut ∧ s.out.frameOut <+: t.out.frameOut
  | none, h => by simp [show t = s from h]
  | some .sbu, ⟨_, _, _, _, _, _, h⟩ => by simp [h]
  | some .sbf, ⟨_, _, h⟩ => by simp [h]
  | some .lzd, ⟨_, _, _, _, h⟩ => by simp [h]
  | some .lze, ⟨_, _, _, _, h⟩ => by simp [h]
  | some .cmp, ⟨_, _, h⟩ => by simp [h]

/-- Settles O20, by the kinds of command: a unit's rule appends to channels, and every other command leaves them as they are, `RESET` among
them (R343). -/
theorem channelsOnlyGrow : Obligations.ChannelsOnlyGrow := by
  intro i s t he
  cases execResult_of_exec he with
  | unit _ _ => exact (unitRule_effect s i).channels_grow
  | answered _ _ | reset | cfg _ | offCanvas _ | badTableSize _ =>
    exact TargetEffect.channels_grow (u := none) (s := s) (t := s) rfl

/-! ## What a command leaves unchanged with a route off (R78) -/

/-- CMP and its channel are the same in both. -/
def SameCmp (s t : State) : Prop := t.cmp = s.cmp ∧ t.out.frameOut = s.out.frameOut

/-- With `LZD_TO_CMP` off, no LZD command touches CMP (R162, R163). -/
theorem unitRule_lzd_sameCmp {i : Instr} (hi : targetOf i = some .lzd) {s : State} (hoff : lzdToCmp s = false) :
    SameCmp s (unitRule s i) := by
  cases i with
  | lzdBegin cs =>
    simp only [unitRule, lzdBegin]
    split <;> exact ⟨rfl, rfl⟩
  | lzdFeed b =>
    have hoff' : lzdToCmp (s.setLzd (s.lzd.feedResult b).1) = false := hoff
    rw [unitRule, lzdFeed_eq, lzdEmit_off _ hoff']
    exact ⟨rfl, rfl⟩
  | lzdFinish =>
    have hend {t : State} (h : lzdToCmp t = false) : lzdForwardEnd t = t := by simp [lzdForwardEnd, h]
    rw [unitRule, lzdFinish, hend (t := s.setLzd s.lzd.ended) hoff, hend hoff]
    split
    · exact ⟨rfl, rfl⟩
    · exact ⟨rfl, rfl⟩
    · split <;> exact ⟨rfl, rfl⟩
    · exact ⟨rfl, rfl⟩
  | _ => cases hi

/-- Only SBU and `SBU_OUT` change. -/
def SbuOnly (s t : State) : Prop :=
  ∃ b bo, t = (s.setSbu b).setOut { s.out with sbuOut := s.out.sbuOut ++ bo }

theorem SbuOnly.refl (s : State) : SbuOnly s s := ⟨s.sbu, [], by simp; rfl⟩

theorem SbuOnly.of_setSbu (s : State) (b : Sbu) : SbuOnly s (s.setSbu b) := ⟨b, [], by simp; rfl⟩

/-- An SBU command writes SBU and its channel, and then, with `SBU_TO_LZD` on, may forward one LZD command (R78, R121). -/
theorem unitRule_sbu {i : Instr} (hi : targetOf i = some .sbu) (s : State) :
    SbuOnly s (unitRule s i) ∨
      sbuToLzd s = true ∧ ∃ t j, SbuOnly s t ∧ targetOf j = some .lzd ∧ unitRule s i = unitRule t j := by
  cases i with
  | sbuBegin => exact .inl (.of_setSbu s _)
  | sbuFinish =>
    left
    rw [unitRule, sbuFinish]
    split
    · exact .refl s
    · exact .of_setSbu s _
    · exact .refl s
    · exact .of_setSbu s _
  | sbuFeed b =>
    rw [unitRule, sbuFeed]
    split
    · exact .inl (.refl s)
    · exact .inl (.of_setSbu s _)
    · exact .inl (.of_setSbu s _)
    · split
      · split
        · simp only []
          split
          · next h => exact .inr ⟨h, _, .lzdFinish, .of_setSbu s _, rfl, rfl⟩
          · exact .inl (.of_setSbu s _)
        · exact .inl (.of_setSbu s _)
      · simp only []
        split
        · next h => exact .inr ⟨h, _, .lzdFeed b, .of_setSbu s _, rfl, rfl⟩
        · exact .inl ⟨_, [b], rfl⟩
  | _ => cases hi

theorem unitRule_sbu_sbuOnly {i : Instr} (hi : targetOf i = some .sbu) {s : State} (hoff : sbuToLzd s = false) :
    SbuOnly s (unitRule s i) := by
  rcases unitRule_sbu hi s with h | ⟨hon, -⟩
  · exact h
  · simp [hoff] at hon

/-- With `LZD_TO_CMP` off, no SBU command touches CMP, whatever it forwards to LZD. -/
theorem unitRule_sbu_sameCmp {i : Instr} (hi : targetOf i = some .sbu) {s : State} (hoff : lzdToCmp s = false) :
    SameCmp s (unitRule s i) := by
  rcases unitRule_sbu hi s with ⟨_, _, h⟩ | ⟨-, _, j, ⟨_, _, rfl⟩, hj, h⟩
  · rw [h]
    exact ⟨rfl, rfl⟩
  · rw [h]
    exact unitRule_lzd_sameCmp hj hoff

/-- With `LZE_TO_SBF` off, no LZE command touches SBF (R196, R198). -/
theorem unitRule_lze_sameSbf {i : Instr} (hi : targetOf i = some .lze) {s : State} (hoff : lzeToSbf s = false) :
    (unitRule s i).sbf = s.sbf ∧ (unitRule s i).out.sbfOut = s.out.sbfOut := by
  obtain ⟨e, xs, hrule⟩ := ruleEmitsFrom_of_target hi s.lze (lzeLeadingClear s)
  have hoff' : lzeToSbf (s.setLze e) = false := hoff
  rw [hrule s rfl rfl, hoff, lzeEmit_off xs hoff']
  exact ⟨rfl, rfl⟩

/-- Settles O21: the frame of each unit's commands is its effect (`unitRule_effect`), and with a route off they forward nothing on it. -/
theorem unitFrames : Obligations.UnitFrames := by
  intro i s t hw he
  have run {u : UnitId} (hu : targetOf i = some u) : t = respond 0#64 (unitRule s i) ∧ TargetEffect (some u) s (unitRule s i) := by
    rw [exec_of_target hu hw] at he
    exact ⟨by simpa using he.symm, hu ▸ unitRule_effect s i⟩
  refine ⟨fun hu => ?_, fun hu => ?_, fun hu => ?_, fun hu => ?_, fun hu => ?_⟩
  · obtain ⟨rfl, _, _, _, _, _, _, h⟩ := run hu
    refine ⟨by rw [h]; rfl, fun hoff => ?_, unitRule_sbu_sameCmp hu⟩
    obtain ⟨_, _, hsbu⟩ := unitRule_sbu_sbuOnly hu hoff
    rw [hsbu]
    exact ⟨rfl, rfl, rfl, rfl⟩
  · obtain ⟨rfl, _, _, h⟩ := run hu
    rw [h]
    rfl
  · obtain ⟨rfl, _, _, _, _, h⟩ := run hu
    exact ⟨by rw [h]; rfl, unitRule_lzd_sameCmp hu⟩
  · obtain ⟨rfl, _, _, _, _, h⟩ := run hu
    exact ⟨by rw [h]; rfl, unitRule_lze_sameSbf hu⟩
  · obtain ⟨rfl, _, _, h⟩ := run hu
    rw [h]
    rfl

end Sys2Proof.Machine
end

section
/-! The command word (R90 to R103). A word spells the command `i` exactly when it is `i`'s word but for the don't-care bits of its format
(`decode_eq_ok_iff`): the opcode names the row, the reserved bits are 0, and what is left is the fields at their places
(`layout_eq_field`). The words that spell a command are then those of R94's rows (`matchesRow_iff`) that meet the row's constraint. -/

namespace Sys2Proof

open Machine

/-! ## Fields -/

theorem field_and (w m : Word) (lo len : Nat) : field (w &&& m) lo len = field w lo len &&& field m lo len :=
  BitVec.extractLsb'_and

theorem field_and_of_allOnes {w m : Word} {lo len : Nat} (hm : field m lo len = BitVec.allOnes len) :
    field (w &&& m) lo len = field w lo len := by
  rw [field_and, hm, BitVec.and_allOnes]

/-- A field that lies in a part of the word tested to be 0. -/
theorem field_eq_zero {w m : Word} (h : w &&& m = 0#64) (lo : Nat) {len : Nat} (hm : field m lo len = BitVec.allOnes len) :
    field w lo len = 0#len := by
  rw [← field_and_of_allOnes hm, h]
  simp [field]

/-- Two fields side by side are one field. -/
theorem field_append (w : Word) {lo hi m n : Nat} (h : hi = lo + n) :
    field w hi m ++ field w lo n = field w lo (m + n) :=
  BitVec.extractLsb'_append_extractLsb'_eq_extractLsb' h

theorem toNat_field (w : Word) (lo len : Nat) : (field w lo len).toNat = w.toNat / 2 ^ lo % 2 ^ len := by
  rw [field, BitVec.extractLsb'_toNat, Nat.shiftRight_eq_div_pow]

theorem ofBool_flag (w : Word) (k : Nat) : BitVec.ofBool (flag w k) = field w k 1 := by
  ext i hi
  obtain rfl : i = 0 := by omega
  simp [flag, field]

theorem bit_tableField (w : Word) : (tableField w).bit = field w 48 1 := by
  rw [← ofBool_flag, tableField]
  cases flag w 48 <;> rfl

theorem bit_inj {t u : Table} : t.bit = u.bit ↔ t = u := by
  cases t <;> cases u <;> decide

/-- Words laid out alike are equal part by part. -/
theorem append_eq_append_iff {m n : Nat} {a c : BitVec m} {b d : BitVec n} : a ++ b = c ++ d ↔ a = c ∧ b = d := by
  constructor
  · intro h
    have hlow := congrArg (BitVec.extractLsb' 0 n) h
    have hhigh := congrArg (BitVec.extractLsb' n m) h
    rw [BitVec.extractLsb'_append_eq_right, BitVec.extractLsb'_append_eq_right] at hlow
    rw [BitVec.extractLsb'_append_eq_left, BitVec.extractLsb'_append_eq_left] at hhigh
    exact ⟨hhigh, hlow⟩
  · rintro ⟨rfl, rfl⟩
    rfl

theorem opcodeOf_append_field (w : Word) : (opcodeOf w ++ field w 0 56 : Word) = w :=
  (field_append w rfl).trans BitVec.extractLsb'_eq_self

theorem field_encode (i : Instr) : field (encode i) 0 56 = i.operands := BitVec.extractLsb'_append_eq_right

theorem encode_and_reserved (i : Instr) : encode i &&& i.format.reserved = 0#64 := by
  unfold encode
  cases i with
  | cfg => exact Laws.Spells.reserved_C _ _
  | rdReg | sbuFeed | sbfPut | lzdBegin | lzdFeed | lzeBegin | lzeFeed | cmpPixel => exact Laws.Spells.reserved_B _ _
  | rdCanvas | cmpScreen | cmpImagePos => exact Laws.Spells.reserved_P _ _ _
  | rdCt => exact Laws.Spells.reserved_TR _ _ _
  | cmpCtSize => exact Laws.Spells.reserved_TS _ _ _
  | cmpCtWrite => exact Laws.Spells.reserved_TW _ _ _ _ _ _
  | cmpGce => exact Laws.Spells.reserved_G _ _ _ _ _ _
  | cmpImageBegin => exact Laws.Spells.reserved_IB _ _ _ _
  | nop | reset | sbuBegin | sbuFinish | sbfBegin | sbfEnd | lzdFinish | lzeFinish | cmpImageEnd | cmpFinish =>
    exact Laws.Spells.reserved_N _

/-! ## Formats: the fields of a word at their places -/

/-- The bits of a word that decoding reads: all but [31:29] of format G (R103). -/
def Format.kept : Format → Word
  | .G => 0xFFFFFFFF1FFFFFFF#64
  | .N | .B | .C | .P | .TR | .TS | .TW | .IB => BitVec.allOnes 64

/-- The fields that a format reads of `w`, at their places in bits [55:0]; every other bit is 0 (R91). -/
def Format.layout (w : Word) : Format → BitVec 56
  | .N => 0#56
  | .B => 0#48 ++ field w 0 8
  | .C => 0#50 ++ field w 0 6
  | .P => 0#24 ++ field w 16 16 ++ field w 0 16
  | .TR => 0#7 ++ (tableField w).bit ++ field w 40 8 ++ 0#40
  | .TS => 0#7 ++ (tableField w).bit ++ 0#39 ++ field w 0 9
  | .TW => 0#7 ++ (tableField w).bit ++ field w 40 8 ++ 0#16 ++ field w 16 8 ++ field w 8 8 ++ field w 0 8
  | .G => 0#27 ++ field w 26 3 ++ BitVec.ofBool (flag w 25) ++ BitVec.ofBool (flag w 24) ++ field w 16 8 ++ field w 0 16
  | .IB => 0#7 ++ BitVec.ofBool (flag w 48) ++ 0#16 ++ field w 16 16 ++ field w 0 16

theorem and_kept {f : Format} (hf : f ≠ .G) (w : Word) : w &&& f.kept = w := by
  cases f
  case G => exact absurd rfl hf
  all_goals exact BitVec.and_allOnes

theorem kept_and_reserved (f : Format) : f.kept &&& f.reserved = f.reserved := by cases f <;> decide

theorem opcodeOf_and_kept (f : Format) (w : Word) : opcodeOf (w &&& f.kept) = opcodeOf w :=
  field_and_of_allOnes (by cases f <;> rfl)

/-- A format without don't-care bits: what is not a field is reserved, so the fields at their places are the whole of [55:0]. -/
theorem layout_of_ne_G {f : Format} {w : Word} (hf : f ≠ .G) (h : w &&& f.reserved = 0#64) :
    f.layout w = field w 0 56 := by
  cases f with
  | G => exact absurd rfl hf
  | N => exact (field_eq_zero h 0 rfl).symm
  | B =>
    rw [Format.layout, ← field_eq_zero h 8 rfl]
    exact field_append w rfl
  | C =>
    rw [Format.layout, ← field_eq_zero h 6 rfl]
    exact field_append w rfl
  | P =>
    rw [Format.layout, ← field_eq_zero h 32 rfl]
    simp only [field_append]
  | TR =>
    rw [Format.layout, bit_tableField, ← field_eq_zero h 49 rfl, ← field_eq_zero h 0 (len := 40) rfl]
    simp only [field_append]
  | TS =>
    rw [Format.layout, bit_tableField, ← field_eq_zero h 49 rfl, ← field_eq_zero h 9 (len := 39) rfl]
    simp only [field_append]
  | TW =>
    rw [Format.layout, bit_tableField, ← field_eq_zero h 49 rfl, ← field_eq_zero h 24 (len := 16) rfl]
    simp only [field_append]
  | IB =>
    rw [Format.layout, ofBool_flag, ← field_eq_zero h 49 rfl, ← field_eq_zero h 32 rfl]
    simp only [field_append]

/-- Format G: the bits that are no field are the reserved ones and the don't-care ones, which `kept` clears. -/
theorem layout_G {w : Word} (h : w &&& Format.G.reserved = 0#64) :
    Format.G.layout w = field (w &&& Format.G.kept) 0 56 := by
  have hzero : (w &&& Format.G.kept) &&& 0x00FFFFFFE0000000#64 = 0#64 := by
    rw [BitVec.and_assoc]
    exact h
  have hkeep {lo len : Nat} (hm : field Format.G.kept lo len = BitVec.allOnes len) :
      field w lo len = field (w &&& Format.G.kept) lo len := (field_and_of_allOnes hm).symm
  rw [Format.layout, ofBool_flag, ofBool_flag, ← field_eq_zero hzero 29 rfl, hkeep (lo := 26) rfl, hkeep (lo := 25) rfl,
    hkeep (lo := 24) rfl, hkeep (lo := 16) rfl, hkeep (lo := 0) rfl]
  simp only [field_append]

/-- With its reserved bits 0, a word is its opcode and its fields, but for the don't-care bits (R91, R92, R103). -/
theorem layout_eq_field {f : Format} {w : Word} (h : w &&& f.reserved = 0#64) :
    f.layout w = field (w &&& f.kept) 0 56 := by
  by_cases hf : f = .G
  · subst hf
    exact layout_G h
  · rw [layout_of_ne_G hf h, and_kept hf]

/-! ## Registers -/

theorem ofNumber_eq_some {n : Byte} {r : Reg} : Reg.ofNumber n = some r ↔ n = r.number := by
  constructor
  · intro h
    unfold Reg.ofNumber at h
    split at h <;> cases h <;> rfl
  · rintro rfl
    cases r <;> rfl

theorem mem_registerNumbers : ∀ n : Byte, n.toNat ∈ registerNumbers ↔ (Reg.ofNumber n).isSome := by decide

/-! ## The decoder, by the row of R94 -/

/-- What decoding makes of the fields of `w` in the row of a command; the command's own operands do not matter. -/
def Instr.readOperands (w : Word) : Instr → Except Illegal Instr
  | .nop => .ok .nop
  | .reset => .ok .reset
  | .cfg _ => .ok (.cfg (field w 0 6))
  | .rdReg _ => decodeRdReg w
  | .rdCanvas _ _ => .ok (.rdCanvas (field w 16 16) (field w 0 16))
  | .rdCt _ _ => .ok (.rdCt (tableField w) (field w 40 8))
  | .sbuBegin => .ok .sbuBegin
  | .sbuFeed _ => .ok (.sbuFeed (field w 0 8))
  | .sbuFinish => .ok .sbuFinish
  | .sbfBegin => .ok .sbfBegin
  | .sbfPut _ => .ok (.sbfPut (field w 0 8))
  | .sbfEnd => .ok .sbfEnd
  | .lzdBegin _ => .ok (.lzdBegin (field w 0 8))
  | .lzdFeed _ => .ok (.lzdFeed (field w 0 8))
  | .lzdFinish => .ok .lzdFinish
  | .lzeBegin _ => .ok (.lzeBegin (field w 0 8))
  | .lzeFeed _ => .ok (.lzeFeed (field w 0 8))
  | .lzeFinish => .ok .lzeFinish
  | .cmpScreen _ _ => .ok (.cmpScreen (field w 16 16) (field w 0 16))
  | .cmpCtSize _ _ => decodeCtSize w
  | .cmpCtWrite _ _ _ _ _ => .ok (.cmpCtWrite (tableField w) (field w 40 8) (field w 16 8) (field w 8 8) (field w 0 8))
  | .cmpGce _ _ _ _ _ => .ok (.cmpGce (field w 26 3) (flag w 25) (flag w 24) (field w 16 8) (field w 0 16))
  | .cmpImagePos _ _ => .ok (.cmpImagePos (field w 16 16) (field w 0 16))
  | .cmpImageBegin _ _ _ => .ok (.cmpImageBegin (flag w 48) (field w 16 16) (field w 0 16))
  | .cmpPixel _ => .ok (.cmpPixel (field w 0 8))
  | .cmpImageEnd => .ok .cmpImageEnd
  | .cmpFinish => .ok .cmpFinish

/-- The opcode selects the row. -/
theorem decode_of_opcode {i : Instr} {w : Word} (h : opcodeOf w = i.opcode) :
    decode w = guarded i.format w (i.readOperands w) := by
  unfold decode
  rw [h]
  cases i <;> rfl

theorem guarded_eq_ok {f : Format} {w : Word} {k : Except Illegal Instr} {i : Instr} :
    guarded f w k = .ok i ↔ w &&& f.reserved = 0#64 ∧ k = .ok i := by
  unfold guarded
  split <;> simp [*]

theorem decodeRdReg_eq_ok {w : Word} {i : Instr} :
    decodeRdReg w = .ok i ↔ ∃ r, Reg.ofNumber (field w 0 8) = some r ∧ i = .rdReg r := by
  unfold decodeRdReg
  cases Reg.ofNumber (field w 0 8) <;> simp [eq_comm]

theorem decodeCtSize_eq_ok {w : Word} {i : Instr} :
    decodeCtSize w = .ok i ↔ (field w 0 9).toNat ≤ 256 ∧ i = .cmpCtSize (tableField w) (field w 0 9) := by
  unfold decodeCtSize
  split <;> simp_all [eq_comm]

/-- A word that decodes to `i` has the opcode and the reserved bits of `i`'s row, and `i` is what its fields spell there. Only `RD_REG` (`h_4`)
and `CMP_CT_SIZE` (`h_20`) test their fields; `h_28` is the unassigned opcodes. -/
theorem row_of_decode_eq_ok {w : Word} {i : Instr} (h : decode w = .ok i) :
    opcodeOf w = i.opcode ∧ w &&& i.format.reserved = 0#64 ∧ i.readOperands w = .ok i := by
  unfold decode at h
  split at h
  case h_28 => cases h
  all_goals obtain ⟨hres, hread⟩ := guarded_eq_ok.1 h
  case h_4 hop =>
    obtain ⟨r, -, rfl⟩ := decodeRdReg_eq_ok.1 hread
    exact ⟨hop, hres, hread⟩
  case h_20 hop =>
    obtain ⟨-, rfl⟩ := decodeCtSize_eq_ok.1 hread
    exact ⟨hop, hres, hread⟩
  all_goals
    cases hread
    exact ⟨‹_›, hres, rfl⟩

/-- The fields of `w` spell `i` in its own row exactly when `i` meets the row's constraint and they are `i`'s operand bits. -/
theorem readOperands_eq_self {i : Instr} {w : Word} :
    i.readOperands w = .ok i ↔ i.wellFormed = true ∧ i.format.layout w = i.operands := by
  cases i
  case rdReg r =>
    rw [Instr.readOperands, decodeRdReg_eq_ok]
    dsimp only [Instr.wellFormed, Instr.format, Format.layout, Instr.operands]
    rw [append_eq_append_iff]
    simp [ofNumber_eq_some]
  case cmpCtSize t n =>
    rw [Instr.readOperands, decodeCtSize_eq_ok]
    dsimp only [Instr.wellFormed, Instr.format, Format.layout, Instr.operands]
    repeat rw [append_eq_append_iff]
    rw [bit_inj]
    simp only [Instr.cmpCtSize.injEq, decide_eq_true_iff, true_and, and_true]
    constructor <;>
    · rintro ⟨hn, rfl, rfl⟩
      exact ⟨hn, rfl, rfl⟩
  all_goals
    dsimp only [Instr.readOperands, Instr.wellFormed, Instr.format, Format.layout, Instr.operands]
    repeat rw [append_eq_append_iff]
    simp [bit_inj, BitVec.ofBool_eq_iff_eq, and_assoc]

/-- The words that spell a command: its own word, with the don't-care bits of its format at any value (R96, R103). -/
theorem decode_eq_ok_iff {w : Word} {i : Instr} :
    decode w = .ok i ↔ i.wellFormed = true ∧ w &&& i.format.kept = encode i := by
  constructor
  · intro h
    obtain ⟨hop, hres, hread⟩ := row_of_decode_eq_ok h
    obtain ⟨hwf, hlayout⟩ := readOperands_eq_self.1 hread
    refine ⟨hwf, ?_⟩
    rw [encode, ← hlayout, layout_eq_field hres, ← hop, ← opcodeOf_and_kept i.format, opcodeOf_append_field]
  · rintro ⟨hwf, hword⟩
    have hop : opcodeOf w = i.opcode := by
      rw [← opcodeOf_and_kept i.format, hword, Laws.Spells.opcodeOf_encode]
    have hres : w &&& i.format.reserved = 0#64 := by
      rw [← kept_and_reserved, ← BitVec.and_assoc, hword, encode_and_reserved]
    have hlayout : i.format.layout w = i.operands := by rw [layout_eq_field hres, hword, field_encode]
    rw [decode_of_opcode hop]
    exact guarded_eq_ok.2 ⟨hres, readOperands_eq_self.2 ⟨hwf, hlayout⟩⟩

/-! ## Encoding and decoding are inverse -/

theorem append_and_eq_left {m n : Nat} {a c : BitVec m} {b d : BitVec n} (h1 : a &&& c = a) (h2 : b &&& d = b) :
    (a ++ b) &&& (c ++ d) = a ++ b := by
  rw [BitVec.and_append, h1, h2]

/-- The encoder writes 0 at the don't-care bits (R101, R103). -/
theorem encode_and_kept (i : Instr) : encode i &&& i.format.kept = encode i := by
  cases i with
  | cmpGce d u f ti dl =>
    exact append_and_eq_left (c := BitVec.allOnes 8)
      (d := 0x7FFFFF8#27 ++ BitVec.allOnes 3 ++ BitVec.allOnes 1 ++ BitVec.allOnes 1 ++ BitVec.allOnes 8 ++ BitVec.allOnes 16)
      BitVec.and_allOnes
      (append_and_eq_left (append_and_eq_left (append_and_eq_left (append_and_eq_left (append_and_eq_left
        BitVec.zero_and BitVec.and_allOnes) BitVec.and_allOnes) BitVec.and_allOnes) BitVec.and_allOnes) BitVec.and_allOnes)
  | _ => exact BitVec.and_allOnes

/-- Settles O1: a command's word is its own word with 0 at the don't-care bits (`decode_eq_ok_iff`). -/
theorem decodeEncode : Obligations.DecodeEncode := fun i hwf => decode_eq_ok_iff.2 ⟨hwf, encode_and_kept i⟩

/-- `CMP_GCE` is the only command of format G. -/
theorem and_kept_eq_ite (i : Instr) (w : Word) :
    w &&& i.format.kept = if i.opcode = 0x43#8 then w &&& 0xFFFFFFFF1FFFFFFF#64 else w := by
  cases i with
  | cmpGce d u f ti dl => rfl
  | _ => exact BitVec.and_allOnes

/-- Settles O2: a word that decodes to `i` is `i`'s word, but for the bits that `Format.kept` clears (`decode_eq_ok_iff`). -/
theorem encodeDecode : Obligations.EncodeDecode := by
  intro c i h
  obtain ⟨hwf, hword⟩ := decode_eq_ok_iff.1 h
  exact ⟨hwf, hword.symm.trans (and_kept_eq_ite i c)⟩

/-! ## The rows of R94 -/

/-- The row of R94 a command belongs to: the mask tests the opcode and the reserved bits. -/
def Instr.row (i : Instr) : OpcodeRow :=
  ⟨i.opcode.toNat, (BitVec.allOnes 8 ++ field i.format.reserved 0 56).toNat⟩

/-- One command of each row, in R94's order. -/
def rowCommands : List Instr :=
  [.nop, .reset, .cfg 0#6, .rdReg .sysStatus, .rdCanvas 0#16 0#16, .rdCt .gct 0#8,
   .sbuBegin, .sbuFeed 0#8, .sbuFinish, .sbfBegin, .sbfPut 0#8, .sbfEnd,
   .lzdBegin 0#8, .lzdFeed 0#8, .lzdFinish, .lzeBegin 0#8, .lzeFeed 0#8, .lzeFinish,
   .cmpScreen 0#16 0#16, .cmpCtSize .gct 0#9, .cmpCtWrite .gct 0#8 0#8 0#8 0#8, .cmpGce 0#3 false false 0#8 0#16,
   .cmpImagePos 0#16 0#16, .cmpImageBegin false 0#16 0#16, .cmpPixel 0#8, .cmpImageEnd, .cmpFinish]

theorem opcodeRows_eq_map : opcodeRows = rowCommands.map Instr.row := by decide

theorem row_mem_opcodeRows (i : Instr) : i.row ∈ opcodeRows := by
  cases i <;> dsimp only [Instr.row, Instr.opcode, Instr.format] <;> decide

theorem reserved_eq_append (f : Format) : f.reserved = 0#8 ++ field f.reserved 0 56 := by cases f <;> decide

theorem ofNat_toNat_mul_eq_append (op : Byte) : BitVec.ofNat 64 (op.toNat * 2 ^ 56) = op ++ 0#56 := by
  apply BitVec.eq_of_toNat_eq
  rw [BitVec.toNat_ofNat, BitVec.toNat_append, BitVec.toNat_ofNat, Nat.zero_mod, Nat.or_zero, Nat.shiftLeft_eq]
  omega

/-- A mask over the opcode and some operand bits tests the two apart. -/
theorem and_append_eq_iff {a op : Byte} {b m : BitVec 56} :
    (a ++ b) &&& (BitVec.allOnes 8 ++ m) = op ++ 0#56 ↔ a = op ∧ (a ++ b) &&& (0#8 ++ m) = 0#8 ++ 0#56 := by
  rw [BitVec.and_append, BitVec.and_append, append_eq_append_iff, append_eq_append_iff, BitVec.and_allOnes]
  simp

theorem matches_row_iff (i : Instr) (w : Word) :
    w &&& BitVec.ofNat 64 i.row.mask = BitVec.ofNat 64 (i.row.opcode * 2 ^ 56) ↔
      opcodeOf w = i.opcode ∧ w &&& i.format.reserved = 0#64 := by
  have hmask : BitVec.ofNat 64 i.row.mask = BitVec.allOnes 8 ++ field i.format.reserved 0 56 :=
    BitVec.ofNat_toNat .. |>.trans (BitVec.setWidth_eq _)
  have htest := and_append_eq_iff (a := opcodeOf w) (op := i.opcode) (b := field w 0 56) (m := field i.format.reserved 0 56)
  rw [opcodeOf_append_field, ← reserved_eq_append, ← hmask, ← ofNat_toNat_mul_eq_append] at htest
  exact htest

/-- The rows of R94, as the decoder has them: the opcode and the reserved bits of some command. -/
theorem matchesRow_iff (w : Word) :
    matchesRow w ↔ ∃ i : Instr, opcodeOf w = i.opcode ∧ w &&& i.format.reserved = 0#64 := by
  constructor
  · rintro ⟨r, hr, h⟩
    rw [opcodeRows_eq_map] at hr
    obtain ⟨i, -, rfl⟩ := List.mem_map.1 hr
    exact ⟨i, (matches_row_iff i w).1 h⟩
  · rintro ⟨i, h⟩
    exact ⟨i.row, row_mem_opcodeRows i, (matches_row_iff i w).2 h⟩

/-- In the row of `i`, decoding accepts the fields exactly under the constraint column of R94. -/
theorem exists_readOperands_iff {i : Instr} {w : Word} (h : opcodeOf w = i.opcode) :
    (∃ j, i.readOperands w = .ok j) ↔ wordConstraint w := by
  have hnum : w.toNat / 2 ^ 56 = i.opcode.toNat := by
    rw [← h, opcodeOf, toNat_field]
    omega
  rw [wordConstraint, hnum]
  cases i with
  | rdReg r =>
    have hreg := mem_registerNumbers (field w 0 8)
    rw [toNat_field] at hreg
    simpa [Instr.opcode, Instr.readOperands, decodeRdReg_eq_ok, Option.isSome_iff_exists] using hreg.symm
  | cmpCtSize t n => simp [Instr.opcode, Instr.readOperands, decodeCtSize_eq_ok, toNat_field]
  | _ => simp [Instr.opcode, Instr.readOperands]

/-- Settles O3: a word decodes exactly when it has the opcode and the reserved bits of some command's row (`matchesRow_iff`) and its fields
meet that row's constraint (`exists_readOperands_iff`). -/
theorem decodeMatchesTable : Obligations.DecodeMatchesTable := by
  intro c
  rw [matchesRow_iff]
  constructor
  · rintro ⟨i, h⟩
    obtain ⟨hop, hres, hread⟩ := row_of_decode_eq_ok h
    exact ⟨⟨i, hop, hres⟩, (exists_readOperands_iff hop).1 ⟨i, hread⟩⟩
  · rintro ⟨⟨i, hop, hres⟩, hword⟩
    obtain ⟨j, hread⟩ := (exists_readOperands_iff hop).2 hword
    exact ⟨j, (decode_of_opcode hop).trans (guarded_eq_ok.2 ⟨hres, hread⟩)⟩

/-- Settles O4: the decoder evaluated on each of the words. -/
theorem sampleWords : Obligations.SampleWords := by
  unfold Obligations.SampleWords
  decide

end Sys2Proof
end

section
/-! Sub-blocks (41_subblock.md). Each command of SBF and SBU in each phase, one lemma per case of its rule, from which the statements about
one command follow; then the whole streams: SBF cuts its input into `frameBlocks` (`Framing`), and SBU takes a sequence of blocks apart
(`Unframing`), whichever blocks they are. -/

namespace Sys2Proof.Machine

/-! ## Runs of one command over a list -/

/-- A command issued once for each item of a list is the fold of its effect. -/
theorem runCommands_map {α : Type} {f : α → Instr} {g : α → State → State} (h : ∀ a s, exec (f a) s = .next (g a s))
    (xs : List α) (s : State) : runCommands (xs.map f) s = some (xs.foldl (fun t a => g a t) s) := by
  induction xs generalizing s with
  | nil => rfl
  | cons a xs ih =>
    simp only [List.map_cons, runCommands, h]
    exact ih (g a s)

theorem runCommands_append (is js : List Instr) (s : State) :
    runCommands (is ++ js) s = (runCommands is s).bind (runCommands js) := by
  induction is generalizing s with
  | nil => rfl
  | cons i is ih =>
    simp only [List.cons_append, runCommands]
    cases exec i s with
    | next t => exact ih t
    | fault _ | refused _ => rfl

/-! ## SBF, case by case (R131, R132) -/

theorem sbfPut_err (b : Byte) {s : State} (h : s.sbf.st.phase = .err) : sbfPut b s = s := by
  simp [sbfPut, h]

theorem sbfPut_protocol (b : Byte) {s : State} (h : s.sbf.st.phase = .idle ∨ s.sbf.st.phase = .done) :
    sbfPut b s = protocolErr .sbf 0x19#8 s := by
  rcases h with h | h <;> simp only [sbfPut, h]

/-- The byte is buffered, and the block is not full yet. -/
theorem sbfPut_below (b : Byte) {s : State} (h : s.sbf.st.phase = .active) (hf : s.sbf.fill.toNat < 254) :
    sbfPut b s = s.setSbf (s.sbf.pushed b) := by
  have hne : (s.sbf.pushed b).fill.toNat ≠ Config.subblockMax := by
    rw [pushed_fill b (by omega), Config.subblockMax]
    omega
  simp only [sbfPut, h]
  exact if_neg hne

/-- The 255th byte flushes the block. -/
theorem sbfPut_full (b : Byte) {s : State} (h : s.sbf.st.phase = .active) (hf : s.sbf.fill.toNat = 254) :
    sbfPut b s = outSbf (255#8 :: (s.sbf.bufBytes 254 ++ [b])) (s.setSbf { s.sbf.pushed b with fill := 0#8 }) := by
  have hfill := pushed_fill b (f := s.sbf) (by omega)
  have hbuf := pushed_bufBytes s.sbf b
  rw [hf] at hfill hbuf
  simp only [sbfPut, h]
  rw [if_pos hfill, hbuf]

theorem sbfEnd_err {s : State} (h : s.sbf.st.phase = .err) : sbfEnd s = s := by
  simp [sbfEnd, h]

theorem sbfEnd_protocol {s : State} (h : s.sbf.st.phase = .idle ∨ s.sbf.st.phase = .done) :
    sbfEnd s = protocolErr .sbf 0x1A#8 s := by
  rcases h with h | h <;> simp only [sbfEnd, h]

/-- The bytes `SBF_END` writes: the remainder as a block, if there is one, and the terminator (R132). -/
def Sbf.flushed (f : Sbf) : List Byte :=
  (if f.fill = 0#8 then [] else f.fill :: f.bufBytes f.fill.toNat) ++ [0#8]

theorem sbfEnd_active {s : State} (h : s.sbf.st.phase = .active) :
    sbfEnd s = outSbf s.sbf.flushed (s.setSbf { s.sbf with st := { s.sbf.st with phase := .done }, fill := 0#8 }) := by
  have hlast : (if 0 < s.sbf.fill.toNat then s.sbf.fill :: s.sbf.bufBytes s.sbf.fill.toNat else []) =
      if s.sbf.fill = 0#8 then [] else s.sbf.fill :: s.sbf.bufBytes s.sbf.fill.toNat := by
    by_cases hz : s.sbf.fill = 0#8
    · simp [hz]
    · rw [if_neg hz, if_pos (BitVec.toNat_pos_of_ne_zero hz)]
  simp only [sbfEnd, h, hlast]
  rfl

/-! ## SBU, case by case (R121, R122) -/

theorem sbuFeed_err (b : Byte) {s : State} (h : s.sbu.st.phase = .err) : sbuFeed b s = s := by
  simp [sbuFeed, h]

theorem sbuFeed_protocol (b : Byte) {s : State} (h : s.sbu.st.phase = .idle ∨ s.sbu.st.phase = .done) :
    sbuFeed b s = protocolErr .sbu 0x11#8 s := by
  rcases h with h | h <;> simp only [sbuFeed, h]

/-- A length byte. -/
theorem sbuFeed_length {b : Byte} {s : State} (h : s.sbu.st.phase = .active) (hc : s.sbu.count = 0#8) (hb : b ≠ 0#8) :
    sbuFeed b s = s.setSbu { s.sbu with count := b } := by
  have hpos : b.toNat ≠ 0 := BitVec.toNat_ne_iff_ne.2 hb
  simp only [sbuFeed, h]
  rw [if_pos (by simp [hc]), if_neg hpos]

/-- The terminator. -/
theorem sbuFeed_terminator {s : State} (h : s.sbu.st.phase = .active) (hc : s.sbu.count = 0#8) :
    sbuFeed 0#8 s = if sbuToLzd s then lzdFinish (setPhase .sbu .done s) else setPhase .sbu .done s := by
  simp only [sbuFeed, h]
  rw [if_pos (by simp [hc]), if_pos (by simp)]
  rfl

/-- A data byte, 0 or not. -/
theorem sbuFeed_data (b : Byte) {s : State} (h : s.sbu.st.phase = .active) (hc : s.sbu.count ≠ 0#8) :
    sbuFeed b s = if sbuToLzd s then lzdFeed b (s.setSbu { s.sbu with count := s.sbu.count - 1#8 })
      else outSbu b (s.setSbu { s.sbu with count := s.sbu.count - 1#8 }) := by
  have hpos : s.sbu.count.toNat ≠ 0 := BitVec.toNat_ne_iff_ne.2 hc
  have hcount : BitVec.ofNat 8 (s.sbu.count.toNat - 1) = s.sbu.count - 1#8 := by bv_omega
  simp only [sbuFeed, h]
  rw [if_neg hpos, hcount]
  rfl

theorem sbuFinish_ignored {s : State} (h : s.sbu.st.phase = .err ∨ s.sbu.st.phase = .done) : sbuFinish s = s := by
  rcases h with h | h <;> simp only [sbuFinish, h]

theorem sbuFinish_idle {s : State} (h : s.sbu.st.phase = .idle) : sbuFinish s = protocolErr .sbu 0x12#8 s := by
  simp only [sbuFinish, h]

theorem sbuFinish_active {s : State} (h : s.sbu.st.phase = .active) :
    sbuFinish s = raiseErr .sbu .truncated (s.sbu.count.setWidth 16) s := by
  simp only [sbuFinish, h]

/-! ## Blocks (R74, R100) -/

/-- A sub-block: the length byte and the data. -/
def subBlock (b : List Byte) : List Byte := BitVec.ofNat 8 b.length :: b

/-- A block length the format has (R74). -/
def LegalBlock (b : List Byte) : Prop := 1 ≤ b.length ∧ b.length ≤ 255

theorem blockStream_nil : blockStream [] = [0#8] := rfl

theorem blockStream_eq (bs : List (List Byte)) : blockStream bs = bs.flatMap subBlock ++ [0#8] := rfl

theorem blockStream_cons (b : List Byte) (bs : List (List Byte)) : blockStream (b :: bs) = subBlock b ++ blockStream bs := by
  simp [blockStream_eq]

theorem length_blockStream (bs : List (List Byte)) : (blockStream bs).length = bs.flatten.length + bs.length + 1 := by
  induction bs with
  | nil => rfl
  | cons b bs ih =>
    simp only [blockStream_cons, subBlock, List.length_append, List.length_cons, List.flatten_cons, ih]
    omega

/-! ## The blocks of a framing (R133) -/

/-- The whole blocks of 255 bytes. -/
def fullBlocks (d : List Byte) : List (List Byte) := (List.range (d.length / 255)).map fun k => (d.drop (255 * k)).take 255

/-- The bytes after the whole blocks. -/
def remainder (d : List Byte) : List Byte := d.drop (255 * (d.length / 255))

/-- The last block, if a remainder is left. -/
def lastBlock (d : List Byte) : List (List Byte) := if d.length % 255 = 0 then [] else [remainder d]

/-- All blocks of the framing. -/
def frameBlocks (d : List Byte) : List (List Byte) := fullBlocks d ++ lastBlock d

theorem length_fullBlocks (d : List Byte) : (fullBlocks d).length = d.length / 255 := by simp [fullBlocks]

theorem length_remainder (d : List Byte) : (remainder d).length = d.length % 255 := by
  rw [remainder, List.length_drop]
  omega

theorem length_of_mem_fullBlocks {d b : List Byte} (h : b ∈ fullBlocks d) : b.length = 255 := by
  obtain ⟨k, hk, rfl⟩ := List.mem_map.1 h
  have := List.mem_range.1 hk
  rw [List.length_take, List.length_drop]
  omega

theorem legalBlock_of_mem_frameBlocks {d b : List Byte} (h : b ∈ frameBlocks d) : LegalBlock b := by
  rcases List.mem_append.1 h with h | h
  · simp [LegalBlock, length_of_mem_fullBlocks h]
  · have hlen := length_remainder d
    unfold lastBlock at h
    split at h
    · cases h
    · obtain rfl := List.mem_singleton.1 h
      constructor <;> omega

/-- `n` pieces of `m` items each, cut from the front of a list. -/
theorem flatten_map_take_drop {α : Type} (m n : Nat) (l : List α) :
    ((List.range n).map fun k => (l.drop (m * k)).take m).flatten = l.take (m * n) := by
  induction n with
  | zero => simp
  | succ n ih => simp [List.range_succ, ih, Nat.mul_succ, List.take_add]

theorem flatten_fullBlocks (d : List Byte) : (fullBlocks d).flatten = d.take (255 * (d.length / 255)) :=
  flatten_map_take_drop _ _ d

theorem flatten_lastBlock (d : List Byte) : (lastBlock d).flatten = remainder d := by
  unfold lastBlock
  split
  · next h => exact (List.length_eq_zero_iff.1 ((length_remainder d).trans h)).symm
  · simp

/-- The blocks hold the data, all of it and in order. -/
theorem flatten_frameBlocks (d : List Byte) : (frameBlocks d).flatten = d := by
  rw [frameBlocks, List.flatten_append, flatten_fullBlocks, flatten_lastBlock]
  exact List.take_append_drop _ d

theorem flatMap_subBlock_fullBlocks (d : List Byte) : (fullBlocks d).flatMap subBlock =
    (List.range (d.length / 255)).flatMap fun k => 255#8 :: (d.drop (255 * k)).take 255 := by
  rw [List.flatMap_def, List.flatMap_def, List.map_congr_left (g := fun b => 255#8 :: b)]
  · simp [fullBlocks, Function.comp_def]
  · intro b hb
    simp [subBlock, length_of_mem_fullBlocks hb]

theorem flatMap_subBlock_lastBlock (d : List Byte) : (lastBlock d).flatMap subBlock =
    if d.length % 255 = 0 then [] else BitVec.ofNat 8 (d.length % 255) :: remainder d := by
  unfold lastBlock
  split
  · rfl
  · simp [subBlock, length_remainder]

/-- R133 as a sequence of blocks. -/
theorem framed_eq (d : List Byte) : framed d = blockStream (frameBlocks d) := by
  rw [blockStream_eq, frameBlocks, List.flatMap_append, flatMap_subBlock_fullBlocks, flatMap_subBlock_lastBlock]
  rfl

theorem length_framed (d : List Byte) : (framed d).length = d.length + (d.length + 254) / 255 + 1 := by
  have hlast : (lastBlock d).length = if d.length % 255 = 0 then 0 else 1 := by
    unfold lastBlock
    split <;> rfl
  rw [framed_eq, length_blockStream, flatten_frameBlocks, frameBlocks, List.length_append, length_fullBlocks, hlast]
  split <;> omega

/-! ### One byte more -/

/-- A piece that ends within `d` is the same when `d` is longer. -/
theorem take_drop_append {α : Type} {d : List α} (e : List α) {m k : Nat} (h : k + m ≤ d.length) :
    ((d ++ e).drop k).take m = (d.drop k).take m := by
  rw [List.drop_append_of_le_length (by omega), List.take_append_of_le_length (by rw [List.length_drop]; omega)]

theorem fullBlocks_append_below {d : List Byte} (b : Byte) (h : d.length % 255 < 254) : fullBlocks (d ++ [b]) = fullBlocks d := by
  have hn : (d ++ [b]).length / 255 = d.length / 255 := by simp; omega
  rw [fullBlocks, fullBlocks, hn]
  refine List.map_congr_left fun k hk => take_drop_append [b] ?_
  have := List.mem_range.1 hk
  omega

theorem remainder_append_below {d : List Byte} (b : Byte) (h : d.length % 255 < 254) :
    remainder (d ++ [b]) = remainder d ++ [b] := by
  have hn : (d ++ [b]).length / 255 = d.length / 255 := by simp; omega
  rw [remainder, remainder, hn, List.drop_append_of_le_length (by omega)]

theorem fullBlocks_append_full {d : List Byte} (b : Byte) (h : d.length % 255 = 254) :
    fullBlocks (d ++ [b]) = fullBlocks d ++ [remainder d ++ [b]] := by
  have hn : (d ++ [b]).length / 255 = d.length / 255 + 1 := by simp; omega
  rw [fullBlocks, fullBlocks, remainder, hn, List.range_succ, List.map_append]
  congr 1
  · refine List.map_congr_left fun k hk => take_drop_append [b] ?_
    have := List.mem_range.1 hk
    omega
  · rw [List.map_singleton, List.drop_append_of_le_length (by omega), List.take_of_length_le (by simp; omega)]

theorem remainder_append_full {d : List Byte} (b : Byte) (h : d.length % 255 = 254) : remainder (d ++ [b]) = [] := by
  apply List.length_eq_zero_iff.1
  rw [length_remainder, List.length_append, List.length_singleton]
  omega

/-! ## The framer over a stream -/

/-- The block `t` has put `d` since it had `s`'s channels and began framing: the whole blocks are out and the remainder is buffered. -/
structure Framing (s : State) (d : List Byte) (t : State) : Prop where
  active : t.sbf.st.phase = .active
  fill   : t.sbf.fill.toNat = d.length % 255
  buffer : t.sbf.bufBytes t.sbf.fill.toNat = remainder d
  out    : t.out = { s.out with sbfOut := s.out.sbfOut ++ (fullBlocks d).flatMap subBlock }

theorem framing_sbfBegin (s : State) : Framing s [] (respond 0#64 (sbfBegin s)) where
  active := rfl
  fill := rfl
  buffer := rfl
  out := by simp [sbfBegin, fullBlocks]

theorem Framing.put {s t : State} {d : List Byte} (h : Framing s d t) (b : Byte) :
    Framing s (d ++ [b]) (respond 0#64 (sbfPut b t)) := by
  obtain ⟨hactive, hfill, hbuf, hout⟩ := h
  have hmod : d.length % 255 < 255 := Nat.mod_lt _ (by decide)
  by_cases hlt : d.length % 255 < 254
  · have hpushed := pushed_fill b (f := t.sbf) (by omega)
    rw [sbfPut_below b hactive (by omega)]
    refine ⟨hactive, ?_, ?_, ?_⟩
    · rw [respond_sbf, State.setSbf_sbf, hpushed, List.length_append, List.length_singleton]
      omega
    · rw [respond_sbf, State.setSbf_sbf, hpushed, pushed_bufBytes, hbuf, remainder_append_below b hlt]
    · rw [respond_out, State.setSbf_out, hout, fullBlocks_append_below b hlt]
  · have hmod : d.length % 255 = 254 := by omega
    have hblock : subBlock (remainder d ++ [b]) = 255#8 :: (remainder d ++ [b]) := by
      simp [subBlock, length_remainder, hmod]
    rw [hfill, hmod] at hbuf
    rw [sbfPut_full b hactive (by omega), hbuf]
    refine ⟨hactive, ?_, ?_, ?_⟩
    · simp [Nat.add_mod, hmod]
    · rw [remainder_append_full b hmod]
      rfl
    · simp [hout, fullBlocks_append_full b hmod, hblock]

theorem Framing.puts {s t : State} {d : List Byte} (h : Framing s d t) (xs : List Byte) :
    Framing s (d ++ xs) (xs.foldl (fun t x => respond 0#64 (sbfPut x t)) t) := by
  induction xs generalizing d t with
  | nil => simpa using h
  | cons x xs ih => simpa using ih (h.put x)

/-- What `SBF_END` flushes is the last block and the terminator. -/
theorem Framing.flushed_eq {s t : State} {d : List Byte} (h : Framing s d t) :
    t.sbf.flushed = (lastBlock d).flatMap subBlock ++ [0#8] := by
  obtain ⟨-, hfill, hbuf, -⟩ := h
  have hval : t.sbf.fill = BitVec.ofNat 8 (d.length % 255) := by rw [← hfill, BitVec.ofNat_toNat, BitVec.setWidth_eq]
  have hzero : t.sbf.fill = 0#8 ↔ d.length % 255 = 0 := by rw [← hfill, ← BitVec.toNat_inj]; rfl
  rw [Sbf.flushed, flatMap_subBlock_lastBlock, hbuf, ← hval]
  simp only [hzero]

/-- The stream ended (R133). -/
theorem Framing.ended {s t : State} {d : List Byte} (h : Framing s d t) :
    (sbfEnd t).out = { s.out with sbfOut := s.out.sbfOut ++ framed d } ∧ (sbfEnd t).sbf.st.phase = .done := by
  have hframed : framed d = (fullBlocks d).flatMap subBlock ++ t.sbf.flushed := by
    rw [framed_eq, blockStream_eq, frameBlocks, List.flatMap_append, List.append_assoc, h.flushed_eq]
  rw [sbfEnd_active h.active, hframed]
  simp [h.out]

/-! ## The unframer over a stream -/

/-- The bytes `xs`, fed by the host one after another. -/
def sbuFeedAll (xs : List Byte) (s : State) : State := xs.foldl (fun t x => respond 0#64 (sbuFeed x t)) s

theorem sbuFeedAll_cons (x : Byte) (xs : List Byte) (s : State) :
    sbuFeedAll (x :: xs) s = sbuFeedAll xs (respond 0#64 (sbuFeed x s)) := rfl

theorem sbuFeedAll_append (xs ys : List Byte) (s : State) :
    sbuFeedAll (xs ++ ys) s = sbuFeedAll ys (sbuFeedAll xs s) := List.foldl_append

theorem runCommands_sbuFeed (xs : List Byte) (s : State) :
    runCommands (.sbuBegin :: xs.map Instr.sbuFeed) s = some (sbuFeedAll xs (respond 0#64 (sbuBegin s))) :=
  runCommands_map (fun _ _ => rfl) xs _

/-- A byte fed to a unit that is not ACTIVE leaves it in ERR (R121, R304). -/
theorem sbuFeed_phase_err (x : Byte) {s : State} (h : s.sbu.st.phase ≠ .active) : (sbuFeed x s).sbu.st.phase = .err := by
  cases hp : s.sbu.st.phase with
  | idle => rw [sbuFeed_protocol x (.inl hp)]; rfl
  | active => exact absurd hp h
  | done => rw [sbuFeed_protocol x (.inr hp)]; rfl
  | err => rwa [sbuFeed_err x hp]

theorem sbuFeedAll_phase_err (xs : List Byte) {s : State} (h : s.sbu.st.phase = .err) :
    (sbuFeedAll xs s).sbu.st.phase = .err := by
  induction xs generalizing s with
  | nil => exact h
  | cons x xs ih => exact ih (sbuFeed_phase_err x (by simp [h]))

/-- A unit that bytes take to DONE was ACTIVE before the first of them. -/
theorem active_of_sbuFeedAll_done {x : Byte} {xs : List Byte} {s : State}
    (h : (sbuFeedAll (x :: xs) s).sbu.st.phase = .done) : s.sbu.st.phase = .active := by
  by_contra hs
  have herr := sbuFeedAll_phase_err xs (s := respond 0#64 (sbuFeed x s)) (sbuFeed_phase_err x hs)
  rw [sbuFeedAll_cons, herr] at h
  cases h

/-- The unit that bytes take to DONE is ACTIVE before the last of them. -/
theorem active_of_take_lt {xs : List Byte} {n : Nat} {s : State} (h : (sbuFeedAll xs s).sbu.st.phase = .done)
    (hn : n < xs.length) : (sbuFeedAll (xs.take n) s).sbu.st.phase = .active := by
  rw [← List.take_append_drop n xs, sbuFeedAll_append, List.drop_eq_getElem_cons hn] at h
  exact active_of_sbuFeedAll_done h

/-- The block `t` unframes with the route off: `c` bytes of the current block are missing, and `ys` was output since it had `s`'s channels. -/
structure Unframing (s : State) (ys : List Byte) (c : Nat) (t : State) : Prop where
  active : t.sbu.st.phase = .active
  off    : sbuToLzd t = false
  count  : t.sbu.count.toNat = c
  out    : t.out = { s.out with sbuOut := s.out.sbuOut ++ ys }

theorem unframing_sbuBegin {s : State} (hoff : sbuToLzd s = false) : Unframing s [] 0 (respond 0#64 (sbuBegin s)) where
  active := rfl
  off := hoff
  count := rfl
  out := by simp [sbuBegin]

namespace Unframing
variable {s t : State} {ys : List Byte} {c : Nat}

theorem count_eq_zero (h : Unframing s ys 0 t) : t.sbu.count = 0#8 := BitVec.eq_of_toNat_eq h.count

theorem length_byte (h : Unframing s ys 0 t) {b : Byte} (hb : b ≠ 0#8) :
    Unframing s ys b.toNat (respond 0#64 (sbuFeed b t)) := by
  rw [sbuFeed_length h.active h.count_eq_zero hb]
  exact ⟨h.active, h.off, rfl, h.out⟩

theorem data_byte (h : Unframing s ys (c + 1) t) (b : Byte) :
    Unframing s (ys ++ [b]) c (respond 0#64 (sbuFeed b t)) := by
  obtain ⟨hactive, hoff, hcount, hout⟩ := h
  have hne : t.sbu.count ≠ 0#8 := fun hz => by simp [hz] at hcount
  rw [sbuFeed_data b hactive hne, if_neg (by simp [hoff])]
  refine ⟨hactive, hoff, ?_, by simp [hout]⟩
  change (t.sbu.count - 1#8).toNat = c
  bv_omega

theorem terminator (h : Unframing s ys 0 t) : (sbuFeed 0#8 t).sbu.st.phase = .done ∧
    (sbuFeed 0#8 t).out = { s.out with sbuOut := s.out.sbuOut ++ ys } := by
  rw [sbuFeed_terminator h.active h.count_eq_zero, if_neg (by simp [h.off])]
  exact ⟨rfl, h.out⟩

theorem data (p : List Byte) (h : Unframing s ys (p.length + c) t) : Unframing s (ys ++ p) c (sbuFeedAll p t) := by
  induction p generalizing ys t with
  | nil => simpa [sbuFeedAll] using h
  | cons b p ih =>
    have h' : Unframing s ys (p.length + c + 1) t := by rwa [List.length_cons, Nat.add_right_comm] at h
    simpa [sbuFeedAll_cons] using ih (h'.data_byte b)

theorem block {b : List Byte} (hb : LegalBlock b) (h : Unframing s ys 0 t) :
    Unframing s (ys ++ b) 0 (sbuFeedAll (subBlock b) t) := by
  obtain ⟨hpos, hle⟩ := hb
  have hlen : (BitVec.ofNat 8 b.length).toNat = b.length := toNat_ofNat_of_lt (by omega)
  have hne : BitVec.ofNat 8 b.length ≠ 0#8 := fun hz => by
    rw [hz, BitVec.toNat_ofNat] at hlen
    omega
  have hdata := h.length_byte hne
  rw [hlen] at hdata
  exact data b hdata

/-- A sequence of legal blocks and its terminator end in DONE with the blocks' data output (R134). -/
theorem stream {bs : List (List Byte)} (hbs : ∀ b ∈ bs, LegalBlock b) (h : Unframing s ys 0 t) :
    (sbuFeedAll (blockStream bs) t).sbu.st.phase = .done ∧
    (sbuFeedAll (blockStream bs) t).out = { s.out with sbuOut := s.out.sbuOut ++ (ys ++ bs.flatten) } := by
  induction bs generalizing ys t with
  | nil => simpa [sbuFeedAll, blockStream_nil] using h.terminator
  | cons b bs ih =>
    obtain ⟨hb, hbs⟩ := List.forall_mem_cons.1 hbs
    rw [blockStream_cons, sbuFeedAll_append]
    simpa using ih hbs (h.block hb)

/-- Bytes that end in DONE are the rest of the current block, legal blocks, and the terminator (R134). -/
theorem eq_blockStream_of_done {xs : List Byte} (h : Unframing s ys c t) (hdone : (sbuFeedAll xs t).sbu.st.phase = .done) :
    ∃ p bs, p.length = c ∧ (∀ b ∈ bs, LegalBlock b) ∧ xs = p ++ blockStream bs := by
  induction xs generalizing ys c t with
  | nil => simp [sbuFeedAll, h.active] at hdone
  | cons x xs ih =>
    rw [sbuFeedAll_cons] at hdone
    cases c with
    | succ c =>
      obtain ⟨p, bs, hp, hbs, rfl⟩ := ih (h.data_byte x) hdone
      exact ⟨x :: p, bs, by simp [hp], hbs, rfl⟩
    | zero =>
      by_cases hx : x = 0#8
      · subst hx
        cases xs with
        | nil => exact ⟨[], [], rfl, by simp, rfl⟩
        | cons y ys =>
          have hactive := active_of_sbuFeedAll_done hdone
          rw [respond_sbu, h.terminator.1] at hactive
          cases hactive
      · obtain ⟨p, bs, hp, hbs, rfl⟩ := ih (h.length_byte hx) hdone
        have hpos : 0 < x.toNat := BitVec.toNat_pos_of_ne_zero hx
        have hlt := x.isLt
        have hlegal : LegalBlock p := ⟨by omega, by omega⟩
        refine ⟨[], p :: bs, rfl, List.forall_mem_cons.2 ⟨hlegal, hbs⟩, ?_⟩
        simp [blockStream_cons, subBlock, hp]

end Unframing

/-! ## The two laws -/

/-- Settles O31: `Framing` holds after every put, and `SBF_END` writes what is left. -/
theorem framingLaw : Obligations.FramingLaw := by
  intro s d
  have hfed : Framing s d _ := (framing_sbfBegin s).puts d
  obtain ⟨hout, hdone⟩ := hfed.ended
  refine ⟨_, ?_, (respond_out 0#64 _).trans hout, hdone, length_framed d⟩
  change runCommands _ (respond 0#64 (sbfBegin s)) = _
  rw [runCommands_append, runCommands_map (g := fun x t => respond 0#64 (sbfPut x t)) fun _ _ => rfl]
  rfl

/-- Any sequence of legal blocks is accepted into DONE on its last byte, with its data output (R134). -/
theorem sbu_accepts_blockStream {s : State} {bs : List (List Byte)} (hoff : sbuToLzd s = false) (hbs : ∀ b ∈ bs, LegalBlock b) :
    ∃ t : State, runCommands (.sbuBegin :: (blockStream bs).map Instr.sbuFeed) s = some t ∧
      t.out = { s.out with sbuOut := s.out.sbuOut ++ bs.flatten } ∧ t.sbu.st.phase = .done ∧
      exec .sbuFinish t = .next { t with responses := t.responses ++ [0#64] } ∧
      (∀ (n : Nat) (u : State), n < (blockStream bs).length →
        runCommands (.sbuBegin :: ((blockStream bs).take n).map Instr.sbuFeed) s = some u → u.sbu.st.phase = .active) := by
  obtain ⟨hdone, hout⟩ := (unframing_sbuBegin hoff).stream hbs
  refine ⟨_, runCommands_sbuFeed _ s, hout, hdone, ?_, fun n u hn hrun => ?_⟩
  · exact congrArg complete (sbuFinish_ignored (.inr hdone))
  · obtain rfl := Option.some.inj ((runCommands_sbuFeed _ s).symm.trans hrun)
    exact active_of_take_lt hdone hn

/-- Settles O32: `framed d` is the stream of `frameBlocks d`, legal blocks are accepted (`Unframing.stream`), and nothing else is
(`Unframing.eq_blockStream_of_done`). -/
theorem unframingLaw : Obligations.UnframingLaw := by
  refine ⟨fun s d hoff => ?_, fun s t xs hoff hrun hdone => ?_, fun s bs hoff hbs => sbu_accepts_blockStream hoff hbs⟩
  · have haccept := sbu_accepts_blockStream hoff fun b (hb : b ∈ frameBlocks d) => legalBlock_of_mem_frameBlocks hb
    rwa [← framed_eq, flatten_frameBlocks] at haccept
  · obtain rfl := Option.some.inj ((runCommands_sbuFeed xs s).symm.trans hrun)
    have hbegun := unframing_sbuBegin hoff
    obtain ⟨p, bs, hp, hbs, rfl⟩ := hbegun.eq_blockStream_of_done hdone
    obtain rfl := List.length_eq_zero_iff.1 hp
    exact ⟨bs, hbs, rfl, (hbegun.stream hbs).2⟩

end Sys2Proof.Machine

namespace Sys2Proof.Subblock

open Machine

/-! ## The statements about one command -/

/-- Settles O25: the rule of R120 has one case. -/
theorem sbuBegin : Obligations.SbuBegin := ⟨rfl, fun _ => rfl⟩

/-- Settles O28: the rule of R130 has one case. -/
theorem sbfBegin : Obligations.SbfBegin := ⟨rfl, fun _ => rfl⟩

/-- Settles O26, a clause per case of the rule; a forwarded command runs the rule that the host's command runs. -/
theorem sbuFeed : Obligations.SbuFeed := by
  refine ⟨fun _ => rfl, fun s b => ⟨fun h => ?_, fun h => ?_, fun h hc hb => ?_, fun h hc hb hr => ?_, fun h hc hb hr => ?_,
    fun h hc hr => ?_, fun h hc hr => ?_⟩⟩
  · exact congrArg complete (sbuFeed_err b h)
  · exact congrArg complete (sbuFeed_protocol b h)
  · exact congrArg complete (sbuFeed_length h hc hb)
  · subst hb
    exact congrArg complete ((sbuFeed_terminator h hc).trans (if_neg (ne_true_of_eq_false hr)))
  · subst hb
    exact congrArg complete ((sbuFeed_terminator h hc).trans (if_pos hr))
  · exact congrArg complete ((sbuFeed_data b h hc).trans (if_neg (ne_true_of_eq_false hr)))
  · exact congrArg complete ((sbuFeed_data b h hc).trans (if_pos hr))

/-- Settles O27, a clause per case of the rule. -/
theorem sbuFinish : Obligations.SbuFinish :=
  ⟨rfl, fun _ => ⟨fun h => congrArg complete (sbuFinish_ignored h), fun h => congrArg complete (sbuFinish_idle h),
    fun h => congrArg complete (sbuFinish_active h)⟩⟩

/-- Settles O29, a clause per case of the rule: below the last place of the buffer, and at it. -/
theorem sbfPut : Obligations.SbfPut := by
  refine ⟨fun _ => rfl, fun s b => ⟨fun h => congrArg complete (sbfPut_err b h),
    fun h => congrArg complete (sbfPut_protocol b h), fun h hle => ?_⟩⟩
  have hread (i : Nat) : Memory.read 0#8 (s.sbf.pushed b).buf i =
      if i = s.sbf.fill.toNat then b else Memory.read 0#8 s.sbf.buf i := by
    simp only [Sbf.pushed, Memory.read_write, eq_comm]
  rcases Nat.lt_or_eq_of_le hle with hlt | heq
  · exact ⟨s.sbf.pushed b, rfl, hread, fun _ => ⟨pushed_fill b hle, congrArg complete (sbfPut_below b h hlt)⟩,
      fun heq => absurd heq hlt.ne⟩
  · exact ⟨{ s.sbf.pushed b with fill := 0#8 }, rfl, hread, fun hlt => absurd heq hlt.ne,
      fun _ => ⟨rfl, congrArg complete (sbfPut_full b h heq)⟩⟩

/-- Settles O30, a clause per case of the rule. -/
theorem sbfEnd : Obligations.SbfEnd := by
  refine ⟨rfl, fun s => ⟨fun h => congrArg complete (sbfEnd_err h), fun h => congrArg complete (sbfEnd_protocol h),
    fun h => (congrArg complete (sbfEnd_active h)).trans ?_⟩⟩
  rw [List.append_assoc]
  rfl

end Sys2Proof.Subblock
end

section
/-! The LZW decoder (42_lzw_decoder.md). The machine's `expand` is the chain of R159 (`expands_expand`), so each class of `lzdSymbol` makes the
step of its rule (`symbolStep_lzdSymbol`), and `lzdLoop` is the loop of R151 (`lzdReads_lzdLoop`). The statements about one command follow
from one lemma per case of its rule. -/

namespace Sys2Proof.Machine

/-! ## Data codes and expansion (R31, R159) -/

theorem lt_next_of_isDataCode {d : Lzd} {n c : Nat} (h : d.TableOk) (hn : n ≤ d.next.toNat)
    (hc : isDataCode d.cs.toNat n c) : c < d.next.toNat := by
  have hclear := clear_lt_eoi d
  have hnext := h.next_lo
  rcases hc with hc | ⟨-, hc⟩
  · have hc : c < d.clear := hc
    omega
  · omega

theorem walk_literal (d : Lzd) (n : Nat) {c : Nat} (h : c < d.clear) : d.walk (n + 1) c = [BitVec.ofNat 8 c] := by
  rw [Lzd.walk, if_neg (by omega)]

theorem walk_slot (d : Lzd) (n : Nat) {c : Nat} (h : d.eoi < c) :
    d.walk (n + 1) c = d.suffixAt c :: d.walk n (d.prefixAt c).toNat := by
  have hclear := clear_lt_eoi d
  rw [Lzd.walk, if_pos (by omega)]

/-- With more fuel than the code, the walk ends in a literal: it collects the chain's bytes, one per slot on it and the literal's. -/
theorem expands_walk {d : Lzd} (h : d.TableOk) {n c : Nat} (hn : c < n) (hc : isDataCode d.cs.toNat d.next.toNat c) :
    Expands d c (d.walk n c).reverse ∧ 1 ≤ (d.walk n c).length ∧ (d.walk n c).length ≤ c - d.eoi + 1 := by
  induction n generalizing c with
  | zero => omega
  | succ n ih =>
    rcases hc with hlit | ⟨hlt, hnext⟩
    · rw [walk_literal d n hlit]
      exact ⟨.literal hlit, le_rfl, Nat.le_add_left _ _⟩
    · have hlt : d.eoi < c := hlt
      have hprefix := h.chain c hlt hnext
      have hbelow : (d.prefixAt c).toNat - d.eoi < c - d.eoi := by
        have hclear := clear_lt_eoi d
        rcases hprefix with hp | ⟨-, hp⟩
        · have hp : (d.prefixAt c).toNat < d.clear := hp
          omega
        · omega
      obtain ⟨hexp, -, hlen⟩ := ih (by omega) (isDataCode_mono hnext.le hprefix)
      rw [walk_slot d n hlt, List.reverse_cons, List.length_cons]
      exact ⟨.slot hlt hexp, by omega, by omega⟩

/-- A code has one expansion: a literal is no slot. -/
theorem Expands.unique {d : Lzd} {c : Nat} {e e' : List Byte} (h : Expands d c e) (h' : Expands d c e') : e = e' := by
  have hclear := clear_lt_eoi d
  induction h generalizing e' with
  | literal hlit =>
    cases h' with
    | literal _ => rfl
    | slot hlt _ => omega
  | slot hlt _ ih =>
    cases h' with
    | literal hlit => omega
    | slot _ hp => rw [ih hp]

section
variable {d : Lzd} {c : Nat} (h : d.TableOk) (hc : isDataCode d.cs.toNat d.next.toNat c)
include h hc

theorem lt_dictSlots : c < Config.dictSlots := lt_of_lt_of_le (lt_next_of_isDataCode h le_rfl hc) h.next_hi

theorem expands_expand : Expands d c (d.expand c) := (expands_walk h (lt_dictSlots h hc) hc).1

theorem length_expand : 1 ≤ (d.expand c).length ∧ (d.expand c).length ≤ 4095 := by
  have hlt := lt_dictSlots h hc
  have hslots : Config.dictSlots = 4096 := rfl
  have heoi : 2 ≤ d.eoi := Nat.succ_le_succ (Nat.two_pow_pos _)
  obtain ⟨-, hpos, hle⟩ := expands_walk h hlt hc
  rw [Lzd.expand, List.length_reverse]
  exact ⟨hpos, by omega⟩

theorem head?_expand : (d.expand c).head? = some ((d.expand c).headD 0#8) := by
  have hpos := (length_expand h hc).1
  cases he : d.expand c with
  | nil => simp [he] at hpos
  | cons x e => rfl

end

/-- Settles O36: the walk has fuel for every chain, since each slot leads to a smaller data code. -/
theorem expansionIsTheChain : Obligations.ExpansionIsTheChain := fun _ _ h hc =>
  ⟨expands_expand h hc, fun _ he => he.unique (expands_expand h hc), length_expand h hc⟩

/-! ## The code equal to the table size (R157) -/

/-- `PREV` holds a code only after a data code, which advanced `NEXT` (R31). -/
theorem Lzd.TableOk.eoi_lt_next {d : Lzd} {p : Code} (h : d.TableOk) (hprev : d.prev = some p) : d.eoi < d.next.toNat := by
  have hne : d.next.toNat ≠ d.eoi := fun heq => by simp [h.prev.2 (.inl heq)] at hprev
  have hlo := h.next_lo
  omega

/-- The chain of a code below `NEXT` reads slots below `NEXT` only. -/
theorem Expands.of_slots_eq {d d' : Lzd} (h : d.TableOk) (hcs : d'.cs = d.cs)
    (hslots : ∀ j, j < d.next.toNat → d'.prefixAt j = d.prefixAt j ∧ d'.suffixAt j = d.suffixAt j)
    {c : Nat} {e : List Byte} (he : Expands d c e) (hc : c < d.next.toNat) : Expands d' c e := by
  induction he with
  | literal hlit => exact .literal (by rwa [Lzd.clear, hcs])
  | @slot c e hlt _ ih =>
    obtain ⟨hpfx, hsfx⟩ := hslots c hc
    have hp := ih (lt_next_of_isDataCode h hc.le (h.chain c hlt hc))
    rw [← hpfx] at hp
    rw [← hsfx]
    exact .slot (by rwa [Lzd.eoi, hcs]) hp

/-- The slot that `Grow` registers expands to the previous code's expansion and the new byte (R159, R160). -/
theorem Grows.expands_next {d d' : Lzd} {c : Nat} {p : Code} {e : List Byte} {x : Byte} (hg : Grows d c x d')
    (h : d.TableOk) (hfull : d.full = false) (hprev : d.prev = some p) (he : Expands d p.toNat e) :
    Expands d' d.next.toNat (e ++ [x]) := by
  obtain ⟨-, hcs, -, -⟩ := hg.kept
  have hslots := hg.slots hfull
  simp only [hprev] at hslots
  have hold : Expands d' p.toNat e :=
    he.of_slots_eq h hcs (fun j hj => by simpa [hj.ne] using hslots j) (lt_next_of_isDataCode h le_rfl (h.prev_is p hprev))
  have hlt : d'.eoi < d.next.toNat := by
    rw [Lzd.eoi, hcs]
    exact h.eoi_lt_next hprev
  obtain ⟨hpfx, hsfx⟩ := hslots d.next.toNat
  rw [if_pos rfl] at hpfx hsfx
  rw [← hpfx] at hold
  rw [← hsfx]
  exact .slot hlt hold

theorem headD_kwkExpansion (d : Lzd) (p : Code) : (d.kwkExpansion p).headD 0#8 = (d.expand p.toNat).headD 0#8 := by
  rw [Lzd.kwkExpansion]
  cases d.expand p.toNat <;> rfl

/-- Settles O37: the registration is `{PREV, head}` (`Grows.expands_next`), and the machine's grown dictionary has the invariant, so its own
expansion is that one. -/
theorem tableSizeCodeEntry : Obligations.TableSizeCodeEntry := by
  refine ⟨fun d d' p e x h hfull hprev he _ hg => hg.expands_next h hfull hprev he, ?_⟩
  rintro d d' p h hfull hprev rfl
  have hp := h.prev_is p hprev
  have hg := grown_grows d.next.toNat (d.kwkExpansion p) h
  have hexp := hg.expands_next h hfull hprev (expands_expand h hp)
  rw [headD_kwkExpansion] at hexp
  have hlt := h.eoi_lt_next hprev
  have h' := grown_tableOk (d.kwkExpansion p) h (.inr (.inr ⟨hlt, rfl, by simp [hprev]⟩))
  have hc : isDataCode (d.grown d.next.toNat (d.kwkExpansion p)).cs.toNat
      (d.grown d.next.toNat (d.kwkExpansion p)).next.toNat d.next.toNat := by
    rw [hg.next hfull, grown_cs]
    exact .inr ⟨hlt, Nat.lt_succ_self _⟩
  exact ⟨⟨_, head?_expand h hp, rfl⟩, hexp, (expands_expand h' hc).unique hexp⟩

/-! ## The class of a code (R98) -/

/-- `c` meets the condition that R98's table gives for a class. -/
def Lzd.InClass (d : Lzd) (c : Nat) : CodeClass → Prop
  | .lit => c < d.clear
  | .clr => c = d.clear
  | .eoi => c = d.eoi
  | .dict => d.eoi < c ∧ c < d.next.toNat
  | .kwk p => d.prev = some p ∧ c = d.next.toNat ∧ d.eoi < c
  | .bad => d.eoi < c ∧ (d.next.toNat < c ∨ (c = d.next.toNat ∧ d.prev = none))

/-- The tests of `classify`, in their order, leave each class its own condition. -/
theorem inClass_classify (d : Lzd) (c : Nat) : d.InClass c (d.classify c) := by
  have heoi := eoi_eq d
  unfold Lzd.classify
  split
  · assumption
  split
  · assumption
  split
  · assumption
  split
  · assumption
  have hlt : d.eoi < c := by omega
  cases hprev : d.prev with
  | none => exact ⟨hlt, by simp only [hprev, and_true]; omega⟩
  | some p =>
    simp only []
    split
    · next hc => exact ⟨hprev, hc⟩
    · exact ⟨hlt, .inl (by omega)⟩

/-! ## The width law (R164) -/

theorem Lzd.TableOk.width {d : Lzd} (h : d.TableOk) : d.w.toNat = min 12 (Nat.log2 d.next.toNat + 1) := by
  cases hfull : d.full with
  | true =>
    obtain ⟨hw, hnext⟩ := h.full hfull
    rw [hw, hnext]
    decide
  | false =>
    have hlo := h.w_lo
    have hhi := h.w_hi
    have hlog : Nat.log2 d.next.toNat = d.w.toNat - 1 := by
      have hpos : d.next.toNat ≠ 0 := (lt_of_lt_of_le (Nat.two_pow_pos _) h.w_next).ne'
      rw [Nat.log2_eq_iff hpos, Nat.sub_add_cancel (by omega)]
      exact ⟨h.w_next, h.next_w hfull⟩
    omega

theorem Lzd.TableOk.full_iff {d : Lzd} (h : d.TableOk) : d.full = true ↔ d.next.toNat = 4096 := by
  refine ⟨fun hfull => (h.full hfull).2, fun hnext => ?_⟩
  by_contra hfull
  have hlt := h.next_w (by simpa using hfull)
  have hpow := two_pow_le_4096 h.w_hi
  omega

/-- The table's invariant does not speak of the status and the bit reader. -/
theorem Lzd.TableOk.withBits {d : Lzd} (h : d.TableOk) (st : UnitStatus) (acc : BitVec 32) (nbits : BitVec 5) :
    { d with st := st, acc := acc, nbits := nbits }.TableOk :=
  { h with }

/-- LZD is started as after a clear code, but for the bit reader (R150). -/
theorem begun_tableOk (d : Lzd) {cs : Byte} (hlo : 2 ≤ cs.toNat) (hhi : cs.toNat ≤ 8) : (d.begun cs).TableOk := by
  have hcs : (BitVec.ofNat 4 cs.toNat).toNat = cs.toNat := toNat_ofNat_of_lt (by omega)
  have hclear := cleared_tableOk (d := { d with cs := BitVec.ofNat 4 cs.toNat }) (by rwa [hcs]) (by rwa [hcs])
  simp only [Lzd.cleared, Lzd.eoi, hcs] at hclear
  exact hclear.withBits .started 0#32 0#5

theorem afterSymbol_tableOk {d : Lzd} (c : Nat) (h : d.TableOk) : (d.afterSymbol c).TableOk := by
  have hclass := inClass_classify d c
  unfold Lzd.afterSymbol
  cases hc : d.classify c <;> rw [hc] at hclass
  case lit => exact grown_tableOk _ h (.inl hclass)
  case clr => exact cleared_tableOk h.cs_lo h.cs_hi
  case eoi | bad => exact h.withBits _ _ _
  case dict => exact grown_tableOk _ h (.inr (.inl hclass))
  case kwk p =>
    obtain ⟨hprev, hnext, hlt⟩ := hclass
    exact grown_tableOk _ h (.inr (.inr ⟨hlt, hnext, by simp [hprev]⟩))

theorem lzdSymbol_lzd (c : Nat) (s : State) : (lzdSymbol c s).lzd = s.lzd.afterSymbol c := by
  rw [lzdSymbol_eq, lzdEmit_lzd, State.setLzd_lzd]

/-- `LZD_BEGIN` of a code size the decoder accepts (R150). -/
theorem lzdBegin_legal {cs : Byte} (hlo : 2 ≤ cs.toNat) (hhi : cs.toNat ≤ 8) (s : State) :
    lzdBegin cs s = s.setLzd (s.lzd.begun cs) := by
  simp only [lzdBegin, codeSizeOk_iff.2 ⟨hlo, hhi⟩, if_true]
  rfl

theorem lzdBegin_rejected {cs : Byte} (h : cs.toNat < 2 ∨ 8 < cs.toNat) (s : State) :
    lzdBegin cs s = raiseErr .lzd .badCodeSize (cs.setWidth 16) s := by
  have hbad : ¬ codeSizeOk cs = true := fun hok => by
    have := codeSizeOk_iff.1 hok
    omega
  simp only [lzdBegin, if_neg hbad]
  rfl

/-- Settles O38: the law is part of the table's invariant, which `LZD_BEGIN` establishes and every code keeps. -/
theorem widthLaw : Obligations.WidthLaw := by
  refine ⟨fun d h => ⟨h.width, h.full_iff⟩, fun s cs hlo hhi => ?_, fun s c h => ?_⟩
  · rw [lzdBegin_legal hlo hhi]
    exact begun_tableOk s.lzd hlo hhi
  · rw [lzdSymbol_lzd]
    exact afterSymbol_tableOk c h

/-! ## The per-code step (R98, R152 to R158) -/

/-- A data code with its expansion, as the statements write it. -/
theorem lzdDataCode_eq (c : Nat) (e : List Byte) (s : State) :
    lzdDataCode c e s = { lzdEmitted e s with lzd := s.lzd.grown c e } := by
  rw [lzdEmitted_eq, lzdDataCode, lzdEmit_lzd]
  rfl

/-- A clear code's register writes fit their fields (R154). -/
theorem cleared_w_next {d : Lzd} (h : d.cs.toNat ≤ 8) :
    d.cleared.w.toNat = d.cs.toNat + 1 ∧ d.cleared.next.toNat = d.eoi := by
  have hpow : 2 ^ d.cs.toNat ≤ 2 ^ 8 := Nat.pow_le_pow_right (by decide) h
  have heoi : d.eoi < 2 ^ 13 := by
    rw [Lzd.eoi, endCode]
    omega
  exact ⟨toNat_ofNat_of_lt (by omega), toNat_ofNat_of_lt heoi⟩

/-- The machine's `Symbol(c)` is the step of the rule of `c`'s class. -/
theorem symbolStep_lzdSymbol (c : Nat) {s : State} (h : s.lzd.TableOk) : SymbolStep c s (lzdSymbol c s) := by
  have hclass := inClass_classify s.lzd c
  unfold lzdSymbol
  cases hc : s.lzd.classify c <;> rw [hc] at hclass <;> simp only [lzdDataCode_eq]
  case lit => exact .lit hclass (grown_grows c [BitVec.ofNat 8 c] h)
  case clr =>
    obtain ⟨hw, hnext⟩ := cleared_w_next h.cs_hi
    exact .clr hclass hw hnext rfl
  case eoi => exact .eoi hclass
  case dict =>
    obtain ⟨hlt, hnext⟩ := hclass
    have hdata : isDataCode s.lzd.cs.toNat s.lzd.next.toNat c := .inr ⟨hlt, hnext⟩
    exact .dict hlt hnext (expands_expand h hdata) (head?_expand h hdata) (grown_grows c _ h)
  case kwk p =>
    obtain ⟨hprev, hnext, hlt⟩ := hclass
    have hdata := h.prev_is p hprev
    have hg := grown_grows c (s.lzd.kwkExpansion p) h
    rw [headD_kwkExpansion] at hg
    exact .kwk hnext hlt hprev (expands_expand h hdata) (head?_expand h hdata) hg
  case bad =>
    obtain ⟨hlt, hbad⟩ := hclass
    exact .bad hlt hbad

/-! ## The loop (R151) -/

theorem hasCode_iff (d : Lzd) : d.hasCode = true ↔ d.st.phase = .active ∧ d.w.toNat ≤ d.nbits.toNat := by
  simp [Lzd.hasCode]

/-- The machine's rounds are the rule's, and `NBITS` of them end by the rule's own condition (log 7). -/
theorem lzdReads_lzdLoop {n : Nat} {s : State} (h : s.lzd.MidOk) (hn : s.lzd.nbits.toNat ≤ n) :
    LzdReads s (lzdLoop n s) := by
  induction n generalizing s with
  | zero =>
    have hstop : s.lzd.hasCode = false := (run_midOk 0 h hn).2
    exact .stop (by simpa [← hasCode_iff] using hstop)
  | succ n ih =>
    unfold lzdLoop
    split
    · next hcode =>
      obtain ⟨hactive, hw⟩ := (hasCode_iff _).1 hcode
      obtain ⟨hmid, hactive', hbits⟩ := codeTaken_midOk h hcode
      have hless := afterSymbol_nbits_le s.lzd.codeTaken s.lzd.nextCode
      refine .code hactive hw (toNat_ofNat_of_lt ?_) (toNat_ofNat_of_lt ?_) rfl
        (symbolStep_lzdSymbol _ (s := s.setLzd s.lzd.codeTaken) (hmid.table (.inl hactive'))) (ih ?_ ?_)
      · exact lt_of_le_of_lt (Nat.div_le_self _ _) s.lzd.acc.isLt
      · exact lt_of_le_of_lt (Nat.sub_le _ _) s.lzd.nbits.isLt
      · rw [lzdSymbol_lzd]
        exact afterSymbol_midOk _ hmid hactive'
      · rw [lzdSymbol_lzd]
        change (s.lzd.codeTaken.afterSymbol s.lzd.nextCode).nbits.toNat ≤ n
        omega
    · next hcode => exact .stop (by rwa [← hasCode_iff])

/-- The byte fits above the bits held, as R31 bounds them. -/
theorem byteGiven_bits {d : Lzd} (b : Byte) (h : d.Ok) (hactive : d.st.phase = .active) :
    (d.byteGiven b).acc.toNat = d.acc.toNat + b.toNat * 2 ^ d.nbits.toNat ∧
      (d.byteGiven b).nbits.toNat = d.nbits.toNat + 8 := by
  have hw := (h.table (.inl hactive)).w_hi
  obtain ⟨hnbits, hacc⟩ := h.bits (.inl hactive)
  have hb := b.isLt
  have hpow : 2 ^ d.nbits.toNat ≤ 2 ^ 12 := Nat.pow_le_pow_right (by decide) (by omega)
  have hmul : b.toNat * 2 ^ d.nbits.toNat ≤ 255 * 2 ^ 12 := Nat.mul_le_mul (by omega) hpow
  exact ⟨toNat_ofNat_of_lt (by omega), toNat_ofNat_of_lt (by omega)⟩

/-- Settles O34: the byte is put above the bits held (`byteGiven_bits`), and the machine's loop is the rule's (`lzdReads_lzdLoop`). -/
theorem lzdFeedReads : Obligations.LzdFeedReads := by
  intro s b h hactive
  obtain ⟨hacc, hnbits⟩ := byteGiven_bits b h hactive
  refine ⟨s.lzd.byteGiven b, lzdLoop (s.lzd.byteGiven b).nbits.toNat (s.setLzd (s.lzd.byteGiven b)), rfl, hacc, hnbits,
    lzdReads_lzdLoop (s := s.setLzd (s.lzd.byteGiven b)) (byteGiven_midOk b h hactive) le_rfl, ?_⟩
  change complete (lzdFeed b s) = _
  rw [lzdFeed, hactive]
  rfl

/-! ## The commands, case by case (R151, R163) -/

theorem lzdFeed_ignored (b : Byte) {s : State} (h : s.lzd.st.phase = .done ∨ s.lzd.st.phase = .err) : lzdFeed b s = s := by
  rcases h with h | h <;> simp only [lzdFeed, h]

theorem lzdFeed_idle (b : Byte) {s : State} (h : s.lzd.st.phase = .idle) : lzdFeed b s = protocolErr .lzd 0x21#8 s := by
  simp only [lzdFeed, h]

theorem lzdForwardEnd_on {s : State} (h : lzdToCmp s = true) : lzdForwardEnd s = cmpImageEnd s := if_pos h

theorem lzdForwardEnd_off {s : State} (h : lzdToCmp s = false) : lzdForwardEnd s = s := if_neg (by simp [h])

theorem lzdFinish_err {s : State} (h : s.lzd.st.phase = .err) : lzdFinish s = s := by
  simp only [lzdFinish, h]

theorem lzdFinish_idle {s : State} (h : s.lzd.st.phase = .idle) : lzdFinish s = protocolErr .lzd 0x22#8 s := by
  simp only [lzdFinish, h]

theorem lzdFinish_done {s : State} (h : s.lzd.st.phase = .done) : lzdFinish s = lzdForwardEnd s := by
  simp only [lzdFinish, h]

theorem lzdFinish_strict {s : State} (h : s.lzd.st.phase = .active) (hl : lzdEodLenient s = false) :
    lzdFinish s = raiseErr .lzd .missingEnd 0#16 s := by
  simp only [lzdFinish, h, hl]
  rfl

theorem lzdFinish_lenient {s : State} (h : s.lzd.st.phase = .active) (hl : lzdEodLenient s = true) :
    lzdFinish s = lzdForwardEnd (s.setLzd s.lzd.ended) := by
  simp only [lzdFinish, h, hl, if_true]

end Sys2Proof.Machine

namespace Sys2Proof.Decoder

open Machine

/-! ## The statements about one command -/

/-- Settles O33: the two cases of R150. -/
theorem lzdBegin : Obligations.LzdBegin :=
  ⟨fun _ => rfl, fun s _ => ⟨fun ⟨hlo, hhi⟩ => congrArg complete (lzdBegin_legal hlo hhi s),
    fun h => congrArg complete (lzdBegin_rejected h s)⟩⟩

/-- Settles O35, a clause per phase. -/
theorem lzdFeedAfterEnd : Obligations.LzdFeedAfterEnd :=
  ⟨fun _ => rfl, fun _ b => ⟨fun h => congrArg complete (lzdFeed_ignored b (.inl h)),
    fun h => congrArg complete (lzdFeed_ignored b (.inr h)), fun h => congrArg complete (lzdFeed_idle b h)⟩⟩

/-- Settles O39, a clause per case of the rule; a forwarded `CMP_IMAGE_END` runs the rule that the host's command runs. -/
theorem lzdFinish : Obligations.LzdFinish := by
  refine ⟨rfl, fun s => ⟨fun h => ?_, fun h => ?_, fun h hl => ?_, fun h hl hr => ?_, fun h hl hr => ?_, fun h hr => ?_,
    fun h hr => ?_⟩⟩
  · exact congrArg complete (lzdFinish_err h)
  · exact congrArg complete (lzdFinish_idle h)
  · exact congrArg complete (lzdFinish_strict h hl)
  · exact congrArg complete ((lzdFinish_lenient h hl).trans (lzdForwardEnd_off (s := s.setLzd s.lzd.ended) hr))
  · exact congrArg complete ((lzdFinish_lenient h hl).trans (lzdForwardEnd_on (s := s.setLzd s.lzd.ended) hr))
  · exact congrArg complete ((lzdFinish_done h).trans (lzdForwardEnd_off hr))
  · exact congrArg complete ((lzdFinish_done h).trans (lzdForwardEnd_on hr))

end Sys2Proof.Decoder
end

section
/-! The encoder's dictionary (R205 to R207): the open-addressing table stands for the finite map (`TableFor`) after every insertion of an absent
key that leaves a slot free, whatever the hash function is. -/

namespace Sys2Proof.Machine

/-! ## The probes (R205) -/

/-- The `k`-th slot that the loops of R205 look at when they start from slot `i`. -/
def probed (i k : Nat) : Nat := (i + k) % Config.hashSlots

theorem probed_lt (i k : Nat) : probed i k < Config.hashSlots := Nat.mod_lt _ (by decide)

theorem probed_zero {i : Nat} (hi : i < Config.hashSlots) : probed i 0 = i := Nat.mod_eq_of_lt hi

theorem probed_succ (i k : Nat) : probed ((i + 1) % Config.hashSlots) k = probed i (k + 1) := by
  simp only [probed, Nat.mod_add_mod]
  congr 1
  omega

/-- The probes from any slot come to every slot. -/
theorem exists_probed {i f : Nat} (hi : i < Config.hashSlots) (hf : f < Config.hashSlots) :
    ∃ k, k < Config.hashSlots ∧ probed i k = f := by
  simp only [probed, Config.hashSlots] at *
  by_cases h : i ≤ f
  · exact ⟨f - i, by omega, by omega⟩
  · exact ⟨16384 + f - i, by omega, by omega⟩

/-- The entry is in use, by another key than `(p, x)`: a lookup of that key goes on to the next slot. -/
def HashSlot.Passes (e : HashSlot) (p : Code) (x : Byte) : Prop := e.used = true ∧ ¬ (e.kprefix = p ∧ e.kbyte = x)

/-- What a lookup answers at the entry it stops at. -/
def HashSlot.answer (e : HashSlot) : Option Code := if e.used then some e.code else none

theorem HashSlot.eq_of_not_passes {e : HashSlot} {p : Code} {x : Byte} (hstop : ¬ e.Passes p x) (hused : e.used = true) :
    e = { used := true, kprefix := p, kbyte := x, code := e.code } := by
  obtain ⟨rfl, rfl⟩ : e.kprefix = p ∧ e.kbyte = x := by
    by_contra hkey
    exact hstop ⟨hused, hkey⟩
  rw [← hused]

/-- `HashLookup` answers by the first entry that it does not pass. -/
theorem probeLookup_eq_answer {tab : Mem HashSlot} {p : Code} {x : Byte} {k fuel i : Nat} (hi : i < Config.hashSlots)
    (hk : k < fuel) (hpass : ∀ j < k, (slotAt tab (probed i j)).Passes p x)
    (hstop : ¬ (slotAt tab (probed i k)).Passes p x) :
    probeLookup tab p x fuel i = (slotAt tab (probed i k)).answer := by
  induction k generalizing fuel i with
  | zero =>
    obtain ⟨fuel, rfl⟩ : ∃ n, fuel = n + 1 := ⟨fuel - 1, by omega⟩
    rw [probed_zero hi] at hstop ⊢
    cases hused : (slotAt tab i).used with
    | false => simp [probeLookup, HashSlot.answer, hused]
    | true =>
      rw [probeLookup, HashSlot.answer, HashSlot.eq_of_not_passes hstop hused]
      simp
  | succ k ih =>
    obtain ⟨fuel, rfl⟩ : ∃ n, fuel = n + 1 := ⟨fuel - 1, by omega⟩
    obtain ⟨hused, hkey⟩ : (slotAt tab i).Passes p x := by
      have h0 := hpass 0 (Nat.succ_pos k)
      rwa [probed_zero hi] at h0
    have hnext : probeLookup tab p x (fuel + 1) i = probeLookup tab p x fuel ((i + 1) % Config.hashSlots) := by
      rw [probeLookup, if_neg (by simp [hused]), if_neg hkey]
    rw [hnext, ih (Nat.mod_lt _ (by decide)) (by omega), probed_succ]
    · intro j hj
      rw [probed_succ]
      exact hpass (j + 1) (by omega)
    · rwa [probed_succ]

/-- `HashInsert` takes the first slot not in use. -/
theorem probeFree_eq_probed {tab : Mem HashSlot} {k fuel i : Nat} (hi : i < Config.hashSlots) (hk : k < fuel)
    (hused : ∀ j < k, (slotAt tab (probed i j)).used = true) (hfree : (slotAt tab (probed i k)).used = false) :
    probeFree tab fuel i = probed i k := by
  induction k generalizing fuel i with
  | zero =>
    obtain ⟨fuel, rfl⟩ : ∃ n, fuel = n + 1 := ⟨fuel - 1, by omega⟩
    rw [probed_zero hi] at hfree ⊢
    simp [probeFree, hfree]
  | succ k ih =>
    obtain ⟨fuel, rfl⟩ : ∃ n, fuel = n + 1 := ⟨fuel - 1, by omega⟩
    have h0 : (slotAt tab i).used = true := by
      have h0 := hused 0 (Nat.succ_pos k)
      rwa [probed_zero hi] at h0
    rw [probeFree, if_pos h0, ih (Nat.mod_lt _ (by decide)) (by omega), probed_succ]
    · intro j hj
      rw [probed_succ]
      exact hused (j + 1) (by omega)
    · rwa [probed_succ]

/-! ## Slots in use -/

/-- The slots of the table that hold an entry (R34). -/
def usedSlots (tab : Mem HashSlot) : Finset Nat :=
  (Finset.range Config.hashSlots).filter fun i => (slotAt tab i).used = true

theorem exists_free {tab : Mem HashSlot} (h : (usedSlots tab).card < Config.hashSlots) :
    ∃ f < Config.hashSlots, (slotAt tab f).used = false := by
  by_contra hall
  push Not at hall
  have hfull : usedSlots tab = Finset.range Config.hashSlots :=
    Finset.filter_true_of_mem fun i hi => by simpa using hall i (Finset.mem_range.1 hi)
  rw [hfull, Finset.card_range] at h
  exact lt_irrefl _ h

/-- From every slot the probes come to a first slot not in use. -/
theorem exists_first_free {tab : Mem HashSlot} {i : Nat} (hi : i < Config.hashSlots)
    (h : (usedSlots tab).card < Config.hashSlots) :
    ∃ k < Config.hashSlots, (slotAt tab (probed i k)).used = false ∧
      ∀ j < k, (slotAt tab (probed i j)).used = true := by
  obtain ⟨f, hf, hfree⟩ := exists_free h
  obtain ⟨k, hk, rfl⟩ := exists_probed hi hf
  have hex : ∃ k, (slotAt tab (probed i k)).used = false := ⟨k, hfree⟩
  refine ⟨Nat.find hex, lt_of_le_of_lt (Nat.find_min' hex hfree) hk, Nat.find_spec hex, fun j hj => ?_⟩
  simpa using Nat.find_min hex hj

theorem slotAt_write (tab : Mem HashSlot) (i j : Nat) (e : HashSlot) :
    slotAt (Memory.write HashSlot.unused tab i e) j = if i = j then e else slotAt tab j :=
  Memory.read_write _ _ _ _ _

theorem card_usedSlots_write_le (tab : Mem HashSlot) (i : Nat) (e : HashSlot) :
    (usedSlots (Memory.write HashSlot.unused tab i e)).card ≤ (usedSlots tab).card + 1 := by
  refine le_trans (Finset.card_le_card (t := insert i (usedSlots tab)) fun j hj => ?_) (Finset.card_insert_le _ _)
  obtain ⟨hlt, hused⟩ := Finset.mem_filter.1 hj
  rw [slotAt_write] at hused
  split at hused
  · next heq => exact Finset.mem_insert.2 (.inl heq.symm)
  · exact Finset.mem_insert_of_mem (Finset.mem_filter.2 ⟨hlt, hused⟩)

/-! ## The table and the map -/

/-- The first slot of a key. -/
def homeSlot (h : Code → Byte → Nat) (p : Code) (x : Byte) : Nat := h p x % Config.hashSlots

theorem homeSlot_lt (h : Code → Byte → Nat) (p : Code) (x : Byte) : homeSlot h p x < Config.hashSlots :=
  Nat.mod_lt _ (by decide)

/-- The table `tab` of hash function `h` stands for the map `m`: its entries in use are the mappings of `m`, and no slot on the way from a
key's first slot to its entry is free. -/
structure TableFor (h : Code → Byte → Nat) (tab : Mem HashSlot) (m : Mem Code) : Prop where
  entries : ∀ p x c, hashLookup m p x = some c ↔
    ∃ i < Config.hashSlots, slotAt tab i = { used := true, kprefix := p, kbyte := x, code := c }
  reach : ∀ i < Config.hashSlots, (slotAt tab i).used = true →
    ∃ k < Config.hashSlots, probed (homeSlot h (slotAt tab i).kprefix (slotAt tab i).kbyte) k = i ∧
      ∀ j < k, (slotAt tab (probed (homeSlot h (slotAt tab i).kprefix (slotAt tab i).kbyte) j)).used = true

theorem tableFor_clear (h : Code → Byte → Nat) : TableFor h tableClear hashClear where
  entries p x c := by simp [hashLookup, hashClear, tableClear, slotAt, HashSlot.unused]
  reach i _ hused := by simp [tableClear, slotAt, HashSlot.unused] at hused

/-- From its first slot a lookup comes to an entry it does not pass. -/
theorem exists_first_stop {tab : Mem HashSlot} {i : Nat} (hi : i < Config.hashSlots)
    (h : (usedSlots tab).card < Config.hashSlots) (p : Code) (x : Byte) :
    ∃ k < Config.hashSlots, ¬ (slotAt tab (probed i k)).Passes p x ∧ ∀ j < k, (slotAt tab (probed i j)).Passes p x := by
  classical
  obtain ⟨k₀, hk₀, hfree, -⟩ := exists_first_free hi h
  have hstop : ¬ (slotAt tab (probed i k₀)).Passes p x := fun hp => by simp [hp.1] at hfree
  have hex : ∃ k, ¬ (slotAt tab (probed i k)).Passes p x := ⟨k₀, hstop⟩
  exact ⟨Nat.find hex, lt_of_le_of_lt (Nat.find_min' hex hstop) hk₀, Nat.find_spec hex,
    fun j hj => not_not.1 (Nat.find_min hex hj)⟩

/-- The loop of a lookup ends at a free slot or at its key; either way the map answers the same. -/
theorem TableFor.tableLookup_eq {h : Code → Byte → Nat} {tab : Mem HashSlot} {m : Mem Code} (ht : TableFor h tab m)
    (hcard : (usedSlots tab).card < Config.hashSlots) (p : Code) (x : Byte) :
    tableLookup h tab p x = hashLookup m p x := by
  obtain ⟨k, hk, hstop, hpass⟩ := exists_first_stop (homeSlot_lt h p x) hcard p x
  rw [tableLookup, ← homeSlot, probeLookup_eq_answer (homeSlot_lt h p x) hk hpass hstop, HashSlot.answer]
  cases hused : (slotAt tab (probed (homeSlot h p x) k)).used with
  | true =>
    rw [if_pos rfl, eq_comm, ht.entries]
    exact ⟨_, probed_lt _ k, HashSlot.eq_of_not_passes hstop hused⟩
  | false =>
    rw [if_neg (by decide), eq_comm, Option.eq_none_iff_forall_ne_some]
    intro c hc
    obtain ⟨i, hi, hslot⟩ := (ht.entries p x c).1 hc
    obtain ⟨k', -, hk', hway⟩ := ht.reach i hi (by rw [hslot])
    rw [hslot] at hk' hway
    rcases Nat.lt_trichotomy k k' with hlt | rfl | hgt
    · simp [hway k hlt] at hused
    · simp [hk', hslot] at hused
    · exact (hpass k' hgt).2 (by simp [hk', hslot])

/-- Inserting an absent key in the first free slot keeps the correspondence. -/
theorem TableFor.insert {h : Code → Byte → Nat} {tab : Mem HashSlot} {m : Mem Code} (ht : TableFor h tab m)
    (hcard : (usedSlots tab).card < Config.hashSlots) {p : Code} {x : Byte} (habsent : hashLookup m p x = none) (c : Code) :
    TableFor h (tableInsert h tab p x c) (hashInsert m p x c) := by
  obtain ⟨k, hk, hfree, hway⟩ := exists_first_free (homeSlot_lt h p x) hcard
  have hins : tableInsert h tab p x c = Memory.write HashSlot.unused tab (probed (homeSlot h p x) k)
      { used := true, kprefix := p, kbyte := x, code := c } := by
    rw [tableInsert, ← homeSlot, probeFree_eq_probed (homeSlot_lt h p x) hk hway hfree]
  have hnew (j : Nat) : slotAt (tableInsert h tab p x c) j = if probed (homeSlot h p x) k = j then
      { used := true, kprefix := p, kbyte := x, code := c } else slotAt tab j := by rw [hins, slotAt_write]
  have hkept {j : Nat} (hj : (slotAt tab j).used = true) : slotAt (tableInsert h tab p x c) j = slotAt tab j := by
    rw [hnew, if_neg]
    rintro rfl
    simp [hj] at hfree
  have hused {j : Nat} (hj : (slotAt tab j).used = true) : (slotAt (tableInsert h tab p x c) j).used = true := by
    rwa [hkept hj]
  refine ⟨fun q y c' => ?_, fun i hi hi' => ?_⟩
  · rw [hashLookup_hashInsert]
    split
    · next heq =>
      obtain ⟨rfl, rfl⟩ := heq
      constructor
      · rintro ⟨rfl⟩
        exact ⟨_, probed_lt _ k, by rw [hnew, if_pos rfl]⟩
      · rintro ⟨i, hi, hslot⟩
        rw [hnew] at hslot
        split at hslot
        · simpa using congrArg HashSlot.code hslot
        · have := (ht.entries q y c').2 ⟨i, hi, hslot⟩
          simp [habsent] at this
    · next hne =>
      rw [ht.entries]
      refine exists_congr fun i => and_congr_right fun _ => ⟨fun hslot => ?_, fun hslot => ?_⟩
      · rw [hkept (by rw [hslot]), hslot]
      · rw [hnew] at hslot
        split at hslot
        · have hq := congrArg HashSlot.kprefix hslot
          have hy := congrArg HashSlot.kbyte hslot
          exact absurd ⟨hq.symm, hy.symm⟩ hne
        · exact hslot
  · by_cases heq : probed (homeSlot h p x) k = i
    · rw [hnew, if_pos heq]
      exact ⟨k, hk, heq, fun j hj => hused (hway j hj)⟩
    · rw [hnew, if_neg heq] at hi' ⊢
      obtain ⟨k', hk', hreach, hway'⟩ := ht.reach i hi hi'
      exact ⟨k', hk', hreach, fun j hj => hused (hway' j hj)⟩

theorem TableFor.foldl_insert {h : Code → Byte → Nat} {ops : List (Code × Byte × Code)} {tab : Mem HashSlot} {m : Mem Code}
    (ht : TableFor h tab m) (hcard : (usedSlots tab).card + ops.length < Config.hashSlots)
    (hnodup : (ops.map fun o => (o.1, o.2.1)).Nodup) (habsent : ∀ o ∈ ops, hashLookup m o.1 o.2.1 = none) :
    TableFor h (ops.foldl (fun t o => tableInsert h t o.1 o.2.1 o.2.2) tab)
        (ops.foldl (fun m o => hashInsert m o.1 o.2.1 o.2.2) m) ∧
      (usedSlots (ops.foldl (fun t o => tableInsert h t o.1 o.2.1 o.2.2) tab)).card < Config.hashSlots := by
  induction ops generalizing tab m with
  | nil => exact ⟨ht, by simpa using hcard⟩
  | cons o ops ih =>
    obtain ⟨hnew, hnodup⟩ := List.nodup_cons.1 hnodup
    obtain ⟨ho, habsent⟩ := List.forall_mem_cons.1 habsent
    rw [List.length_cons] at hcard
    have hone : (usedSlots (tableInsert h tab o.1 o.2.1 o.2.2)).card ≤ (usedSlots tab).card + 1 :=
      card_usedSlots_write_le _ _ _
    have hcard' : (usedSlots (tableInsert h tab o.1 o.2.1 o.2.2)).card + ops.length < Config.hashSlots := by omega
    refine ih (ht.insert (by omega) ho o.2.2) hcard' hnodup fun o' ho' => ?_
    rw [hashLookup_hashInsert, if_neg, habsent o' ho']
    rintro ⟨hp, hx⟩
    exact hnew (List.mem_map.2 ⟨o', ho', by rw [hp, hx]⟩)

/-- Settles O46: the table stands for the map after every insertion (`TableFor.insert`), and then every lookup agrees. -/
theorem hashTableIsTheMap : Obligations.HashTableIsTheMap := by
  intro h ops hlen hnodup p x
  have hclear : usedSlots tableClear = ∅ := Finset.filter_false_of_mem fun i _ => by
    simp [tableClear, slotAt, HashSlot.unused]
  have hroom : (usedSlots tableClear).card + ops.length < Config.hashSlots := by
    rw [hclear, Finset.card_empty, Nat.zero_add]
    exact hlen
  obtain ⟨ht, hcard⟩ := (tableFor_clear h).foldl_insert hroom hnodup fun _ _ => rfl
  exact ht.tableLookup_eq hcard p x

end Sys2Proof.Machine
end

section
/-! The LZW encoder (43_lzw_encoder.md), command by command: one lemma per case of each rule, from which the statements about one command
follow. `EmitCode` is the rule's (`emitCode_codeWritten`) wherever the code fits the width. -/

namespace Sys2Proof.Machine

/-! ## What `EmitCode` leaves unchanged (R196) -/

@[simp] theorem codeOut_cs (e : Lze) (c : Nat) : (e.codeOut c).1.cs = e.cs := by rw [codeOut_eq]
@[simp] theorem codeOut_w (e : Lze) (c : Nat) : (e.codeOut c).1.w = e.w := by rw [codeOut_eq]
@[simp] theorem codeOut_next (e : Lze) (c : Nat) : (e.codeOut c).1.next = e.next := by rw [codeOut_eq]
@[simp] theorem codeOut_pend (e : Lze) (c : Nat) : (e.codeOut c).1.pend = e.pend := by rw [codeOut_eq]
@[simp] theorem codeOut_ht (e : Lze) (c : Nat) : (e.codeOut c).1.ht = e.ht := by rw [codeOut_eq]

theorem flushed_setNext (n : Nat) (e : Lze) (x : BitVec 13) :
    Lze.flushed n { e with next := x } = ({ (e.flushed n).1 with next := x }, (e.flushed n).2) := by
  induction n generalizing e with
  | zero => rfl
  | succ n ih =>
    have htaken : Lze.byteTaken { e with next := x } = { e.byteTaken with next := x } := rfl
    simp only [Lze.flushed, htaken, ih]

/-- `EmitCode` does not read `NEXT`. -/
theorem emitCode_setNext (c : Nat) (s : State) (x : BitVec 13) :
    emitCode c (s.setLze { s.lze with next := x }) = (emitCode c s).setLze { (emitCode c s).lze with next := x } := by
  have hout : Lze.codeOut { s.lze with next := x } c = ({ (s.lze.codeOut c).1 with next := x }, (s.lze.codeOut c).2) :=
    flushed_setNext _ (s.lze.codeGiven c) x
  simp only [emitCode_eq, State.setLze_lze, hout, lzeEmit_setLze, State.setLze_setLze]

/-! ## Codes fit the width (R35) -/

theorem Lze.eoi_lt_two_pow_w {e : Lze} (hcs : 2 ≤ e.cs.toNat) (hw : e.cs.toNat + 1 ≤ e.w.toNat) : e.eoi < 2 ^ e.w.toNat := by
  have hpow : 2 ^ 2 ≤ 2 ^ e.cs.toNat := Nat.pow_le_pow_right (by decide) hcs
  calc e.eoi < 2 ^ (e.cs.toNat + 1) := by rw [Lze.eoi, endCode, Nat.pow_succ]; omega
    _ ≤ 2 ^ e.w.toNat := Nat.pow_le_pow_right (by decide) hw

theorem Lze.StreamOk.codeWritten {s : State} {c : Nat} (h : s.lze.StreamOk) (hc : c < 2 ^ s.lze.w.toNat) :
    CodeWritten c s (emitCode c s) :=
  emitCode_codeWritten h.nbits h.acc h.w_hi hc

/-- The threshold of width 12 is the ceiling: one met below the ceiling widens the code. -/
theorem Lze.StreamOk.w_lt_of_threshold {e : Lze} (h : e.StreamOk) (hnext : e.next.toNat + 1 ≠ 4096)
    (ht : e.next.toNat + 1 = 2 ^ e.w.toNat) : e.w.toNat < 12 := by
  rcases Nat.lt_or_eq_of_le h.w_hi with hlt | heq
  · exact hlt
  · rw [heq] at ht
    exact absurd ht hnext

theorem Lze.StreamOk.w_eq_of_ceiling {e : Lze} (h : e.StreamOk) (hnext : e.next.toNat + 1 = 4096) : e.w.toNat = 12 := by
  have hlt := h.next_w
  have hhi := h.w_hi
  by_contra hne
  have hpow : 2 ^ e.w.toNat ≤ 2 ^ 11 := Nat.pow_le_pow_right (by decide) (by omega)
  omega

/-- The advance after a code fits the counter. -/
theorem Lze.StreamOk.advanced_next {e : Lze} (h : e.StreamOk) (c : Nat) :
    (e.codeOut c).1.advanced.next.toNat = e.next.toNat + 1 := by
  have hhi := h.next_hi
  rw [Lze.advanced, codeOut_next]
  exact toNat_ofNat_of_lt (by omega)

@[simp] theorem Lze.advanced_w (e : Lze) : e.advanced.w = e.w := rfl
@[simp] theorem Lze.advanced_cs (e : Lze) : e.advanced.cs = e.cs := rfl
@[simp] theorem Lze.advanced_ht (e : Lze) : e.advanced.ht = e.ht := rfl

/-! ## LZE_BEGIN, case by case (R190) -/

theorem begun_clear (e : Lze) {cs : Byte} (h : cs.toNat ≤ 8) : (e.begun cs).clear = 2 ^ cs.toNat := by
  have hcs : (e.begun cs).cs.toNat = cs.toNat := toNat_ofNat_of_lt (by omega)
  rw [Lze.clear, clearCode, hcs]

theorem lzeBegin_rejected {cs : Byte} (h : cs.toNat < 2 ∨ 8 < cs.toNat) (s : State) :
    lzeBegin cs s = raiseErr .lze .badCodeSize (cs.setWidth 16) s := by
  have hbad : ¬ codeSizeOk cs = true := fun hok => by
    have := codeSizeOk_iff.1 hok
    omega
  simp only [lzeBegin, if_neg hbad]
  rfl

/-- `LZE_BEGIN` of a code size the encoder accepts. -/
theorem lzeBegin_legal {cs : Byte} (hlo : 2 ≤ cs.toNat) (hhi : cs.toNat ≤ 8) (s : State) :
    lzeBegin cs s = if lzeLeadingClear s then emitCode (2 ^ cs.toNat) (s.setLze (s.lze.begun cs))
      else s.setLze (s.lze.begun cs) := by
  rw [← begun_clear s.lze hhi]
  simp only [lzeBegin, codeSizeOk_iff.2 ⟨hlo, hhi⟩, if_true]
  rfl

/-! ## LZE_FEED, case by case (R192 to R195, R202) -/

theorem lzeFeed_err (b : Byte) {s : State} (h : s.lze.st.phase = .err) : lzeFeed b s = s := by
  simp only [lzeFeed, h]

theorem lzeFeed_protocol (b : Byte) {s : State} (h : s.lze.st.phase = .idle ∨ s.lze.st.phase = .done) :
    lzeFeed b s = protocolErr .lze 0x31#8 s := by
  rcases h with h | h <;> simp only [lzeFeed, h]

theorem lzeFeed_badSymbol {b : Byte} {s : State} (h : s.lze.st.phase = .active) (hb : 2 ^ s.lze.cs.toNat ≤ b.toNat) :
    lzeFeed b s = raiseErr .lze .badSymbol (b.setWidth 16) s := by
  simp only [lzeFeed, h]
  exact if_pos hb

section
variable {b : Byte} {s : State} (h : s.lze.st.phase = .active) (hb : b.toNat < 2 ^ s.lze.cs.toNat)
include h hb

theorem lzeFeed_first (hp : s.lze.pend = none) : lzeFeed b s = lzeSetPend (some (b.setWidth 12)) s := by
  simp only [lzeFeed, h, hp]
  exact if_neg (Nat.not_le.2 hb)

theorem lzeFeed_hit {p c : Code} (hp : s.lze.pend = some p) (hl : hashLookup s.lze.ht p b = some c) :
    lzeFeed b s = lzeSetPend (some c) s := by
  simp only [lzeFeed, h, hp, hl]
  exact if_neg (Nat.not_le.2 hb)

theorem lzeFeed_miss {p : Code} (hp : s.lze.pend = some p) (hl : hashLookup s.lze.ht p b = none) :
    lzeFeed b s = lzeMiss p b s := by
  simp only [lzeFeed, h, hp, hl]
  exact if_neg (Nat.not_le.2 hb)

end

theorem lzeRegister_below {p : Code} {b : Byte} {s : State} (h : s.lze.next.toNat = 2 ^ s.lze.w.toNat → s.lze.w.toNat < 12) :
    lzeRegister p b s = s.setLze (s.lze.registered p b) := by
  refine if_neg fun hcond => ?_
  obtain ⟨ht, hw⟩ := Bool.and_eq_true_iff.1 hcond
  exact absurd (of_decide_eq_true hw) (h (of_decide_eq_true ht)).ne

theorem lzeRegister_ceiling {p : Code} {b : Byte} {s : State} (hnext : s.lze.next.toNat = 4096) (hw : s.lze.w.toNat = 12) :
    lzeRegister p b s = lzeCeiling s :=
  if_pos (Bool.and_eq_true_iff.2 ⟨decide_eq_true (by rw [hnext, hw]; rfl), decide_eq_true hw⟩)

/-- A miss below the ceiling (R194). -/
theorem lzeMiss_below {s : State} (p : Code) (b : Byte) (h : s.lze.StreamOk) (hnext : s.lze.next.toNat + 1 ≠ 4096) :
    lzeMiss p b s = (emitCode p.toNat s).setLze
      { (emitCode p.toNat s).lze.advanced.registered p b with pend := some (b.setWidth 12) } := by
  have hadv := h.advanced_next p.toNat
  have hbelow : lzeRegister p b (lzeAdvance (emitCode p.toNat s)) = _ := lzeRegister_below fun ht => by
    simp only [lzeAdvance, State.setLze_lze, emitCode_lze, hadv, Lze.advanced_w, codeOut_w] at ht ⊢
    exact h.w_lt_of_threshold hnext ht
  rw [lzeMiss, hbelow]
  rfl

/-- A miss at the ceiling (R195). -/
theorem lzeMiss_ceiling {s : State} (p : Code) (b : Byte) (h : s.lze.StreamOk) (hnext : s.lze.next.toNat + 1 = 4096) :
    lzeMiss p b s = (emitCode s.lze.clear (emitCode p.toNat s)).setLze
      { (emitCode s.lze.clear (emitCode p.toNat s)).lze with
        w := BitVec.ofNat 4 (s.lze.cs.toNat + 1), next := BitVec.ofNat 13 s.lze.eoi, ht := hashClear,
        pend := some (b.setWidth 12) } := by
  have hadv := h.advanced_next p.toNat
  have hceil : lzeRegister p b (lzeAdvance (emitCode p.toNat s)) = _ := lzeRegister_ceiling
    (by rw [lzeAdvance, State.setLze_lze, emitCode_lze, hadv, hnext])
    (by rw [lzeAdvance, State.setLze_lze, emitCode_lze, Lze.advanced_w, codeOut_w, h.w_eq_of_ceiling hnext])
  have hclear : (emitCode p.toNat s).lze.advanced.clear = s.lze.clear := by
    rw [Lze.clear, Lze.advanced_cs, emitCode_lze, codeOut_cs, Lze.clear]
  rw [lzeMiss, hceil, lzeCeiling, lzeAdvance, State.setLze_lze, hclear, Lze.advanced, emitCode_setNext]
  simp [lzeSetPend, Lze.eoi]

/-- The new mapping and the width check of a miss (R194). -/
theorem registered_spec {e : Lze} (p : Code) (b : Byte) (hw : e.w.toNat ≤ 12) :
    e.registered p b = { e with w := (e.registered p b).w, ht := hashInsert e.ht p b (BitVec.ofNat 12 e.next.toNat) } ∧
      (e.registered p b).w.toNat = if e.next.toNat = 2 ^ e.w.toNat then e.w.toNat + 1 else e.w.toNat := by
  have hwide : (BitVec.ofNat 4 (e.w.toNat + 1)).toNat = e.w.toNat + 1 := toNat_ofNat_of_lt (by omega)
  by_cases ht : e.next.toNat = 2 ^ e.w.toNat
  · simp [Lze.registered, Lze.atThreshold, Lze.widened, ht, hwide]
  · simp [Lze.registered, Lze.atThreshold, ht]

/-! ## LZE_FINISH, case by case (R198) -/

theorem lzeFinish_err {s : State} (h : s.lze.st.phase = .err) : lzeFinish s = s := by
  simp only [lzeFinish, h]

theorem lzeFinish_protocol {s : State} (h : s.lze.st.phase = .idle ∨ s.lze.st.phase = .done) :
    lzeFinish s = protocolErr .lze 0x32#8 s := by
  rcases h with h | h <;> simp only [lzeFinish, h]

theorem lzeLastCode_none {s : State} (hp : s.lze.pend = none) : lzeLastCode s = s := by
  simp only [lzeLastCode, hp]

theorem lzeLastCode_some {s : State} {p : Code} (hp : s.lze.pend = some p) :
    lzeLastCode s = (emitCode p.toNat s).setLze (emitCode p.toNat s).lze.advanced.finalWidth := by
  simp only [lzeLastCode, hp, lzeAdvance, State.setLze_lze, State.setLze_setLze]

/-- The width check before the end code (R198). -/
theorem finalWidth_spec {e : Lze} (hw : e.w.toNat ≤ 12) : e.finalWidth = { e with w := e.finalWidth.w } ∧
    e.finalWidth.w.toNat = if e.next.toNat = 2 ^ e.w.toNat ∧ e.w.toNat < 12 then e.w.toNat + 1 else e.w.toNat := by
  have hwide : (BitVec.ofNat 4 (e.w.toNat + 1)).toNat = e.w.toNat + 1 := toNat_ofNat_of_lt (by omega)
  by_cases ht : e.next.toNat = 2 ^ e.w.toNat ∧ e.w.toNat < 12
  · simp [Lze.finalWidth, Lze.atThreshold, Lze.widened, ht, hwide]
  · simp [Lze.finalWidth, Lze.atThreshold, ht]

theorem lzeFlushPartial_none {s : State} (h : s.lze.nbits = 0#5) : lzeFlushPartial s = s :=
  if_neg (by simp [h])

theorem lzeFlushPartial_some {s : State} (h : s.lze.nbits ≠ 0#5) : lzeFlushPartial s =
    { lzeEmitted [BitVec.ofNat 8 s.lze.acc.toNat] s with lze := { s.lze with acc := 0#32, nbits := 0#5 } } := by
  have hbyte : BitVec.ofNat 8 (s.lze.acc.toNat % 2 ^ 8) = BitVec.ofNat 8 s.lze.acc.toNat :=
    BitVec.eq_of_toNat_eq (by simp)
  rw [lzeFlushPartial, if_pos (BitVec.toNat_pos_of_ne_zero h), hbyte, lzeEmitted_eq]
  simp only [lzeOutByte_lze]
  rfl

/-- The end code of R198 fits its width, and at most 7 bits are held before it. -/
theorem lzeLastCode_endCode {s : State} (h : s.lze.StreamOk) :
    CodeWritten (lzeLastCode s).lze.eoi (lzeLastCode s) (emitCode (lzeLastCode s).lze.eoi (lzeLastCode s)) := by
  have hcs := h.cs_lo
  cases hp : s.lze.pend with
  | none =>
    rw [lzeLastCode_none hp]
    exact h.codeWritten (Lze.eoi_lt_two_pow_w hcs h.w_lo)
  | some p =>
    have h1 := codeOut_streamOk h (lt_two_pow_w h (h.pend_is p hp))
    obtain ⟨-, hhi, -, -⟩ := lzeLastCode_ok h
    obtain ⟨hfin, hw⟩ := finalWidth_spec (e := (s.lze.codeOut p.toNat).1.advanced) (by simpa using h.w_hi)
    have hlast : (lzeLastCode s).lze = (s.lze.codeOut p.toNat).1.advanced.finalWidth := by
      rw [lzeLastCode_some hp, State.setLze_lze, emitCode_lze]
    rw [hlast] at hhi ⊢
    have hlo : s.lze.cs.toNat + 1 ≤ (s.lze.codeOut p.toNat).1.advanced.finalWidth.w.toNat := by
      have hlo := h.w_lo
      rw [hw, Lze.advanced_w, codeOut_w]
      split <;> omega
    apply emitCode_codeWritten
    all_goals rw [hlast]
    · rw [hfin]
      exact h1.nbits
    · rw [hfin]
      exact h1.acc
    · exact hhi
    · have hk : (s.lze.codeOut p.toNat).1.advanced.finalWidth.cs = s.lze.cs := by rw [hfin]; exact codeOut_cs _ _
      exact Lze.eoi_lt_two_pow_w (by rw [hk]; exact hcs) (by rw [hk]; exact hlo)

theorem lzeToSbf_lzeFinishStream (s : State) : lzeToSbf (lzeFinishStream s) = lzeToSbf s := by
  obtain ⟨e, xs, hstream⟩ := emitsFrom_lzeFinishStream (e := s.lze) (l := lzeLeadingClear s)
  rw [hstream s rfl rfl, lzeToSbf, lzeEmit_config]
  rfl

end Sys2Proof.Machine

namespace Sys2Proof.Encoder

open Machine

/-! ## The statements about one command -/

/-- Settles O40: the two cases of R190, and the clear code written by the encoder just started. -/
theorem lzeBegin : Obligations.LzeBegin := by
  refine ⟨fun _ => rfl, fun s cs => ⟨fun h => congrArg complete (lzeBegin_rejected h s), fun ⟨hlo, hhi⟩ => ?_⟩⟩
  have hok := begun_streamOk s.lze hlo hhi
  have hclear : 2 ^ cs.toNat < 2 ^ (s.lze.begun cs).w.toNat := by
    rw [← begun_clear s.lze hhi]
    exact lt_trans (Nat.lt_succ_self _) (Lze.eoi_lt_two_pow_w hok.cs_lo hok.w_lo)
  refine ⟨s.setLze (s.lze.begun cs), rfl, fun hoff => ?_, fun hon => ⟨emitCode (2 ^ cs.toNat) (s.setLze (s.lze.begun cs)), ?_, ?_⟩⟩
  · exact congrArg complete ((lzeBegin_legal hlo hhi s).trans (if_neg (ne_true_of_eq_false hoff)))
  · exact hok.codeWritten (s := s.setLze (s.lze.begun cs)) hclear
  · exact congrArg complete ((lzeBegin_legal hlo hhi s).trans (if_pos hon))

/-- Settles O41, a clause per case of the rule. -/
theorem lzeFeedNoCode : Obligations.LzeFeedNoCode :=
  ⟨fun _ => rfl, fun _ b h => congrArg complete (lzeFeed_err b h), fun _ b h => congrArg complete (lzeFeed_protocol b h),
    fun _ _ h => ⟨fun hb => congrArg complete (lzeFeed_badSymbol h hb), fun hb hp => congrArg complete (lzeFeed_first h hb hp),
      fun _ _ hb hp hl => congrArg complete (lzeFeed_hit h hb hp hl)⟩⟩

/-- Settles O42: the pending code is written (`emitCode`), the counter advanced, and the mapping registered at it. -/
theorem lzeFeedMiss : Obligations.LzeFeedMiss := by
  intro s b p hok hactive hb hp hl hnext
  have h := hok.stream hactive
  have hadv := h.advanced_next p.toNat
  obtain ⟨hreg, hw⟩ := registered_spec (e := (s.lze.codeOut p.toNat).1.advanced) p b (by simpa using h.w_hi)
  rw [hadv, Lze.advanced_w, codeOut_w] at hw
  refine ⟨emitCode p.toNat s, { (emitCode p.toNat s).lze.advanced.registered p b with pend := some (b.setWidth 12) },
    h.codeWritten (lt_two_pow_w h (h.pend_is p hp)), ?_, ?_, ?_, fun q x => ?_, ?_⟩
  · rw [emitCode_lze, hreg]
    rfl
  · rw [emitCode_lze, hreg]
    exact hadv
  · rw [emitCode_lze]
    exact hw
  · rw [emitCode_lze, hreg, hadv]
    simp only [Lze.advanced_ht, codeOut_ht]
    exact hashLookup_hashInsert _ _ _ _ _ _
  · exact congrArg complete ((lzeFeed_miss hactive hb hp hl).trans (lzeMiss_below p b h hnext))

/-- Settles O43: at the ceiling the clear code follows the pending code at the same width, and the dictionary restarts. -/
theorem lzeFeedCeiling : Obligations.LzeFeedCeiling := by
  intro s b p hok hactive hb hp hl hnext
  have h := hok.stream hactive
  have hpend := lt_two_pow_w h (h.pend_is p hp)
  have h1 : (emitCode p.toNat s).lze.StreamOk := by
    rw [emitCode_lze]
    exact codeOut_streamOk h hpend
  have hclear : s.lze.clear < 2 ^ (emitCode p.toNat s).lze.w.toNat := by
    rw [emitCode_lze, codeOut_w]
    exact lt_trans (Nat.lt_succ_self _) (Lze.eoi_lt_two_pow_w h.cs_lo h.w_lo)
  exact ⟨h.w_eq_of_ceiling hnext, emitCode p.toNat s, emitCode s.lze.clear (emitCode p.toNat s), h.codeWritten hpend,
    h1.codeWritten hclear, congrArg complete ((lzeFeed_miss hactive hb hp hl).trans (lzeMiss_ceiling p b h hnext))⟩

/-- Settles O44, a clause per phase; in an ACTIVE encoder, by the parts of the rule. -/
theorem lzeFinish : Obligations.LzeFinish := by
  refine ⟨rfl, fun s => ⟨fun h => congrArg complete (lzeFinish_err h), fun h => congrArg complete (lzeFinish_protocol h),
    fun hok hactive => ?_⟩⟩
  have h := hok.stream hactive
  have heoi : (lzeLastCode s).lze.eoi = 2 ^ s.lze.cs.toNat + 1 := by
    rw [Lze.eoi, endCode, (lzeLastCode_ok h).2.2.2]
  have hend := lzeLastCode_endCode h
  rw [heoi] at hend
  have hroute := lzeToSbf_lzeFinishStream s
  refine ⟨lzeLastCode s, emitCode (2 ^ s.lze.cs.toNat + 1) (lzeLastCode s), _, _, lzeLastCode_none, fun p hp => ?_, hend,
    lzeFlushPartial_none, lzeFlushPartial_some, rfl, fun hoff => ?_, fun hon => ?_⟩
  · obtain ⟨hfin, hw⟩ := finalWidth_spec (e := (s.lze.codeOut p.toNat).1.advanced) (by simpa using h.w_hi)
    have hadv := h.advanced_next p.toNat
    rw [hadv, Lze.advanced_w, codeOut_w] at hw
    refine ⟨emitCode p.toNat s, (emitCode p.toNat s).lze.advanced.finalWidth, h.codeWritten (lt_two_pow_w h (h.pend_is p hp)),
      lzeLastCode_some hp, ?_, ?_, ?_⟩
    · rw [emitCode_lze, hfin]
      rfl
    · rw [emitCode_lze, hfin]
      exact hadv
    · rw [emitCode_lze]
      exact hw
  · rw [← heoi]
    exact congrArg complete ((lzeFinish_active hactive).trans (if_neg (by rw [hroute]; exact ne_true_of_eq_false hoff)))
  · rw [← heoi]
    exact congrArg complete ((lzeFinish_active hactive).trans (if_pos (hroute.trans hon)))

end Sys2Proof.Encoder
end

section
/-! A stream of codes (R73, R201): the number and the length its codes have together, and how LZD reads it from bytes. What the codes mean is
`Lzd.Decodes`, which speaks of the decoder's table alone; `Lzd.Reading` adds the bits it holds. -/

namespace Sys2Proof.Machine

/-! ## Code streams (R73) -/

/-- The number that a stream of codes, each with its width, makes: the first code lowest. -/
def streamValue : List (Nat × Nat) → Nat
  | [] => 0
  | (c, w) :: ws => c + 2 ^ w * streamValue ws

/-- The number of bits of a stream of codes. -/
def streamBits : List (Nat × Nat) → Nat
  | [] => 0
  | (_, w) :: ws => w + streamBits ws

theorem bytesValue_append (xs ys : List Byte) : bytesValue (xs ++ ys) = bytesValue xs + 2 ^ (8 * xs.length) * bytesValue ys := by
  induction xs with
  | nil => simp [bytesValue]
  | cons x xs ih =>
    have hpow : 2 ^ (8 * (xs.length + 1)) = 2 ^ 8 * 2 ^ (8 * xs.length) := by rw [← Nat.pow_add]; congr 1; omega
    rw [List.cons_append, bytesValue, ih, bytesValue, List.length_cons, hpow]
    ring

/-! ## Reading codes (R98, R152 to R158) -/

/-- From the decoder `d`, the codes of `ws`, each of the decoder's width when it is read, lead to the end code and emit `e`. -/
inductive Lzd.Decodes : Lzd → List (Nat × Nat) → List Byte → Prop
  | eoi {d : Lzd} (hactive : d.st.phase = .active) : Lzd.Decodes d [(d.eoi, d.w.toNat)] []
  | code {d : Lzd} {c : Nat} {ws : List (Nat × Nat)} {e : List Byte} (hactive : d.st.phase = .active)
      (hc : c < 2 ^ d.w.toNat) (hne : c ≠ d.eoi) (h : Lzd.Decodes (d.afterSymbol c) ws e) :
      Lzd.Decodes d ((c, d.w.toNat) :: ws) (d.symbolBytes c ++ e)

theorem Lzd.Decodes.active {d : Lzd} {ws : List (Nat × Nat)} {e : List Byte} (h : d.Decodes ws e) : d.st.phase = .active := by
  cases h <;> assumption

theorem Lzd.Decodes.w_le_streamBits {d : Lzd} {ws : List (Nat × Nat)} {e : List Byte} (h : d.Decodes ws e) :
    d.w.toNat ≤ streamBits ws := by
  cases h <;> exact Nat.le_add_right _ _

/-- The decoder with other bits in its accumulator. -/
def Lzd.withBits (d : Lzd) (acc : BitVec 32) (nbits : BitVec 5) : Lzd := { d with acc := acc, nbits := nbits }

section
variable (d : Lzd) (acc : BitVec 32) (nbits : BitVec 5) (c : Nat)

theorem walk_withBits (n : Nat) : (d.withBits acc nbits).walk n c = d.walk n c := by
  induction n generalizing c with
  | zero => rfl
  | succ n ih =>
    simp only [Lzd.walk, ih]
    rfl

theorem expand_withBits : (d.withBits acc nbits).expand c = d.expand c :=
  congrArg List.reverse (walk_withBits d acc nbits c _)

theorem classify_withBits : (d.withBits acc nbits).classify c = d.classify c := rfl

theorem registered_withBits (e : List Byte) : (d.withBits acc nbits).registered e = (d.registered e).withBits acc nbits := by
  rw [Lzd.registered, show (d.withBits acc nbits).prev = d.prev from rfl, Lzd.registered]
  cases d.prev <;> rfl

theorem advanced_withBits : (d.withBits acc nbits).advanced c = (d.advanced c).withBits acc nbits := by
  by_cases ht : (BitVec.ofNat 13 (d.next.toNat + 1)).toNat = 2 ^ d.w.toNat
  · by_cases hw : d.w.toNat < Config.maxWidth <;> simp only [Lzd.advanced, Lzd.withBits, ht, hw, if_true, if_false]
  · simp only [Lzd.advanced, Lzd.withBits, ht, if_false]

theorem grown_withBits (e : List Byte) : (d.withBits acc nbits).grown c e = (d.grown c e).withBits acc nbits := by
  rw [Lzd.grown, registered_withBits, advanced_withBits, Lzd.grown, show (d.withBits acc nbits).full = d.full from rfl]
  split <;> rfl

theorem symbolBytes_withBits : (d.withBits acc nbits).symbolBytes c = d.symbolBytes c := by
  simp only [Lzd.symbolBytes, classify_withBits, expand_withBits, Lzd.kwkExpansion]

/-- What a code other than the end code makes of the table does not depend on the bits held. -/
theorem afterSymbol_withBits (hne : c ≠ d.eoi) :
    (d.withBits acc nbits).afterSymbol c = (d.afterSymbol c).withBits acc nbits := by
  have hclass := inClass_classify d c
  simp only [Lzd.afterSymbol, classify_withBits, expand_withBits, Lzd.kwkExpansion, grown_withBits]
  cases hc : d.classify c <;> rw [hc] at hclass
  case eoi => exact absurd hclass hne
  all_goals rfl

end

theorem Lzd.Decodes.withBits {d : Lzd} {ws : List (Nat × Nat)} {e : List Byte} (h : d.Decodes ws e) (acc : BitVec 32)
    (nbits : BitVec 5) : (d.withBits acc nbits).Decodes ws e := by
  induction h with
  | eoi hactive => exact .eoi (d := Lzd.withBits _ acc nbits) hactive
  | @code d c ws e hactive hc hne _ ih =>
    rw [← afterSymbol_withBits d acc nbits c hne] at ih
    rw [← symbolBytes_withBits d acc nbits c]
    exact .code (d := d.withBits acc nbits) hactive hc hne ih

/-! ## Reading bits (R151) -/

/-- The decoder `d` is reading the stream `ws`, which emits `e`: the bits it holds and the bits to come, of the number `r`, are the stream's. -/
structure Lzd.Reading (d : Lzd) (ws : List (Nat × Nat)) (r : Nat) (e : List Byte) : Prop where
  decodes : d.Decodes ws e
  table   : d.TableOk
  held    : d.acc.toNat < 2 ^ d.nbits.toNat
  value   : d.acc.toNat + 2 ^ d.nbits.toNat * r = streamValue ws

/-- `q` is the decoder and the emission of a decoder that reads on in the stream as far as the bits it holds reach: to the end code, or to a
code that they do not reach to. -/
def Lzd.ReadsOn (d : Lzd) (ws : List (Nat × Nat)) (r : Nat) (e : List Byte) (q : Lzd × List Byte) : Prop :=
  (streamBits ws ≤ d.nbits.toNat → q.1.st.phase = .done ∧ q.2 = e) ∧
  (d.nbits.toNat < streamBits ws → ∃ ws' e', q.1.Reading ws' r e' ∧ q.2 ++ e' = e ∧ q.1.nbits.toNat < q.1.w.toNat ∧
    q.1.nbits.toNat + streamBits ws = d.nbits.toNat + streamBits ws')

theorem afterSymbol_acc_nbits {d : Lzd} {c : Nat} (hne : c ≠ d.eoi) :
    (d.afterSymbol c).acc = d.acc ∧ (d.afterSymbol c).nbits = d.nbits := by
  have hself : d.withBits d.acc d.nbits = d := rfl
  have h := afterSymbol_withBits d d.acc d.nbits c hne
  rw [hself] at h
  exact ⟨(congrArg Lzd.acc h).trans rfl, (congrArg Lzd.nbits h).trans rfl⟩

theorem codeTaken_acc_nbits (d : Lzd) :
    d.codeTaken.acc.toNat = d.acc.toNat / 2 ^ d.w.toNat ∧ d.codeTaken.nbits.toNat = d.nbits.toNat - d.w.toNat :=
  ⟨toNat_ofNat_of_lt (lt_of_le_of_lt (Nat.div_le_self _ _) d.acc.isLt),
    toNat_ofNat_of_lt (lt_of_le_of_lt (Nat.sub_le _ _) d.nbits.isLt)⟩

theorem run_of_not_hasCode {d : Lzd} (h : d.hasCode = false) (n : Nat) : d.run n = (d, []) := by
  cases n with
  | zero => rfl
  | succ n => exact if_neg (ne_true_of_eq_false h)

theorem classify_eoi (d : Lzd) : d.classify d.eoi = .eoi := by
  have heoi := eoi_eq d
  rw [Lzd.classify, if_neg (by omega), if_neg (by omega), if_pos rfl]

/-- The end code ends the loop (R155). -/
theorem run_ended (d : Lzd) (n : Nat) : (d.ended.run n).1.st.phase = .done ∧ (d.ended.run n).2 = [] := by
  rw [run_of_not_hasCode rfl]
  exact ⟨rfl, rfl⟩

/-- The bits of a code are the low bits of the stream, and the rest of the stream follows them. -/
theorem low_code {acc n w r c v : Nat} (hw : w ≤ n) (hc : c < 2 ^ w) (h : acc + 2 ^ n * r = c + 2 ^ w * v) :
    acc % 2 ^ w = c ∧ acc / 2 ^ w + 2 ^ (n - w) * r = v := by
  have hn : 2 ^ n = 2 ^ w * 2 ^ (n - w) := by rw [← Nat.pow_add, Nat.add_sub_cancel' hw]
  have hpos := Nat.two_pow_pos w
  have hmod := congrArg (· % 2 ^ w) h
  have hdiv := congrArg (· / 2 ^ w) h
  simp only [hn, Nat.mul_assoc, Nat.add_mul_mod_self_left, Nat.mod_eq_of_lt hc] at hmod
  simp only [hn, Nat.mul_assoc, Nat.add_mul_div_left _ _ hpos, Nat.div_eq_of_lt hc, Nat.zero_add] at hdiv
  exact ⟨hmod, hdiv⟩

section
variable {d : Lzd} {c r : Nat} {ws : List (Nat × Nat)} {e : List Byte}

theorem Lzd.Reading.nextCode_eq (h : d.Reading ((c, d.w.toNat) :: ws) r e) (hw : d.w.toNat ≤ d.nbits.toNat)
    (hc : c < 2 ^ d.w.toNat) : d.nextCode = c :=
  (low_code hw hc h.value).1

theorem Lzd.TableOk.eoi_lt_two_pow_w (h : d.TableOk) : d.eoi < 2 ^ d.w.toNat := by
  have hpow : 2 ^ 2 ≤ 2 ^ d.cs.toNat := Nat.pow_le_pow_right (by decide) h.cs_lo
  calc d.eoi < 2 ^ (d.cs.toNat + 1) := by rw [Lzd.eoi, endCode, Nat.pow_succ]; omega
    _ ≤ 2 ^ d.w.toNat := Nat.pow_le_pow_right (by decide) h.w_lo

/-- A code that is taken leaves the rest of the stream to read. -/
theorem Lzd.Reading.code_taken (h : d.Reading ((c, d.w.toNat) :: ws) r (d.symbolBytes c ++ e)) (hw : d.w.toNat ≤ d.nbits.toNat)
    (hc : c < 2 ^ d.w.toNat) (hne : c ≠ d.eoi) (hrest : (d.afterSymbol c).Decodes ws e) :
    (d.codeTaken.afterSymbol c).Reading ws r e ∧
      (d.codeTaken.afterSymbol c).nbits.toNat = d.nbits.toNat - d.w.toNat := by
  obtain ⟨hacc, hnbits⟩ := codeTaken_acc_nbits d
  have htaken : d.codeTaken = d.withBits d.codeTaken.acc d.codeTaken.nbits := rfl
  obtain ⟨hacc', hnbits'⟩ := afterSymbol_acc_nbits (d := d.codeTaken) hne
  rw [← hacc'] at hacc
  rw [← hnbits'] at hnbits
  refine ⟨⟨?_, afterSymbol_tableOk c (h.table.withBits d.st _ _), ?_, ?_⟩, hnbits⟩
  · rw [htaken, afterSymbol_withBits d _ _ c hne]
    exact hrest.withBits _ _
  · rw [hacc, hnbits, Nat.div_lt_iff_lt_mul (Nat.two_pow_pos _), ← Nat.pow_add, Nat.sub_add_cancel hw]
    exact h.held
  · rw [hacc, hnbits]
    exact (low_code hw hc h.value).2

/-- A decoder that holds less than a code stops, and has the whole stream to read. -/
theorem Lzd.Reading.stop (h : d.Reading ws r e) (hw : d.nbits.toNat < d.w.toNat) : d.ReadsOn ws r e (d, []) := by
  refine ⟨fun hall => ?_, fun _ => ⟨ws, e, h, rfl, hw, rfl⟩⟩
  have hbits := h.decodes.w_le_streamBits
  omega

theorem Lzd.ReadsOn.cons {r' : Lzd × List Byte} {d' : Lzd} {x : List Byte} (h : d'.ReadsOn ws r e r')
    (hw : d.w.toNat ≤ d.nbits.toNat) (hn : d'.nbits.toNat = d.nbits.toNat - d.w.toNat) :
    d.ReadsOn ((c, d.w.toNat) :: ws) r (x ++ e) (r'.1, x ++ r'.2) := by
  obtain ⟨hall, hpart⟩ := h
  simp only [Lzd.ReadsOn, streamBits]
  refine ⟨fun hbits => ?_, fun hbits => ?_⟩
  · obtain ⟨hdone, he⟩ := hall (by omega)
    exact ⟨hdone, by rw [he]⟩
  · specialize hpart (by omega)
    obtain ⟨ws', e', hreading, he, hlt, hsum⟩ := hpart
    have hsum' : r'.1.nbits.toNat + (d.w.toNat + streamBits ws) = d.nbits.toNat + streamBits ws' := by omega
    exact ⟨ws', e', hreading, by rw [List.append_assoc, he], hlt, hsum'⟩

/-- The loop of R151, on a stream of codes. -/
theorem Lzd.Reading.run (h : d.Reading ws r e) {n : Nat} (hn : d.nbits.toNat ≤ n) : d.ReadsOn ws r e (d.run n) := by
  have hlo := h.table.w_lo
  induction n generalizing d ws e with
  | zero => exact h.stop (by omega)
  | succ n ih =>
    by_cases hw : d.w.toNat ≤ d.nbits.toNat
    · have hcode : d.hasCode = true := (hasCode_iff d).2 ⟨h.decodes.active, hw⟩
      have hbytes := fun c => symbolBytes_withBits d d.codeTaken.acc d.codeTaken.nbits c
      rw [Lzd.run, if_pos hcode]
      cases h.decodes with
      | eoi hactive =>
        have hend := h.table.eoi_lt_two_pow_w
        rw [h.nextCode_eq hw hend]
        have hclass : d.codeTaken.classify d.eoi = .eoi := classify_eoi d.codeTaken
        simp only [Lzd.symbolBytes, Lzd.afterSymbol, hclass]
        obtain ⟨hdone, he⟩ := run_ended d.codeTaken n
        refine ⟨fun _ => ⟨hdone, he⟩, fun hbits => ?_⟩
        simp only [streamBits] at hbits
        omega
      | code hactive hc hne hrest =>
        obtain ⟨hreading, hbits⟩ := h.code_taken hw hc hne hrest
        rw [h.nextCode_eq hw hc]
        have hlo' := hreading.table.w_lo
        rw [← hbytes]
        exact (ih hreading (by omega) hlo').cons hw hbits
    · have hstop : d.hasCode = false := by
        rw [← Bool.not_eq_true, hasCode_iff]
        exact fun hcode => hw hcode.2
      rw [run_of_not_hasCode hstop]
      exact h.stop (by omega)

/-! ## Reading bytes (R151) -/

/-- The byte fits above the bits held, which are fewer than a code. -/
theorem byteGiven_acc_nbits (b : Byte) (hw : d.w.toNat ≤ 12) (hlt : d.nbits.toNat < d.w.toNat)
    (hheld : d.acc.toNat < 2 ^ d.nbits.toNat) :
    (d.byteGiven b).acc.toNat = d.acc.toNat + b.toNat * 2 ^ d.nbits.toNat ∧
      (d.byteGiven b).nbits.toNat = d.nbits.toNat + 8 := by
  have hb := b.isLt
  have hpow : 2 ^ d.nbits.toNat ≤ 2 ^ 12 := Nat.pow_le_pow_right (by decide) (by omega)
  have hmul : b.toNat * 2 ^ d.nbits.toNat ≤ 255 * 2 ^ 12 := Nat.mul_le_mul (by omega) hpow
  exact ⟨toNat_ofNat_of_lt (by omega), toNat_ofNat_of_lt (by omega)⟩

/-- A byte that is given is the next eight bits of the stream. -/
theorem Lzd.Reading.byte_given {b : Byte} {xs : List Byte} (h : d.Reading ws (bytesValue (b :: xs)) e)
    (hlt : d.nbits.toNat < d.w.toNat) :
    (d.byteGiven b).Reading ws (bytesValue xs) e ∧ (d.byteGiven b).nbits.toNat = d.nbits.toNat + 8 := by
  obtain ⟨hacc, hnbits⟩ := byteGiven_acc_nbits b h.table.w_hi hlt h.held
  have hpow : 2 ^ (d.nbits.toNat + 8) = 2 ^ d.nbits.toNat * 2 ^ 8 := Nat.pow_add _ _ _
  refine ⟨⟨h.decodes.withBits _ _, h.table.withBits d.st _ _, ?_, ?_⟩, hnbits⟩
  · have hheld := h.held
    have hb := Nat.mul_le_mul_right (2 ^ d.nbits.toNat) (Nat.le_of_lt_succ b.isLt)
    rw [hacc, hnbits, hpow]
    omega
  · rw [hacc, hnbits, hpow, ← h.value, bytesValue]
    ring

/-- `LZD_FEED` of each byte in order: the decoder, and all the bytes emitted. -/
def Lzd.feedAll : List Byte → Lzd → Lzd × List Byte
  | [], d => (d, [])
  | b :: xs, d => (((d.feedResult b).1.feedAll xs).1, (d.feedResult b).2 ++ ((d.feedResult b).1.feedAll xs).2)

/-- After the end code every further byte is ignored (R151). -/
theorem feedAll_done (hdone : d.st.phase = .done) (xs : List Byte) : d.feedAll xs = (d, []) := by
  have hignored (b : Byte) : d.feedResult b = (d, []) := by simp only [Lzd.feedResult, hdone]
  induction xs with
  | nil => rfl
  | cons b xs ih => simp only [Lzd.feedAll, hignored, ih, List.append_nil]

/-- Bytes of a stream: once they reach to its end, LZD is DONE and has emitted all of it; before that, it is ACTIVE. -/
theorem Lzd.Reading.feedAll {xs ys : List Byte} (h : d.Reading ws (bytesValue (xs ++ ys)) e)
    (hlt : d.nbits.toNat < d.w.toNat) :
    (streamBits ws ≤ d.nbits.toNat + 8 * xs.length → (d.feedAll xs).1.st.phase = .done ∧ (d.feedAll xs).2 = e) ∧
    (d.nbits.toNat + 8 * xs.length < streamBits ws → (d.feedAll xs).1.st.phase = .active) := by
  have hactive := h.decodes.active
  induction xs generalizing d ws e with
  | nil =>
    have hbits := h.decodes.w_le_streamBits
    rw [List.length_nil]
    exact ⟨fun hall => by omega, fun _ => hactive⟩
  | cons b xs ih =>
    obtain ⟨hgiven, hnbits⟩ := h.byte_given hlt
    have hfeed : d.feedResult b = (d.byteGiven b).run (d.byteGiven b).nbits.toNat := by
      simp only [Lzd.feedResult, hactive, Lzd.fed]
    obtain ⟨hall, hpart⟩ := hgiven.run le_rfl
    simp only [Lzd.feedAll, hfeed, List.length_cons]
    rw [hnbits] at hall hpart
    by_cases hbits : streamBits ws ≤ d.nbits.toNat + 8
    · obtain ⟨hdone, he⟩ := hall hbits
      rw [hnbits, feedAll_done hdone, List.append_nil]
      exact ⟨fun _ => ⟨hdone, he⟩, fun hlong => by omega⟩
    · obtain ⟨ws', e', hreading, he, hlt', hsum⟩ := hpart (by omega)
      obtain ⟨hdone, hstill⟩ := ih hreading hlt' hreading.decodes.active
      rw [hnbits]
      refine ⟨fun hlong => ?_, fun hshort => hstill (by omega)⟩
      obtain ⟨hphase, he'⟩ := hdone (by omega)
      exact ⟨hphase, by rw [he', he]⟩

end

end Sys2Proof.Machine
end

section
/-! The decoder follows the encoder (R197, R201). `Mirrors d e`: a decoder that has read every code written so far has the counters of the
encoder and its dictionary, but for the entry it registers at the next code. Each event of R193 to R195 keeps it, and the codes that the event
writes make the decoder emit what was pending. -/

namespace Sys2Proof.Machine

/-! ## What a data code stands for -/

theorem classify_clear (d : Lzd) : d.classify d.clear = .clr := by
  rw [Lzd.classify, if_neg (lt_irrefl _), if_pos rfl]

theorem classify_literal {d : Lzd} {c : Nat} (h : c < d.clear) : d.classify c = .lit := if_pos h

theorem classify_slot {d : Lzd} {c : Nat} (hlt : d.eoi < c) (hnext : c < d.next.toNat) : d.classify c = .dict := by
  have heoi := eoi_eq d
  rw [Lzd.classify, if_neg (by omega), if_neg (by omega), if_neg (by omega), if_pos ⟨hlt, hnext⟩]

theorem classify_next {d : Lzd} {p : Code} (hlt : d.eoi < d.next.toNat) (hprev : d.prev = some p) :
    d.classify d.next.toNat = .kwk p := by
  have heoi := eoi_eq d
  rw [Lzd.classify, if_neg (by omega), if_neg (by omega), if_neg (by omega), if_neg (by omega)]
  simp [hprev, hlt]

theorem symbolBytes_literal {d : Lzd} {c : Nat} (h : c < d.clear) : d.symbolBytes c = [BitVec.ofNat 8 c] := by
  rw [Lzd.symbolBytes, classify_literal h]

theorem symbolBytes_dataCode {d : Lzd} {c : Nat} (hc : isDataCode d.cs.toNat d.next.toNat c) :
    d.symbolBytes c = d.expand c := by
  rcases hc with hlit | ⟨hlt, hnext⟩
  · rw [symbolBytes_literal hlit, Lzd.expand, walk_literal d _ hlit]
    rfl
  · rw [Lzd.symbolBytes, classify_slot hlt hnext]

theorem symbolBytes_next {d : Lzd} {p : Code} (hlt : d.eoi < d.next.toNat) (hprev : d.prev = some p) :
    d.symbolBytes d.next.toNat = d.kwkExpansion p := by
  rw [Lzd.symbolBytes, classify_next hlt hprev]

/-- A registered slot stands for the bytes of the code before it in its chain, and its own (R159). -/
theorem expand_slot {d : Lzd} {c : Nat} (h : d.TableOk) (hlt : d.eoi < c) (hnext : c < d.next.toNat) :
    d.expand c = d.expand (d.prefixAt c).toNat ++ [d.suffixAt c] :=
  have hprefix := isDataCode_mono hnext.le (h.chain c hlt hnext)
  (expands_expand h (.inr ⟨hlt, hnext⟩)).unique (.slot hlt (expands_expand h hprefix))

theorem Lzd.Growable.ne_eoi {d : Lzd} {c : Nat} (h : d.Growable c) : c ≠ d.eoi := by
  have heoi := eoi_eq d
  rcases h with h | ⟨h, -⟩ | ⟨h, -⟩ <;> omega

theorem Lzd.Growable.lt_two_pow_w {d : Lzd} {c : Nat} (h : d.Growable c) (ht : d.TableOk) (hfull : d.full = false) :
    c < 2 ^ d.w.toNat := by
  have hnext := ht.next_w hfull
  have hlo := ht.next_lo
  have heoi := eoi_eq d
  rcases h with h | ⟨-, h⟩ | ⟨-, h, -⟩ <;> omega

theorem afterSymbol_growable {d : Lzd} {c : Nat} (h : d.Growable c) : d.afterSymbol c = d.grown c (d.symbolBytes c) := by
  rw [Lzd.afterSymbol, Lzd.symbolBytes]
  rcases h with h | ⟨hlt, hnext⟩ | ⟨hlt, rfl, hprev⟩
  · rw [classify_literal h]
  · rw [classify_slot hlt hnext]
  · obtain ⟨p, hp⟩ := Option.ne_none_iff_exists'.1 hprev
    rw [classify_next hlt hp]

/-! ## The mirror (R197) -/

/-- The bytes that the pending code stands for: what the encoder has taken and not yet written. -/
def Lzd.pendBytes (d : Lzd) : Option Code → List Byte
  | none => []
  | some p => d.symbolBytes p.toNat

/-- The decoder `d` has read every code that the encoder `e` has written. -/
structure Mirrors (d : Lzd) (e : Lze) : Prop where
  active  : d.st.phase = .active
  table   : d.TableOk
  notFull : d.full = false
  cs      : d.cs.toNat = e.cs.toNat
  w       : d.w.toNat = e.w.toNat
  next    : d.next.toNat = e.next.toNat
  /-- the decoder can read the pending code next -/
  pend    : ∀ p, e.pend = some p → d.Growable p.toNat
  slots   : ∀ p x c, hashLookup e.ht p x = some c → c.toNat ≠ d.next.toNat →
    d.prefixAt c.toNat = p ∧ d.suffixAt c.toNat = x
  /-- the mapping at `NEXT` is the slot that the pending code will register -/
  last    : ∀ p x c, hashLookup e.ht p x = some c → c.toNat = d.next.toNat →
    d.prev = some p ∧ (d.pendBytes e.pend).head? = some x

/-- With an empty dictionary only the counters have to agree. -/
theorem Mirrors.of_empty {d : Lzd} {e : Lze} (hactive : d.st.phase = .active) (ht : d.TableOk) (hfull : d.full = false)
    (hcs : d.cs.toNat = e.cs.toNat) (hw : d.w.toNat = e.w.toNat) (hnext : d.next.toNat = e.next.toNat)
    (hht : e.ht = []) (hpend : ∀ p, e.pend = some p → p.toNat < d.clear) : Mirrors d e where
  active := hactive
  table := ht
  notFull := hfull
  cs := hcs
  w := hw
  next := hnext
  pend p hp := .inl (hpend p hp)
  slots p x c hc := by simp [hht, hashLookup] at hc
  last p x c hc := by simp [hht, hashLookup] at hc

theorem toNat_setWidth_literal (b : Byte) : (b.setWidth 12 : Code).toNat = b.toNat := by
  have hb := b.isLt
  simp only [BitVec.toNat_setWidth]
  omega

/-- A pending literal stands for its byte. -/
theorem pendBytes_literal {d : Lzd} {b : Byte} (h : (b.setWidth 12 : Code).toNat < d.clear) :
    d.pendBytes (some (b.setWidth 12)) = [b] := by
  rw [Lzd.pendBytes, symbolBytes_literal h, toNat_setWidth_literal]
  simp

/-- A mapping of the encoder's dictionary, as R35 bounds it. -/
theorem Lze.StreamOk.mapping {e : Lze} {p c : Code} {x : Byte} (h : e.StreamOk) (hl : hashLookup e.ht p x = some c) :
    e.eoi < c.toNat ∧ c.toNat ≤ e.next.toNat ∧ isDataCode e.cs.toNat c.toNat p.toNat := by
  obtain ⟨hlo, hhi, hdata, -⟩ := h.codes _ (Memory.mem_of_find? hl)
  have hx := x.isLt
  have hkey : hashKey p x / 256 = p.toNat := by
    rw [hashKey]
    omega
  exact ⟨hlo, hhi, hkey ▸ hdata⟩

/-- The clear code (R154) of a decoder that the encoder's restart mirrors (R190, R195). -/
theorem mirrors_cleared {d : Lzd} {e : Lze} (hactive : d.st.phase = .active) (ht : d.TableOk) (hcs : d.cs.toNat = e.cs.toNat)
    (hw : e.w.toNat = e.cs.toNat + 1) (hnext : e.next.toNat = 2 ^ e.cs.toNat + 1) (hht : e.ht = [])
    (hpend : ∀ p, e.pend = some p → p.toNat < d.clear) :
    Mirrors (d.afterSymbol d.clear) e ∧
      ∀ ws x, (d.afterSymbol d.clear).Decodes ws x → d.Decodes ((d.clear, d.w.toNat) :: ws) x := by
  have heoi := ht.eoi_lt_two_pow_w
  have hclear := clear_lt_eoi d
  have hafter : d.afterSymbol d.clear = d.cleared := by rw [Lzd.afterSymbol, classify_clear]
  have hbytes : d.symbolBytes d.clear = [] := by rw [Lzd.symbolBytes, classify_clear]
  obtain ⟨hw', hnext'⟩ := cleared_w_next ht.cs_hi
  refine ⟨?_, fun ws x hrest => ?_⟩
  · rw [hafter]
    refine .of_empty hactive (cleared_tableOk ht.cs_lo ht.cs_hi) rfl hcs (by rw [hw', hw, hcs]) ?_ hht hpend
    rw [hnext', hnext, Lzd.eoi, endCode, hcs]
  · have hcode := Lzd.Decodes.code hactive (by omega) (by omega) hrest
    rwa [hbytes] at hcode

section
variable {d : Lzd} {e e' : Lze} {p : Code} {b : Byte} (h : Mirrors d e) (hs : e.StreamOk)
include h

theorem Mirrors.eoi_eq : d.eoi = e.eoi := by rw [Lzd.eoi, Lze.eoi, h.cs]

theorem Mirrors.literal (hb : b.toNat < 2 ^ e.cs.toNat) : (b.setWidth 12 : Code).toNat < d.clear := by
  rwa [toNat_setWidth_literal, Lzd.clear, clearCode, h.cs]

include hs

/-- A first byte (R192). -/
theorem Mirrors.first (hp : e.pend = none) (hb : b.toNat < 2 ^ e.cs.toNat) : Mirrors d { e with pend := some (b.setWidth 12) } := by
  obtain ⟨-, hht⟩ := hs.pend hp
  refine .of_empty h.active h.table h.notFull h.cs h.w h.next hht fun q hq => ?_
  obtain rfl : b.setWidth 12 = q := by simpa using hq
  exact h.literal hb

/-- A hit (R193): the mapped code stands for the pending bytes and the new one, also when it is the slot not yet registered. -/
theorem Mirrors.hit {c : Code} (hp : e.pend = some p) (hl : hashLookup e.ht p b = some c) :
    Mirrors d { e with pend := some c } ∧ d.symbolBytes c.toNat = d.symbolBytes p.toNat ++ [b] := by
  obtain ⟨hlo, hhi, hdata⟩ := hs.mapping hl
  rw [← h.eoi_eq] at hlo
  rw [← h.next] at hhi
  rw [← h.cs] at hdata
  have hpend := symbolBytes_dataCode (isDataCode_mono hhi hdata)
  obtain ⟨hgrow, hbytes⟩ : d.Growable c.toNat ∧ d.symbolBytes c.toNat = d.symbolBytes p.toNat ++ [b] := by
    by_cases hc : c.toNat = d.next.toNat
    · obtain ⟨hprev, hhead⟩ := h.last p b c hl hc
      rw [hp, Lzd.pendBytes, hpend] at hhead
      refine ⟨.inr (.inr ⟨hlo, hc, by simp [hprev]⟩), ?_⟩
      rw [hc, symbolBytes_next (hc ▸ hlo) hprev, hpend, Lzd.kwkExpansion, List.headD_eq_head?_getD, hhead]
      rfl
    · obtain ⟨hpfx, hsfx⟩ := h.slots p b c hl hc
      have hlt : c.toNat < d.next.toNat := by omega
      refine ⟨.inr (.inl ⟨hlo, hlt⟩), ?_⟩
      rw [symbolBytes_dataCode (.inr ⟨hlo, hlt⟩), expand_slot h.table hlo hlt, hpfx, hsfx, hpend]
  refine ⟨{ h with pend := fun q hq => ?_, last := fun q x c' hl' hc' => ?_ }, hbytes⟩
  · obtain rfl : c = q := by simpa using hq
    exact hgrow
  · obtain ⟨hprev, hhead⟩ := h.last q x c' hl' hc'
    rw [hp, Lzd.pendBytes] at hhead
    refine ⟨hprev, ?_⟩
    rw [Lzd.pendBytes, hbytes, List.head?_append, hhead]
    rfl

omit hs

/-- The decoder after the pending code is read (R160). -/
theorem Mirrors.grows (hp : e.pend = some p) :
    Grows d p.toNat ((d.symbolBytes p.toNat).headD 0#8) (d.afterSymbol p.toNat) ∧
      (d.afterSymbol p.toNat).TableOk ∧ (d.afterSymbol p.toNat).st.phase = .active := by
  have hgrow := h.pend p hp
  rw [afterSymbol_growable hgrow]
  exact ⟨grown_grows _ _ h.table, grown_tableOk _ h.table hgrow, by rw [grown_st]; exact h.active⟩

/-- The pending code is a code that the decoder reads and that emits the pending bytes. -/
theorem Mirrors.decodes_pend {ws : List (Nat × Nat)} {x : List Byte} (hp : e.pend = some p)
    (hrest : (d.afterSymbol p.toNat).Decodes ws x) :
    d.Decodes ((p.toNat, e.w.toNat) :: ws) (d.pendBytes e.pend ++ x) := by
  have hgrow := h.pend p hp
  rw [← h.w, hp]
  exact .code h.active (hgrow.lt_two_pow_w h.table h.notFull) hgrow.ne_eoi hrest

/-- The decoder's width after the pending code: the encoder's width check of R198. -/
theorem Mirrors.w_afterSymbol (hp : e.pend = some p) : (d.afterSymbol p.toNat).w.toNat =
    if e.next.toNat + 1 = 2 ^ e.w.toNat ∧ e.w.toNat < 12 then e.w.toNat + 1 else e.w.toNat := by
  obtain ⟨hg, -, -⟩ := h.grows hp
  have hhi := h.table.w_hi
  rw [← h.next, ← h.w]
  by_cases ht : d.next.toNat + 1 = 2 ^ d.w.toNat
  · by_cases hw : d.w.toNat < 12
    · rw [if_pos ⟨ht, hw⟩, (hg.widen h.notFull ht hw).1]
    · rw [if_neg (fun hboth => hw hboth.2), (hg.ceiling h.notFull ht (by omega)).1]
  · rw [if_neg (fun hboth => ht hboth.1), (hg.below h.notFull ht).1]

include hs

/-- Below the ceiling the pending code becomes the decoder's previous code. -/
theorem Mirrors.prev_afterSymbol (hp : e.pend = some p) (hnext : e.next.toNat + 1 ≠ 4096) :
    (d.afterSymbol p.toNat).full = false ∧ (d.afterSymbol p.toNat).prev = some p := by
  obtain ⟨hg, -, -⟩ := h.grows hp
  have hroom := hs.w_lt_of_threshold hnext
  rw [← h.next, ← h.w] at hroom
  have hcode : BitVec.ofNat 12 p.toNat = p := by simp
  by_cases ht : d.next.toNat + 1 = 2 ^ d.w.toNat
  · obtain ⟨-, hfull, hprev⟩ := hg.widen h.notFull ht (hroom ht)
    exact ⟨hfull, by rw [hprev, hcode]⟩
  · obtain ⟨-, hfull, hprev⟩ := hg.below h.notFull ht
    exact ⟨hfull, by rw [hprev, hcode]⟩

/-- A miss below the ceiling (R194): the slot at `NEXT` is registered, and the new mapping is the next one. -/
theorem Mirrors.miss (hp : e.pend = some p) (hb : b.toNat < 2 ^ e.cs.toNat) (hnext : e.next.toNat + 1 ≠ 4096)
    (hcs : e'.cs = e.cs) (hn : e'.next.toNat = e.next.toNat + 1)
    (hw : e'.w.toNat = if e.next.toNat + 1 = 2 ^ e.w.toNat then e.w.toNat + 1 else e.w.toNat)
    (hht : ∀ q x, hashLookup e'.ht q x =
      if q = p ∧ x = b then some (BitVec.ofNat 12 (e.next.toNat + 1)) else hashLookup e.ht q x)
    (hpend : e'.pend = some (b.setWidth 12)) : Mirrors (d.afterSymbol p.toNat) e' := by
  obtain ⟨hg, htable, hactive⟩ := h.grows hp
  have hroom := hs.w_lt_of_threshold hnext
  have hhi := hs.next_hi
  have hnew : (BitVec.ofNat 12 (e.next.toNat + 1)).toNat = e.next.toNat + 1 := toNat_ofNat_of_lt (by omega)
  have hn' := hg.next h.notFull
  rw [h.next] at hn'
  obtain ⟨-, hcs', -, -⟩ := hg.kept
  obtain ⟨hfull, hprev⟩ := h.prev_afterSymbol hs hp hnext
  have hlit : (b.setWidth 12 : Code).toNat < (d.afterSymbol p.toNat).clear := by
    rw [Lzd.clear, hcs']
    exact h.literal hb
  refine ⟨hactive, htable, hfull, ?_, ?_, by rw [hn', hn], fun q hq => ?_, fun q x c hl hc => ?_, fun q x c hl hc => ?_⟩
  · rw [hcs', hcs, h.cs]
  · rw [h.w_afterSymbol hp, hw]
    by_cases ht : e.next.toNat + 1 = 2 ^ e.w.toNat
    · rw [if_pos ht, if_pos ⟨ht, hroom ht⟩]
    · rw [if_neg ht, if_neg (fun hboth => ht hboth.1)]
  · obtain rfl : b.setWidth 12 = q := by simpa [hpend] using hq
    exact .inl hlit
  · rw [hht] at hl
    split at hl
    · obtain rfl : BitVec.ofNat 12 (e.next.toNat + 1) = c := by simpa using hl
      exact absurd (hnew.trans hn'.symm) hc
    · have hslots := hg.slots h.notFull c.toNat
      by_cases hold : c.toNat = d.next.toNat
      · obtain ⟨hprev', hhead⟩ := h.last q x c hl hold
        rw [hp, Lzd.pendBytes] at hhead
        simpa only [hprev', hold, if_true, List.headD_eq_head?_getD, hhead, Option.getD_some] using hslots
      · obtain ⟨hpfx, hsfx⟩ := h.slots q x c hl hold
        cases hd : d.prev <;> simpa only [hd, hold, if_false, hpfx, hsfx] using hslots
  · rw [hht] at hl
    split at hl
    · next heq =>
      obtain ⟨rfl, rfl⟩ := heq
      refine ⟨hprev, ?_⟩
      rw [hpend, pendBytes_literal hlit]
      rfl
    · obtain ⟨-, hle, -⟩ := hs.mapping hl
      omega

omit hs

/-- The ceiling (R195): the decoder, full after the pending code, reads the clear code at 12 bits and restarts with the encoder. -/
theorem Mirrors.ceiling (hp : e.pend = some p) (hb : b.toNat < 2 ^ e.cs.toNat) (hw12 : e.w.toNat = 12) (hcs : e'.cs = e.cs)
    (hw : e'.w.toNat = e.cs.toNat + 1) (hn : e'.next.toNat = 2 ^ e.cs.toNat + 1) (hht : e'.ht = [])
    (hpend : e'.pend = some (b.setWidth 12)) :
    Mirrors ((d.afterSymbol p.toNat).afterSymbol (2 ^ e.cs.toNat)) e' ∧
      ∀ ws x, ((d.afterSymbol p.toNat).afterSymbol (2 ^ e.cs.toNat)).Decodes ws x →
        d.Decodes ((p.toNat, e.w.toNat) :: (2 ^ e.cs.toNat, e.w.toNat) :: ws) (d.pendBytes e.pend ++ x) := by
  obtain ⟨hg, htable, hactive⟩ := h.grows hp
  obtain ⟨-, hcs', -, -⟩ := hg.kept
  have hclear : (d.afterSymbol p.toNat).clear = 2 ^ e.cs.toNat := by rw [Lzd.clear, clearCode, hcs', h.cs]
  have hwidth : (d.afterSymbol p.toNat).w.toNat = e.w.toNat := by
    rw [h.w_afterSymbol hp, hw12, if_neg (by omega)]
  obtain ⟨hm, hdec⟩ := mirrors_cleared (e := e') hactive htable (by rw [hcs', h.cs, hcs]) (by rw [hw, hcs])
    (by rw [hn, hcs]) hht fun q hq => by
      obtain rfl : b.setWidth 12 = q := by simpa [hpend] using hq
      rw [toNat_setWidth_literal, hclear]
      exact hb
  rw [hclear] at hm hdec
  rw [hwidth] at hdec
  exact ⟨hm, fun ws x hrest => h.decodes_pend hp (hdec ws x hrest)⟩

end

end Sys2Proof.Machine
end

section
/-! The round trip (R201). `Packs s ws t`: on the way from `s` to `t`, LZE writes the codes `ws` and pads them to a byte. The encoder's run over
its input packs codes that the mirroring decoder reads back (`Encoding.run`), and bytes that pack codes make LZD emit what they decode to
(`Lzd.Decodes.feedAll`). -/

namespace Sys2Proof.Machine

theorem runCommands_cons {i : Instr} {s t : State} (h : exec i s = .next t) (is : List Instr) :
    runCommands (i :: is) s = runCommands is t := by
  rw [runCommands, h]

/-! ## The decoder's run -/

/-- The bytes `xs`, fed by the host one after another. -/
def lzdFeedAll (xs : List Byte) (s : State) : State := xs.foldl (fun t x => respond 0#64 (lzdFeed x t)) s

theorem runCommands_lzdFeed (cs : Byte) (xs : List Byte) (s : State) :
    runCommands (.lzdBegin cs :: xs.map Instr.lzdFeed) s = some (lzdFeedAll xs (respond 0#64 (lzdBegin cs s))) :=
  runCommands_map (fun _ _ => rfl) xs _

theorem lzdFeedAll_lzd (xs : List Byte) (s : State) : (lzdFeedAll xs s).lzd = (s.lzd.feedAll xs).1 := by
  induction xs generalizing s with
  | nil => rfl
  | cons x xs ih =>
    have hone : (respond 0#64 (lzdFeed x s)).lzd = (s.lzd.feedResult x).1 := by
      rw [lzdFeed_eq, respond_lzd, lzdEmit_lzd, State.setLzd_lzd]
    rw [Lzd.feedAll, ← hone]
    exact ih _

/-- With the route off, the bytes emitted are appended to `LZD_OUT` (R162). -/
theorem lzdFeedAll_out (xs : List Byte) {s : State} (hoff : lzdToCmp s = false) :
    (lzdFeedAll xs s).out = { s.out with lzdOut := s.out.lzdOut ++ (s.lzd.feedAll xs).2 } := by
  induction xs generalizing s with
  | nil => simp [lzdFeedAll, Lzd.feedAll]
  | cons x xs ih =>
    have hone : respond 0#64 (lzdFeed x s) = respond 0#64 ((s.setLzd (s.lzd.feedResult x).1).setOut
        { s.out with lzdOut := s.out.lzdOut ++ (s.lzd.feedResult x).2 }) := by
      rw [lzdFeed_eq, lzdEmit_off _ (s := s.setLzd (s.lzd.feedResult x).1) hoff, State.setLzd_out]
    have hrest := ih (s := respond 0#64 (lzdFeed x s)) (by rw [hone]; exact hoff)
    rw [hone] at hrest
    rw [lzdFeedAll, List.foldl_cons, hone]
    refine hrest.trans ?_
    simp [Lzd.feedAll]

/-- Where nothing is emitted no channel changes, whatever the routes are. -/
theorem lzdFeedAll_out_of_nil {xs : List Byte} {s : State} (h : (s.lzd.feedAll xs).2 = []) : (lzdFeedAll xs s).out = s.out := by
  induction xs generalizing s with
  | nil => rfl
  | cons x xs ih =>
    obtain ⟨hfirst, hrest⟩ := List.append_eq_nil_iff.1 h
    have hone : respond 0#64 (lzdFeed x s) = respond 0#64 (s.setLzd (s.lzd.feedResult x).1) := by
      rw [lzdFeed_eq, hfirst, lzdEmit_nil]
    rw [lzdFeedAll, List.foldl_cons, hone]
    exact ih (s := respond 0#64 (s.setLzd (s.lzd.feedResult x).1)) hrest

/-- Bytes that pack a stream: LZD emits what the stream decodes to, is DONE after the last of them and ACTIVE before it. -/
theorem Lzd.Decodes.feedAll {d : Lzd} {cs : Byte} {ws : List (Nat × Nat)} {e xs : List Byte} (h : (d.begun cs).Decodes ws e)
    (hlo : 2 ≤ cs.toNat) (hhi : cs.toNat ≤ 8) (hlen : xs.length = (streamBits ws + 7) / 8)
    (hvalue : bytesValue xs = streamValue ws) :
    ((d.begun cs).feedAll xs).1.st.phase = .done ∧ ((d.begun cs).feedAll xs).2 = e ∧
      ∀ n < xs.length, ((d.begun cs).feedAll (xs.take n)).1.st.phase = .active := by
  have htable := begun_tableOk d hlo hhi
  have hlt : (d.begun cs).nbits.toNat < (d.begun cs).w.toNat := lt_of_lt_of_le (Nat.succ_pos _) htable.w_lo
  have hread (ys zs : List Byte) (hsplit : ys ++ zs = xs) : (d.begun cs).Reading ws (bytesValue (ys ++ zs)) e :=
    ⟨h, htable, by simp [Lzd.begun], by simp [Lzd.begun, hsplit, hvalue]⟩
  have hzero : (d.begun cs).nbits.toNat = 0 := rfl
  obtain ⟨hall, -⟩ := (hread xs [] (List.append_nil _)).feedAll hlt
  obtain ⟨hdone, he⟩ := hall (by omega)
  refine ⟨hdone, he, fun n hn => ?_⟩
  obtain ⟨-, hpart⟩ := (hread (xs.take n) (xs.drop n) (List.take_append_drop _ _)).feedAll hlt
  rw [List.length_take] at hpart
  exact hpart (by omega)

/-! ## What the encoder packs (R196, R203) -/

/-- From `s` on, LZE writes the codes `ws`, each at its width, above the bits held, and pads them to a byte; it is DONE in `t`. -/
def Packs (s : State) (ws : List (Nat × Nat)) (t : State) : Prop :=
  ∃ xs : List Byte, t.out = { s.out with lzeOut := s.out.lzeOut ++ xs } ∧ t.lze.st.phase = .done ∧
    xs.length = (s.lze.nbits.toNat + streamBits ws + 7) / 8 ∧
    bytesValue xs = s.lze.acc.toNat + 2 ^ s.lze.nbits.toNat * streamValue ws

/-- `EmitCode` writes the bit accumulator and nothing else of the encoder, whatever the route is. -/
theorem CodeWritten.lze {c : Nat} {s t : State} (h : CodeWritten c s t) :
    t.lze = { s.lze with acc := t.lze.acc, nbits := t.lze.nbits } := by
  obtain ⟨xs, acc, nbits, rfl, -⟩ := h
  rw [lzeEmitted_eq, lzeEmit_lze]

theorem CodeWritten.config {c : Nat} {s t : State} (h : CodeWritten c s t) : t.config = s.config := by
  obtain ⟨xs, acc, nbits, rfl, -⟩ := h
  rw [lzeEmitted_eq, lzeEmit_config]

/-- `EmitCode` with the route off: only the bits held and `LZE_OUT` change. -/
theorem CodeWritten.of_off {c : Nat} {s t : State} (h : CodeWritten c s t) (hoff : s.config.getLsbD 2 = false) :
    ∃ (xs : List Byte) (acc : BitVec 32) (nbits : BitVec 5),
      t = { s with lze := { s.lze with acc := acc, nbits := nbits }, out := { s.out with lzeOut := s.out.lzeOut ++ xs } } ∧
      8 * xs.length + nbits.toNat = s.lze.nbits.toNat + s.lze.w.toNat ∧ nbits.toNat < 8 ∧ acc.toNat < 2 ^ nbits.toNat ∧
      bytesValue xs + 2 ^ (8 * xs.length) * acc.toNat = s.lze.acc.toNat + c * 2 ^ s.lze.nbits.toNat := by
  obtain ⟨xs, acc, nbits, rfl, hlen, hnbits, hacc, hvalue⟩ := h
  exact ⟨xs, acc, nbits, if_neg (ne_true_of_eq_false hoff), by omega, by omega, hacc, hvalue⟩

/-- A code that is written is the first of the codes packed. -/
theorem Packs.code {c : Nat} {s s1 s' t : State} {ws : List (Nat × Nat)} (h : Packs s' ws t) (hw : CodeWritten c s s1)
    (hoff : s.config.getLsbD 2 = false) (hout : s'.out = s1.out) (hacc : s'.lze.acc = s1.lze.acc)
    (hnbits : s'.lze.nbits = s1.lze.nbits) : Packs s ((c, s.lze.w.toNat) :: ws) t := by
  obtain ⟨xs, acc, nbits, rfl, hlen, -, -, hvalue⟩ := hw.of_off hoff
  obtain ⟨ys, hout', hdone, hlen', hvalue'⟩ := h
  rw [hnbits] at hlen' hvalue'
  rw [hacc] at hvalue'
  simp only [] at hlen' hvalue'
  refine ⟨xs ++ ys, by rw [hout', hout]; simp, hdone, ?_, ?_⟩
  · rw [List.length_append, streamBits]
    omega
  · have hpow : 2 ^ (8 * xs.length) * 2 ^ nbits.toNat = 2 ^ s.lze.nbits.toNat * 2 ^ s.lze.w.toNat := by
      rw [← Nat.pow_add, ← Nat.pow_add, hlen]
    calc bytesValue (xs ++ ys)
        = bytesValue xs + 2 ^ (8 * xs.length) * acc.toNat + 2 ^ (8 * xs.length) * 2 ^ nbits.toNat * streamValue ws := by
          rw [bytesValue_append, hvalue']
          ring
      _ = s.lze.acc.toNat + 2 ^ s.lze.nbits.toNat * streamValue ((c, s.lze.w.toNat) :: ws) := by
          rw [hvalue, hpow, streamValue]
          ring

/-- The end code and the partial byte (R198). -/
theorem packs_endCode {c : Nat} {s s2 s3 s4 : State} (hw : CodeWritten c s s2) (hoff : s.config.getLsbD 2 = false)
    (hnone : s2.lze.nbits = 0#5 → s3 = s2)
    (hsome : s2.lze.nbits ≠ 0#5 → s3 =
      { lzeEmitted [BitVec.ofNat 8 s2.lze.acc.toNat] s2 with lze := { s2.lze with acc := 0#32, nbits := 0#5 } })
    (hout : s4.out = s3.out) (hdone : s4.lze.st.phase = .done) : Packs s [(c, s.lze.w.toNat)] s4 := by
  obtain ⟨xs, acc, nbits, rfl, hlen, hlt, hacc, hvalue⟩ := hw.of_off hoff
  simp only [Packs, streamBits, streamValue, hout, hdone, true_and, Nat.mul_zero, Nat.add_zero]
  by_cases hz : nbits = 0#5
  · rw [hnone hz]
    subst hz
    have hacc0 : acc.toNat = 0 := Nat.lt_one_iff.1 hacc
    have hn0 : (0#5).toNat = 0 := rfl
    rw [hacc0, Nat.mul_zero] at hvalue
    exact ⟨xs, rfl, by omega, by rw [Nat.mul_comm, ← hvalue]; rfl⟩
  · have hpos := BitVec.toNat_pos_of_ne_zero hz
    have hpow : 2 ^ nbits.toNat ≤ 2 ^ 8 := Nat.pow_le_pow_right (by decide) hlt.le
    have hbyte : (BitVec.ofNat 8 acc.toNat).toNat = acc.toNat := toNat_ofNat_of_lt (by omega)
    rw [hsome hz, lzeEmitted, if_neg (ne_true_of_eq_false hoff)]
    refine ⟨xs ++ [BitVec.ofNat 8 acc.toNat], by simp, ?_, ?_⟩
    · rw [List.length_append, List.length_singleton]
      omega
    · rw [bytesValue_append, bytesValue, bytesValue, hbyte, Nat.mul_zero, Nat.add_zero, hvalue, Nat.mul_comm]

/-- The codes that `LZE_FINISH` writes (R198). -/
def Lze.lastCodes (e : Lze) : List (Nat × Nat) :=
  match e.pend with
  | none => [(e.eoi, e.w.toNat)]
  | some p => [(p.toNat, e.w.toNat),
      (e.eoi, if e.next.toNat + 1 = 2 ^ e.w.toNat ∧ e.w.toNat < 12 then e.w.toNat + 1 else e.w.toNat)]

theorem lastCodes_none {e : Lze} (hp : e.pend = none) : e.lastCodes = [(e.eoi, e.w.toNat)] := by
  rw [Lze.lastCodes, hp]

theorem lastCodes_some {e : Lze} {p : Code} (hp : e.pend = some p) : e.lastCodes = [(p.toNat, e.w.toNat),
    (e.eoi, if e.next.toNat + 1 = 2 ^ e.w.toNat ∧ e.w.toNat < 12 then e.w.toNat + 1 else e.w.toNat)] := by
  rw [Lze.lastCodes, hp]

/-! ## The encoder's run -/

/-- LZE is encoding with the route off, and the decoder `d` has read what it has written. -/
structure Encoding (d : Lzd) (s : State) : Prop where
  ok      : s.lze.Ok
  active  : s.lze.st.phase = .active
  off     : s.config.getLsbD 2 = false
  mirrors : Mirrors d s.lze

/-- The byte `b` takes the encoder from `s` to `s'` and its decoder from `d` to `d'`: of the codes to come, those that it writes are the first,
and what the decoder emits for all of them is what was pending, `b`, and what follows it. -/
structure Fed (b : Byte) (d : Lzd) (s : State) (d' : Lzd) (s' : State) : Prop where
  encoding : Encoding d' s'
  cs       : s'.lze.cs = s.lze.cs
  codes    : ∃ ws, (∀ ws' t, Packs s' ws' t → Packs s (ws ++ ws') t) ∧
    ∀ ws' x, d'.Decodes ws' (d'.pendBytes s'.lze.pend ++ x) → d.Decodes (ws ++ ws') (d.pendBytes s.lze.pend ++ b :: x)

theorem lzeFeed_config (b : Byte) (s : State) : (lzeFeed b s).config = s.config :=
  (TargetEffect.sys_config (u := some .lze) (lzeFeed_effect b s)).2

theorem eq_of_exec_lzeFeed {b : Byte} {s t : State} (h : exec (.lzeFeed b) s = .next t) : respond 0#64 (lzeFeed b s) = t :=
  Host.Outcome.next.inj h

section
variable {d : Lzd} {s : State} {b : Byte} (h : Encoding d s) (hb : b.toNat < 2 ^ s.lze.cs.toNat)
include h

/-- What holds of the encoder after any byte, where it is still ACTIVE and mirrored. -/
theorem Encoding.fed {d' : Lzd} (hactive : (lzeFeed b s).lze.st.phase = .active) (hm : Mirrors d' (lzeFeed b s).lze) :
    Encoding d' (respond 0#64 (lzeFeed b s)) :=
  ⟨lzeFeed_ok b h.ok, hactive, by rw [respond_config, lzeFeed_config]; exact h.off, hm⟩

include hb

theorem Encoding.feed_first (hp : s.lze.pend = none) : Fed b d s d (respond 0#64 (lzeFeed b s)) := by
  have hs := h.ok.stream h.active
  have hm := h.mirrors.first hs hp hb
  have heq := lzeFeed_first h.active hb hp
  refine ⟨h.fed (by rw [heq]; exact h.active) (by rw [heq]; exact hm), by rw [heq]; rfl, [], ?_, fun ws' x hx => ?_⟩
  · rw [heq]
    exact fun _ _ hpack => hpack
  · rw [heq] at hx
    change d.Decodes ws' (d.pendBytes (some (b.setWidth 12)) ++ x) at hx
    rw [pendBytes_literal (h.mirrors.literal hb)] at hx
    rw [hp]
    exact hx

theorem Encoding.feed_hit {p c : Code} (hp : s.lze.pend = some p) (hl : hashLookup s.lze.ht p b = some c) :
    Fed b d s d (respond 0#64 (lzeFeed b s)) := by
  have hs := h.ok.stream h.active
  obtain ⟨hm, hbytes⟩ := h.mirrors.hit hs hp hl
  have heq := lzeFeed_hit h.active hb hp hl
  refine ⟨h.fed (by rw [heq]; exact h.active) (by rw [heq]; exact hm), by rw [heq]; rfl, [], ?_, fun ws' x hx => ?_⟩
  · rw [heq]
    exact fun _ _ hpack => hpack
  · rw [heq] at hx
    rw [hp]
    simpa [lzeSetPend, Lzd.pendBytes, hbytes] using hx

theorem Encoding.feed_miss {p : Code} (hp : s.lze.pend = some p) (hl : hashLookup s.lze.ht p b = none)
    (hnext : s.lze.next.toNat + 1 ≠ 4096) : Fed b d s (d.afterSymbol p.toNat) (respond 0#64 (lzeFeed b s)) := by
  have hs := h.ok.stream h.active
  obtain ⟨s1, e, hw, he, hn, hwidth, hht, hexec⟩ := Encoder.lzeFeedMiss s b p h.ok h.active hb hp hl hnext
  have heq := eq_of_exec_lzeFeed hexec
  have hlze : (lzeFeed b s).lze = e := congrArg State.lze heq
  have hst : e.st = s.lze.st := by rw [he, hw.lze]
  have hcs : e.cs = s.lze.cs := by rw [he, hw.lze]
  have hpend : e.pend = some (b.setWidth 12) := congrArg Lze.pend he
  have hm := h.mirrors.miss hs hp hb hnext hcs hn hwidth hht hpend
  refine ⟨h.fed (by rw [hlze, hst]; exact h.active) (by rw [hlze]; exact hm), by rw [respond_lze, hlze, hcs],
    [(p.toNat, s.lze.w.toNat)], fun ws' t hpack => ?_, fun ws' x hx => ?_⟩
  · refine hpack.code hw h.off (by rw [heq]) ?_ ?_
    · rw [respond_lze, hlze, he]
    · rw [respond_lze, hlze, he]
  · rw [respond_lze, hlze, hpend, pendBytes_literal (hm.literal (hcs ▸ hb))] at hx
    exact h.mirrors.decodes_pend hp hx

theorem Encoding.feed_ceiling {p : Code} (hp : s.lze.pend = some p) (hl : hashLookup s.lze.ht p b = none)
    (hnext : s.lze.next.toNat + 1 = 4096) :
    Fed b d s ((d.afterSymbol p.toNat).afterSymbol (2 ^ s.lze.cs.toNat)) (respond 0#64 (lzeFeed b s)) := by
  have hhi := (h.ok.stream h.active).cs_hi
  obtain ⟨hw12, s1, s2, hw1, hw2, hexec⟩ := Encoder.lzeFeedCeiling s b p h.ok h.active hb hp hl hnext
  have hoff1 : s1.config.getLsbD 2 = false := by rw [hw1.config]; exact h.off
  have hwidth1 : s1.lze.w = s.lze.w := by rw [hw1.lze]
  have heq := eq_of_exec_lzeFeed hexec
  have hlze := congrArg State.lze heq
  rw [respond_lze] at hlze
  have hst : s2.lze.st = s.lze.st := by rw [hw2.lze, hw1.lze]
  have hcs : (lzeFeed b s).lze.cs = s.lze.cs := by rw [hlze, hw2.lze, hw1.lze]
  have hpend : (lzeFeed b s).lze.pend = some (b.setWidth 12) := by rw [hlze]
  have hpow : 2 ^ s.lze.cs.toNat ≤ 2 ^ 8 := Nat.pow_le_pow_right (by decide) hhi
  have hw : (lzeFeed b s).lze.w.toNat = s.lze.cs.toNat + 1 := by
    rw [hlze]
    exact toNat_ofNat_of_lt (by omega)
  have hn : (lzeFeed b s).lze.next.toNat = 2 ^ s.lze.cs.toNat + 1 := by
    rw [hlze]
    exact toNat_ofNat_of_lt (by omega)
  obtain ⟨hm, hdec⟩ := h.mirrors.ceiling hp hb hw12 hcs hw hn (by rw [hlze]) hpend
  refine ⟨h.fed (by rw [hlze]; exact hst ▸ h.active) hm, hcs, [(p.toNat, s.lze.w.toNat), (2 ^ s.lze.cs.toNat, s.lze.w.toNat)],
    fun ws' t hpack => ?_, fun ws' x hx => ?_⟩
  · have hcode := hpack.code hw2 hoff1 (by rw [heq]) (by rw [respond_lze, hlze]) (by rw [respond_lze, hlze])
    rw [hwidth1] at hcode
    exact hcode.code hw1 h.off rfl rfl rfl
  · rw [respond_lze, hpend, pendBytes_literal (hm.literal (hcs ▸ hb))] at hx
    exact hdec ws' _ hx

/-- Every byte of a literal, by the event it is (R192). -/
theorem Encoding.feed : ∃ d', Fed b d s d' (respond 0#64 (lzeFeed b s)) := by
  cases hp : s.lze.pend with
  | none => exact ⟨_, h.feed_first hb hp⟩
  | some p =>
    cases hl : hashLookup s.lze.ht p b with
    | some c => exact ⟨_, h.feed_hit hb hp hl⟩
    | none =>
      by_cases hnext : s.lze.next.toNat + 1 = 4096
      · exact ⟨_, h.feed_ceiling hb hp hl hnext⟩
      · exact ⟨_, h.feed_miss hb hp hl hnext⟩

end

/-! ## The end of the input (R198) -/

theorem Encoding.finish_packs {d : Lzd} {s : State} (h : Encoding d s) :
    ∃ t, exec .lzeFinish s = .next t ∧ Packs s s.lze.lastCodes t := by
  obtain ⟨-, -, hrun⟩ := Encoder.lzeFinish.2 s
  obtain ⟨s1, s2, s3, s4, hnone, hsome, hend, hs3, hs3', hs4, hexec, -⟩ := hrun h.ok h.active
  refine ⟨_, hexec h.off, ?_⟩
  have hlast {s1 : State} (hoff : s1.config.getLsbD 2 = false)
      (hend : CodeWritten (2 ^ s.lze.cs.toNat + 1) s1 s2) :
      Packs s1 [(s.lze.eoi, s1.lze.w.toNat)] { s4 with responses := s4.responses ++ [0#64] } :=
    packs_endCode hend hoff hs3 hs3' (by rw [hs4]) (by rw [hs4])
  cases hp : s.lze.pend with
  | none =>
    obtain rfl := hnone hp
    rw [lastCodes_none hp]
    exact hlast h.off hend
  | some p =>
    obtain ⟨s0, e, hw, hs1, he, hn, hwidth⟩ := hsome p hp
    have hpack := hlast (s1 := s1) (by rw [hs1, hw.config]; exact h.off) hend
    rw [lastCodes_some hp]
    have hw1 : s1.lze.w.toNat = e.w.toNat := by rw [hs1]
    rw [hw1, hwidth] at hpack
    exact hpack.code hw h.off (by rw [hs1]) (by rw [hs1, he]) (by rw [hs1, he])

theorem Encoding.finish_decodes {d : Lzd} {s : State} (h : Encoding d s) :
    d.Decodes s.lze.lastCodes (d.pendBytes s.lze.pend) := by
  have hm := h.mirrors
  cases hp : s.lze.pend with
  | none =>
    rw [lastCodes_none hp, ← hm.eoi_eq, ← hm.w]
    exact .eoi hm.active
  | some p =>
    obtain ⟨hg, -, hactive⟩ := hm.grows hp
    obtain ⟨-, hcs, -, -⟩ := hg.kept
    have heoi : s.lze.eoi = (d.afterSymbol p.toNat).eoi := by rw [← hm.eoi_eq, Lzd.eoi, Lzd.eoi, hcs]
    rw [lastCodes_some hp, ← hm.w_afterSymbol hp, heoi]
    have hdec := hm.decodes_pend hp (.eoi hactive)
    rwa [hp, List.append_nil] at hdec

/-- The rest of the input: the encoder packs codes that its decoder reads back, the pending bytes first. -/
theorem Encoding.run {d : Lzd} {s : State} (h : Encoding d s) {bs : List Byte} (hbs : ∀ b ∈ bs, b.toNat < 2 ^ s.lze.cs.toNat) :
    ∃ t ws, runCommands (bs.map Instr.lzeFeed ++ [.lzeFinish]) s = some t ∧ Packs s ws t ∧
      d.Decodes ws (d.pendBytes s.lze.pend ++ bs) := by
  induction bs generalizing d s with
  | nil =>
    obtain ⟨t, hexec, hpack⟩ := h.finish_packs
    refine ⟨t, _, (runCommands_cons hexec []).trans rfl, hpack, ?_⟩
    rw [List.append_nil]
    exact h.finish_decodes
  | cons b bs ih =>
    obtain ⟨hb, hbs⟩ := List.forall_mem_cons.1 hbs
    obtain ⟨d', hfed⟩ := h.feed hb
    obtain ⟨ws, hpacks, hdecodes⟩ := hfed.codes
    obtain ⟨t, ws', hrun, hpack, hdec⟩ := ih hfed.encoding (by rw [hfed.cs]; exact hbs)
    exact ⟨t, ws ++ ws', (runCommands_cons rfl _).trans hrun, hpacks _ _ hpack, hdecodes _ _ hdec⟩

/-! ## The start (R150, R190) -/

theorem Lze.begun_counters (e : Lze) {cs : Byte} (hhi : cs.toNat ≤ 8) : (e.begun cs).cs.toNat = cs.toNat ∧
    (e.begun cs).w.toNat = cs.toNat + 1 ∧ (e.begun cs).next.toNat = 2 ^ cs.toNat + 1 := by
  have hpow : 2 ^ cs.toNat ≤ 2 ^ 8 := Nat.pow_le_pow_right (by decide) hhi
  exact ⟨toNat_ofNat_of_lt (by omega), toNat_ofNat_of_lt (by omega), toNat_ofNat_of_lt (by simp only [endCode]; omega)⟩

theorem Lzd.begun_counters (d : Lzd) {cs : Byte} (hhi : cs.toNat ≤ 8) : (d.begun cs).cs.toNat = cs.toNat ∧
    (d.begun cs).w.toNat = cs.toNat + 1 ∧ (d.begun cs).next.toNat = 2 ^ cs.toNat + 1 := by
  have hpow : 2 ^ cs.toNat ≤ 2 ^ 8 := Nat.pow_le_pow_right (by decide) hhi
  exact ⟨toNat_ofNat_of_lt (by omega), toNat_ofNat_of_lt (by omega), toNat_ofNat_of_lt (by simp only [endCode]; omega)⟩

/-- What an encoder just started has written (R190): the clear code, if `LZE_LEADING_CLEAR` is on. -/
def leadingCodes (on : Bool) (cs : Byte) : List (Nat × Nat) := if on then [(2 ^ cs.toNat, cs.toNat + 1)] else []

/-- The encoder starts as R35 has it, whatever it was before. -/
theorem lzeBegin_legal_ok {cs : Byte} (hlo : 2 ≤ cs.toNat) (hhi : cs.toNat ≤ 8) (s : State) : (lzeBegin cs s).lze.Ok := by
  have hreset : lzeBegin cs s = lzeBegin cs (s.setLze .reset) := by
    rw [lzeBegin_legal hlo hhi, lzeBegin_legal hlo hhi]
    rfl
  rw [hreset]
  exact lzeBegin_ok cs Lze.reset_ok

/-- `s'` is an encoder that `LZE_BEGIN cs` has started from `s`, and `d'` a decoder started from `d` that has read what it has written. -/
structure Started (cs : Byte) (d : Lzd) (s : State) (d' : Lzd) (s' : State) : Prop where
  encoding : Encoding d' s'
  pend     : s'.lze.pend = none
  codeSize : s'.lze.cs.toNat = cs.toNat
  width    : s'.lze.w.toNat = cs.toNat + 1
  packs    : ∀ ws t, Packs s' ws t →
    Packs (s.setLze (s.lze.begun cs)) (leadingCodes (lzeLeadingClear s) cs ++ ws) t
  decodes  : ∀ ws x, d'.Decodes ws x → (d.begun cs).Decodes (leadingCodes (lzeLeadingClear s) cs ++ ws) x

section
variable {cs : Byte} (hlo : 2 ≤ cs.toNat) (hhi : cs.toNat ≤ 8) (d : Lzd) {s : State} (hoff : s.config.getLsbD 2 = false)
include hlo hhi hoff

theorem started_without_clear (hlead : lzeLeadingClear s = false) : Started cs d s (d.begun cs) (respond 0#64 (lzeBegin cs s)) := by
  have hok := lzeBegin_legal_ok hlo hhi s
  obtain ⟨hcs, hw, hnext⟩ := s.lze.begun_counters hhi
  obtain ⟨hcs', hw', hnext'⟩ := d.begun_counters hhi
  have heq : lzeBegin cs s = s.setLze (s.lze.begun cs) := (lzeBegin_legal hlo hhi s).trans (if_neg (by simp [hlead]))
  rw [heq] at hok ⊢
  have hm : Mirrors (d.begun cs) (s.lze.begun cs) := .of_empty rfl (begun_tableOk d hlo hhi) rfl (hcs'.trans hcs.symm)
    (hw'.trans hw.symm) (hnext'.trans hnext.symm) rfl fun p hp => by simp [Lze.begun] at hp
  refine ⟨⟨hok, rfl, hoff, hm⟩, rfl, hcs, hw, fun _ _ hpack => ?_, fun _ _ hdec => ?_⟩
  · rw [hlead]
    exact hpack
  · rw [hlead]
    exact hdec

/-- The leading clear code leaves a decoder just started as it is, but for the bits (R150, R154). -/
theorem started_with_clear (hlead : lzeLeadingClear s = true) :
    Started cs d s ((d.begun cs).afterSymbol (d.begun cs).clear) (respond 0#64 (lzeBegin cs s)) := by
  have hok := lzeBegin_legal_ok hlo hhi s
  obtain ⟨hcs, hw, hnext⟩ := s.lze.begun_counters hhi
  obtain ⟨hcs', hw', -⟩ := d.begun_counters hhi
  have hclear : (d.begun cs).clear = 2 ^ cs.toNat := by rw [Lzd.clear, clearCode, hcs']
  have hfit : 2 ^ cs.toNat < 2 ^ (s.lze.begun cs).w.toNat := Nat.pow_lt_pow_right (by decide) (by omega)
  have hcode := (begun_streamOk s.lze hlo hhi).codeWritten (s := s.setLze (s.lze.begun cs)) hfit
  have heq : lzeBegin cs s = emitCode (2 ^ cs.toNat) (s.setLze (s.lze.begun cs)) :=
    (lzeBegin_legal hlo hhi s).trans (if_pos hlead)
  rw [heq] at hok ⊢
  generalize emitCode (2 ^ cs.toNat) (s.setLze (s.lze.begun cs)) = s1 at hok hcode ⊢
  have hlze := hcode.lze
  rw [State.setLze_lze] at hlze
  obtain ⟨hm, hdec⟩ := mirrors_cleared (d := d.begun cs) (e := s1.lze) rfl (begun_tableOk d hlo hhi)
    (by rw [hlze, hcs']; exact hcs.symm) (by rw [hlze]; exact hw.trans (by rw [hcs])) (by rw [hlze]; exact hnext.trans (by rw [hcs]))
    (by rw [hlze]; rfl) (by rw [hlze]; simp [Lze.begun])
  refine ⟨⟨hok, by rw [respond_lze, hlze]; rfl, by rw [respond_config, hcode.config]; exact hoff, hm⟩,
    by rw [respond_lze, hlze]; rfl, by rw [respond_lze, hlze]; exact hcs, by rw [respond_lze, hlze]; exact hw,
    fun ws t hpack => ?_, fun ws x hrest => ?_⟩
  · rw [hlead, leadingCodes, if_pos rfl, ← hw]
    exact hpack.code hcode hoff rfl rfl rfl
  · rw [hlead, leadingCodes, if_pos rfl, ← hclear, ← hw']
    exact hdec ws x hrest

theorem started_lzeBegin : ∃ d', Started cs d s d' (respond 0#64 (lzeBegin cs s)) := by
  cases hlead : lzeLeadingClear s with
  | false => exact ⟨_, started_without_clear hlo hhi d hoff hlead⟩
  | true => exact ⟨_, started_with_clear hlo hhi d hoff hlead⟩

end

/-- What LZE packs from its start on is a number of whole bytes that make the stream's number. -/
theorem Packs.of_begun {cs : Byte} {s t : State} {ws : List (Nat × Nat)} (h : Packs (s.setLze (s.lze.begun cs)) ws t) :
    ∃ xs : List Byte, t.out = { s.out with lzeOut := s.out.lzeOut ++ xs } ∧ t.lze.st.phase = .done ∧
      xs.length = (streamBits ws + 7) / 8 ∧ bytesValue xs = streamValue ws := by
  obtain ⟨xs, hout, hdone, hlen, hvalue⟩ := h
  exact ⟨xs, hout, hdone, by simpa [Lze.begun] using hlen, by simpa [Lze.begun] using hvalue⟩

end Sys2Proof.Machine

namespace Sys2Proof.Encoder

open Machine

/-! ## The two laws -/

/-- Settles O47: the encoder packs codes that decode to its input (`Encoding.run`), and the decoder reads them from the bytes
(`Lzd.Decodes.feedAll`). -/
theorem roundTrip : Obligations.RoundTrip := by
  intro s u cs bs hlo hhi hbs hs hu
  obtain ⟨d, hstart⟩ := started_lzeBegin hlo hhi u.lzd hs
  obtain ⟨t, ws, hrun, hpack, hdec⟩ := hstart.encoding.run (bs := bs) (by rw [hstart.codeSize]; exact hbs)
  obtain ⟨xs, hout, hdone, hlen, hvalue⟩ := (hstart.packs _ _ hpack).of_begun
  rw [hstart.pend] at hdec
  obtain ⟨hlzd, hemitted, hbefore⟩ := (hstart.decodes _ _ hdec).feedAll hlo hhi hlen hvalue
  have hfeed (ys : List Byte) : runCommands (.lzdBegin cs :: ys.map Instr.lzdFeed) u =
      some (lzdFeedAll ys (respond 0#64 (u.setLzd (u.lzd.begun cs)))) := by
    rw [runCommands_lzdFeed, lzdBegin_legal hlo hhi]
  refine ⟨t, _, xs, (runCommands_cons rfl _).trans hrun, hout, hdone, hfeed xs, ?_, ?_, fun n v' hn hv' => ?_⟩
  · refine (lzdFeedAll_out xs (s := respond 0#64 (u.setLzd (u.lzd.begun cs))) hu).trans ?_
    rw [respond_lzd, State.setLzd_lzd, hemitted]
    rfl
  · rw [lzdFeedAll_lzd]
    exact hlzd
  · rw [hfeed] at hv'
    obtain rfl := Option.some.inj hv'
    rw [lzdFeedAll_lzd]
    exact hbefore n hn

/-- Settles O45: with no input the codes packed are the leading clear code, if it is on, and the end code. -/
theorem emptyInput : Obligations.EmptyInput := by
  intro s cs hlo hhi hs
  obtain ⟨d, hstart⟩ := started_lzeBegin hlo hhi s.lzd hs
  obtain ⟨t, hexec, hpack⟩ := hstart.encoding.finish_packs
  obtain ⟨xs, hout, hdone, hlen, hvalue⟩ := (hstart.packs _ _ hpack).of_begun
  have hcodes : (respond 0#64 (Machine.lzeBegin cs s)).lze.lastCodes = [(2 ^ cs.toNat + 1, cs.toNat + 1)] := by
    rw [lastCodes_none hstart.pend, hstart.width, Lze.eoi, endCode, hstart.codeSize]
  rw [hcodes] at hlen hvalue
  refine ⟨t, xs, (runCommands_cons rfl _).trans ((runCommands_cons hexec []).trans rfl), hout, hdone, fun hlead => ?_,
    fun hlead => ?_, fun u => ?_⟩
  · rw [show lzeLeadingClear s = false from hlead] at hlen hvalue
    exact ⟨hlen, hvalue⟩
  · rw [show lzeLeadingClear s = true from hlead] at hlen hvalue
    simp only [leadingCodes, if_true, List.cons_append, List.nil_append, streamBits, streamValue] at hlen hvalue
    refine ⟨?_, ?_⟩
    · rw [hlen]
      congr 1
      omega
    · rw [hvalue]
      ring
  · obtain ⟨d', hstart'⟩ := started_lzeBegin hlo hhi u.lzd hs
    have hdec := hstart'.encoding.finish_decodes
    rw [hcodes, hstart'.pend] at hdec
    obtain ⟨hlzd, hemitted, -⟩ := (hstart'.decodes _ _ hdec).feedAll hlo hhi hlen hvalue
    refine ⟨_, runCommands_lzdFeed cs xs u, ?_, ?_⟩
    · rw [lzdFeedAll_lzd, lzdBegin_legal hlo hhi]
      exact hlzd
    · rw [lzdBegin_legal hlo hhi]
      exact lzdFeedAll_out_of_nil (s := respond 0#64 (u.setLzd (u.lzd.begun cs))) hemitted

end Sys2Proof.Encoder
end

section
/-! The compositor (44_compositor.md), command by command: one lemma per case of each rule, from which the statements about one command
follow. -/

namespace Sys2Proof.Machine

/-! ## The frame (R243) -/

theorem emitFrame_eq (s : State) :
    emitFrame s = (s.setCmp (frameEmitted s.cmp)).setOut { s.out with frameOut := s.out.frameOut ++ [frameOf s.cmp] } := by
  have hcount : BitVec.ofNat 32 ((s.cmp.frameCount.toNat + 1) % 2 ^ 32) = s.cmp.frameCount + 1#32 := by bv_omega
  rw [emitFrame, hcount]
  rfl

/-! ## CMP_SCREEN (R230) -/

theorem cmpScreen_rejected {w h : BitVec 16} {s : State} (hcap : s.canvasCap.toNat < w.toNat * h.toNat) :
    cmpScreen w h s = raiseErr .cmp .canvasTooLarge 0#16 s := if_pos hcap

theorem cmpScreen_accepted {w h : BitVec 16} {s : State} (hcap : w.toNat * h.toNat ≤ s.canvasCap.toNat) :
    cmpScreen w h s = s.setCmp (s.cmp.screened w h) := if_neg (Nat.not_lt.2 hcap)

/-! ## The commands between images (R231 to R234) -/

section
variable {op : Byte} {f : Cmp → Cmp} {s : State}

theorem whenIdle_err (h : s.cmp.st.phase = .err) : whenIdle op f s = s := by
  simp only [whenIdle, h]

theorem whenIdle_protocol (h : s.cmp.st.phase = .active ∨ s.cmp.st.phase = .done) :
    whenIdle op f s = protocolErr .cmp op s := by
  rcases h with h | h <;> simp only [whenIdle, h]

theorem whenIdle_idle (h : s.cmp.st.phase = .idle) : whenIdle op f s = s.setCmp (f s.cmp) := by
  simp only [whenIdle, h]

end

theorem execCmpCtSize_illegal {t : Table} {n : BitVec 9} (h : 256 < n.toNat) (s : State) :
    exec (.cmpCtSize t n) s = .next (illegalCommand 0x41#8 s) := if_neg (Nat.not_le.2 h)

theorem execCmpCtSize_legal {t : Table} {n : BitVec 9} (h : n.toNat ≤ 256) (s : State) :
    exec (.cmpCtSize t n) s = complete (cmpCtSize t n s) := if_pos h

/-! ## CMP_IMAGE_BEGIN (R235) -/

theorem cmpImageBegin_err (l : Bool) (w h : BitVec 16) {s : State} (hp : s.cmp.st.phase = .err) :
    cmpImageBegin l w h s = s := by
  simp only [cmpImageBegin, hp]

theorem cmpImageBegin_protocol (l : Bool) (w h : BitVec 16) {s : State}
    (hp : s.cmp.st.phase = .active ∨ s.cmp.st.phase = .done) : cmpImageBegin l w h s = protocolErr .cmp 0x45#8 s := by
  rcases hp with hp | hp <;> simp only [cmpImageBegin, hp]

theorem cmpImageBegin_nonempty (l : Bool) {w h : BitVec 16} {s : State} (hp : s.cmp.st.phase = .idle)
    (ha : w.toNat * h.toNat ≠ 0) : cmpImageBegin l w h s = s.setCmp (s.cmp.imageBegun l w h) := by
  simp only [cmpImageBegin, hp]
  exact if_neg ha

theorem cmpImageBegin_empty (l : Bool) {w h : BitVec 16} {s : State} (hp : s.cmp.st.phase = .idle)
    (ha : w.toNat * h.toNat = 0) : cmpImageBegin l w h s = emitFrame (s.setCmp (s.cmp.imageBegun l w h)) := by
  simp only [cmpImageBegin, hp]
  exact if_pos ha

/-! ## CMP_PIXEL (R237 to R242) -/

theorem cmpPixel_ignored (idx : Byte) {s : State} (h : s.cmp.st.phase = .err ∨ s.cmp.st.phase = .done) :
    cmpPixel idx s = s := by
  rcases h with h | h <;> simp only [cmpPixel, h]

theorem cmpPixel_idle (idx : Byte) {s : State} (h : s.cmp.st.phase = .idle) :
    cmpPixel idx s = protocolErr .cmp 0x46#8 s := by
  simp only [cmpPixel, h]

/-- `PIX_COUNT` does not wrap below the area of the image (R42). -/
theorem pixelTaken_pixCount (idx : Byte) {c : Cmp} (h : c.pixCount.toNat < c.imageArea) :
    (c.pixelTaken idx).pixCount.toNat = c.pixCount.toNat + 1 :=
  toNat_ofNat_of_lt (by have := imageArea_lt c; omega)

theorem pixelTaken_areaFilled (idx : Byte) {c : Cmp} (h : c.pixCount.toNat < c.imageArea) :
    (c.pixelTaken idx).areaFilled = true ↔ c.pixCount.toNat + 1 = c.imageArea := by
  rw [Cmp.areaFilled, decide_eq_true_iff, pixelTaken_pixCount idx h]
  rfl

/-- A pixel that is not the last. -/
theorem cmpPixel_more (idx : Byte) {s : State} (hp : s.cmp.st.phase = .active) (h : s.cmp.pixCount.toNat < s.cmp.imageArea)
    (hmore : s.cmp.pixCount.toNat + 1 ≠ s.cmp.imageArea) : cmpPixel idx s = s.setCmp (s.cmp.pixelTaken idx) := by
  simp only [cmpPixel, hp]
  exact if_neg (mt (pixelTaken_areaFilled idx h).1 hmore)

/-- The last pixel. -/
theorem cmpPixel_last (idx : Byte) {s : State} (hp : s.cmp.st.phase = .active)
    (hlast : s.cmp.pixCount.toNat + 1 = s.cmp.imageArea) :
    cmpPixel idx s = emitFrame (s.setCmp (s.cmp.pixelTaken idx)) := by
  simp only [cmpPixel, hp]
  exact if_pos ((pixelTaken_areaFilled idx (by omega)).2 hlast)

theorem isTransparent_iff (c : Cmp) (idx : Byte) :
    c.isTransparent idx = true ↔ c.gce.transpEn = true ∧ idx = c.gce.transpIndex := by
  simp [Cmp.isTransparent]

theorem onCanvas_iff (c : Cmp) (x y : Nat) : c.onCanvas x y = true ↔ x < c.screenW.toNat ∧ y < c.screenH.toNat := by
  simp [Cmp.onCanvas]

/-- The canvas after the next pixel (R237 to R242). -/
theorem pixelTaken_canvasEntry (c : Cmp) (idx : Byte) (k : Nat) :
    (c.pixelTaken idx).canvasEntry k =
      if ¬ c.isTransparent idx = true ∧ c.onCanvas (c.pixelX c.pixCount.toNat) (c.pixelY c.pixCount.toNat) = true ∧
        k = c.pixelIndex (c.pixelX c.pixCount.toNat) (c.pixelY c.pixCount.toNat)
      then c.colourOf idx else c.canvasEntry k := by
  change Memory.read transparent (c.composited idx) k = _
  unfold Cmp.composited
  by_cases htr : c.isTransparent idx = true
  · simp [htr, Cmp.canvasEntry]
  · by_cases hon : c.onCanvas (c.pixelX c.pixCount.toNat) (c.pixelY c.pixCount.toNat) = true
    · simp [htr, hon, Memory.read_write, Cmp.canvasEntry, eq_comm]
    · simp [htr, hon, Cmp.canvasEntry]

/-- The colour of an index, with the active table written out (R240, R241, R249). -/
theorem colourOf_eq (c : Cmp) (idx : Byte) :
    c.colourOf idx = if idx.toNat < (if c.imgLct then c.lctSize else c.gctSize).toNat
      then (Memory.read black (if c.imgLct then c.lct else c.gct) idx.toNat).opaqueColour else transparent := by
  unfold Cmp.colourOf Cmp.activeTable
  cases c.imgLct <;> rfl

/-! ## CMP_IMAGE_END, CMP_FINISH (R244, R245) -/

theorem cmpImageEnd_err {s : State} (h : s.cmp.st.phase = .err) : cmpImageEnd s = s := by
  simp only [cmpImageEnd, h]

theorem cmpImageEnd_idle {s : State} (h : s.cmp.st.phase = .idle) : cmpImageEnd s = protocolErr .cmp 0x47#8 s := by
  simp only [cmpImageEnd, h]

theorem cmpImageEnd_done {s : State} (h : s.cmp.st.phase = .done) : cmpImageEnd s = setPhase .cmp .idle s := by
  simp only [cmpImageEnd, h]

theorem cmpImageEnd_strict {s : State} (h : s.cmp.st.phase = .active) (hl : cmpShortLenient s = false) :
    cmpImageEnd s = raiseErr .cmp .shortImage 0#16 s := by
  simp only [cmpImageEnd, h, hl]
  rfl

theorem cmpImageEnd_lenient {s : State} (h : s.cmp.st.phase = .active) (hl : cmpShortLenient s = true) :
    cmpImageEnd s = setPhase .cmp .idle (emitFrame s) := by
  simp only [cmpImageEnd, h, hl, if_true]

theorem cmpFinish_err {s : State} (h : s.cmp.st.phase = .err) : cmpFinish s = s := by
  simp only [cmpFinish, h]

theorem cmpFinish_protocol {s : State} (h : s.cmp.st.phase = .active ∨ s.cmp.st.phase = .done) :
    cmpFinish s = protocolErr .cmp 0x48#8 s := by
  rcases h with h | h <;> simp only [cmpFinish, h]

theorem cmpFinish_idle {s : State} (h : s.cmp.st.phase = .idle) : cmpFinish s = outFrame .finished s := by
  simp only [cmpFinish, h]

end Sys2Proof.Machine

namespace Sys2Proof.Compositor

open Machine

/-! ## The statements about one command -/

/-- Settles O48: the two cases of R230. -/
theorem cmpScreen : Obligations.CmpScreen :=
  ⟨fun _ _ => rfl, fun s w h => ⟨fun hcap => congrArg complete (cmpScreen_rejected hcap),
    fun hcap => ⟨s.cmp.screened w h, fun _ => rfl, rfl, congrArg complete (cmpScreen_accepted hcap)⟩⟩⟩

/-- Settles O49, a clause per case of the two rules. -/
theorem cmpTables : Obligations.CmpTables := by
  refine ⟨fun _ => ⟨rfl, rfl⟩, fun _ _ _ _ => ⟨rfl, rfl⟩, fun s => ⟨fun t n hn => ⟨fun hp => ?_, fun hp => ?_⟩,
    fun t i r g bl => ⟨fun hp => ?_, fun hp => ?_⟩, fun t n hn => ?_, fun n hp hn => ⟨?_, ?_⟩, fun i r g bl hp => ?_,
    fun i r g bl hp => ?_⟩⟩
  · exact (execCmpCtSize_legal hn s).trans (congrArg complete (whenIdle_err hp))
  · exact (execCmpCtSize_legal hn s).trans (congrArg complete (whenIdle_protocol hp))
  · exact congrArg complete (whenIdle_err hp)
  · exact congrArg complete (whenIdle_protocol hp)
  · exact execCmpCtSize_illegal hn s
  · exact (execCmpCtSize_legal hn s).trans (congrArg complete (whenIdle_idle hp))
  · exact (execCmpCtSize_legal hn s).trans (congrArg complete (whenIdle_idle hp))
  · exact ⟨Memory.write black s.cmp.gct i.toNat { r := r, g := g, b := bl },
      fun k => by simp only [Memory.read_write, eq_comm], congrArg complete (whenIdle_idle hp)⟩
  · exact ⟨Memory.write black s.cmp.lct i.toNat { r := r, g := g, b := bl },
      fun k => by simp only [Memory.read_write, eq_comm], congrArg complete (whenIdle_idle hp)⟩

/-- Settles O50, a clause per case of the two rules. -/
theorem cmpGceAndPosition : Obligations.CmpGceAndPosition :=
  ⟨fun _ _ _ _ _ => rfl, fun _ _ => rfl, fun _ =>
    ⟨fun _ _ _ _ _ => ⟨fun hp => congrArg complete (whenIdle_err hp), fun hp => congrArg complete (whenIdle_protocol hp)⟩,
     fun _ _ => ⟨fun hp => congrArg complete (whenIdle_err hp), fun hp => congrArg complete (whenIdle_protocol hp)⟩,
     fun _ _ _ _ _ hp => congrArg complete (whenIdle_idle hp), fun _ _ hp => congrArg complete (whenIdle_idle hp)⟩⟩

/-- Settles O51, a clause per case of the rule; the frame of an empty image is that of the canvas as it stands. -/
theorem cmpImageBegin : Obligations.CmpImageBegin :=
  ⟨fun _ _ _ => rfl, fun s l w h => ⟨fun hp => congrArg complete (cmpImageBegin_err l w h hp),
    fun hp => congrArg complete (cmpImageBegin_protocol l w h hp), fun hp => ⟨s.cmp.imageBegun l w h, rfl,
      fun ha => congrArg complete (cmpImageBegin_nonempty l hp ha),
      fun ha => congrArg complete ((cmpImageBegin_empty l hp ha).trans (emitFrame_eq _))⟩⟩⟩

/-- Settles O52, a clause per case of the rule; the canvas after the pixel is `pixelTaken_canvasEntry`. -/
theorem cmpPixel : Obligations.CmpPixel := by
  refine ⟨fun _ => rfl, fun s idx => ⟨fun hp => congrArg complete (cmpPixel_ignored idx (.inl hp)),
    fun hp => congrArg complete (cmpPixel_idle idx hp), fun hp => congrArg complete (cmpPixel_ignored idx (.inr hp)),
    fun hp h => ⟨s.cmp.pixelTaken idx, s.cmp.pixelX s.cmp.pixCount.toNat, s.cmp.pixelY s.cmp.pixCount.toNat, _,
      s.cmp.colourOf idx, rfl, rfl, rfl, colourOf_eq s.cmp idx, rfl, pixelTaken_pixCount idx h, fun k => ?_, fun hmore => ?_,
      fun hlast => ?_⟩⟩⟩
  · simp only [pixelTaken_canvasEntry, isTransparent_iff, onCanvas_iff, and_assoc]
    rfl
  · exact congrArg complete (cmpPixel_more idx hp h hmore)
  · exact congrArg complete ((cmpPixel_last idx hp hlast).trans (emitFrame_eq _))

/-- Settles O53, a clause per case of the two rules. -/
theorem cmpEnds : Obligations.CmpEnds :=
  ⟨rfl, rfl, fun s =>
    ⟨fun hp => congrArg complete (cmpImageEnd_err hp), fun hp => congrArg complete (cmpImageEnd_idle hp),
     fun hp => congrArg complete (cmpFinish_err hp), fun hp => congrArg complete (cmpFinish_protocol hp),
     fun hp => congrArg complete (cmpImageEnd_done hp), fun hp hl => congrArg complete (cmpImageEnd_strict hp hl),
     fun hp hl => congrArg complete ((cmpImageEnd_lenient hp hl).trans (congrArg (setPhase .cmp .idle) (emitFrame_eq s))),
     fun hp => congrArg complete (cmpFinish_idle hp)⟩⟩

end Sys2Proof.Compositor
end

section
/-! Whole images (R235 to R243, R249, R250). `Composited c px d`: CMP has come from `c`, where the image begins, to `d` by the pixels `px`.
Each pixel adds one to `px`, at the place its count gives it; a run over all of them ends in one frame. -/

namespace Sys2Proof.Machine

/-! ## The place of a pixel (R238) -/

/-- Pixel `k` of an image `w` wide at `(left, top)` lies at the place whose row-major number in that rectangle is `k`. -/
theorem place_iff {left top w k x y : Nat} (hw : 0 < w) :
    x = left + k % w ∧ y = top + k / w ↔
      (left ≤ x ∧ x < left + w ∧ top ≤ y) ∧ (y - top) * w + (x - left) = k := by
  constructor
  · rintro ⟨rfl, rfl⟩
    have hmod := Nat.mod_lt k hw
    refine ⟨⟨Nat.le_add_right _ _, by omega, Nat.le_add_right _ _⟩, ?_⟩
    rw [Nat.add_sub_cancel_left, Nat.add_sub_cancel_left, Nat.mul_comm, Nat.div_add_mod]
  · rintro ⟨⟨hleft, hright, htop⟩, rfl⟩
    have hx : x - left < w := by omega
    rw [Nat.mul_comm, Nat.mul_add_mod, Nat.mod_eq_of_lt hx, Nat.mul_add_div hw, Nat.div_eq_of_lt hx]
    omega

/-- Two places on the canvas with one entry are one (R37). -/
theorem pixelIndex_inj {c : Cmp} {x y x' y' : Nat} (hx : x < c.screenW.toNat) (hx' : x' < c.screenW.toNat) :
    c.pixelIndex x y = c.pixelIndex x' y' ↔ x = x' ∧ y = y' := by
  refine ⟨fun h => ?_, fun ⟨hx, hy⟩ => by rw [hx, hy]⟩
  have hW : 0 < c.screenW.toNat := by omega
  unfold Cmp.pixelIndex at h
  have hmod := congrArg (· % c.screenW.toNat) h
  have hdiv := congrArg (· / c.screenW.toNat) h
  simp only [Nat.mul_comm _ c.screenW.toNat, Nat.mul_add_mod, Nat.mod_eq_of_lt hx, Nat.mod_eq_of_lt hx',
    Nat.mul_add_div hW, Nat.div_eq_of_lt hx, Nat.div_eq_of_lt hx', Nat.add_zero] at hmod hdiv
  exact ⟨hmod, hdiv⟩

/-! ## The image, pixel by pixel -/

/-- The index after those of `px` is theirs everywhere but at its own number. -/
theorem getElem?_concat_of_ne {px : List Byte} {idx : Byte} {k : Nat} (hk : k ≠ px.length) : (px ++ [idx])[k]? = px[k]? := by
  rcases Nat.lt_or_gt_of_ne hk with hlt | hgt
  · exact List.getElem?_append_left hlt
  · rw [List.getElem?_eq_none (by simp; omega), List.getElem?_eq_none (by omega)]

theorem imagePixel_outside (c : Cmp) {left top w h x y : Nat} (px : List Byte)
    (hout : ¬ (left ≤ x ∧ x < left + w ∧ top ≤ y ∧ y < top + h)) : imagePixel c left top w h px x y = c.pixelAt x y := if_neg hout

theorem imagePixel_inside (c : Cmp) {left top w h x y : Nat} (px : List Byte)
    (hin : left ≤ x ∧ x < left + w ∧ top ≤ y ∧ y < top + h) :
    imagePixel c left top w h px x y =
      ((px[(y - top) * w + (x - left)]?.map fun idx => if c.isTransparent idx then c.pixelAt x y else c.colourOf idx).getD
        (c.pixelAt x y)) := by
  unfold imagePixel
  rw [if_pos hin]
  cases px[(y - top) * w + (x - left)]? with
  | none => rfl
  | some idx => simp [isTransparent_iff]

/-- One more index changes the image at its own place, where there was none before. -/
theorem imagePixel_concat (c : Cmp) {left top w h : Nat} {px : List Byte} (idx : Byte) (hlen : px.length < w * h) (x y : Nat) :
    imagePixel c left top w h (px ++ [idx]) x y =
      if ¬ c.isTransparent idx = true ∧ x = left + px.length % w ∧ y = top + px.length / w then c.colourOf idx
      else imagePixel c left top w h px x y := by
  have hw : 0 < w := Nat.pos_of_mul_pos_right (Nat.zero_lt_of_lt hlen)
  have hrow : px.length / w < h := (Nat.div_lt_iff_lt_mul hw).2 (by rwa [Nat.mul_comm])
  simp only [place_iff hw]
  by_cases hin : left ≤ x ∧ x < left + w ∧ top ≤ y ∧ y < top + h
  · rw [imagePixel_inside c _ hin, imagePixel_inside c _ hin]
    by_cases hk : (y - top) * w + (x - left) = px.length
    · rw [hk]
      by_cases htr : c.isTransparent idx = true <;> simp [htr, hin]
    · simp [getElem?_concat_of_ne hk, hk]
  · rw [imagePixel_outside c _ hin, imagePixel_outside c _ hin, if_neg]
    rintro ⟨-, ⟨hleft, hright, htop⟩, hk⟩
    refine hin ⟨hleft, hright, htop, ?_⟩
    rw [← hk, Nat.mul_comm, Nat.mul_add_div hw, Nat.div_eq_of_lt (by omega)] at hrow
    omega

/-- The next pixel on the canvas, by places (R237 to R242). -/
theorem pixelTaken_pixelAt (c : Cmp) (idx : Byte) {x y : Nat} (hx : x < c.screenW.toNat) (hy : y < c.screenH.toNat) :
    (c.pixelTaken idx).pixelAt x y =
      if ¬ c.isTransparent idx = true ∧ x = c.pixelX c.pixCount.toNat ∧ y = c.pixelY c.pixCount.toNat then c.colourOf idx
      else c.pixelAt x y := by
  have hplace : c.onCanvas (c.pixelX c.pixCount.toNat) (c.pixelY c.pixCount.toNat) = true ∧
      c.pixelIndex x y = c.pixelIndex (c.pixelX c.pixCount.toNat) (c.pixelY c.pixCount.toNat) ↔
      x = c.pixelX c.pixCount.toNat ∧ y = c.pixelY c.pixCount.toNat := by
    rw [onCanvas_iff]
    refine ⟨fun ⟨hon, hk⟩ => (pixelIndex_inj hx hon.1).1 hk, fun ⟨hx', hy'⟩ => ?_⟩
    rw [← hx', ← hy']
    exact ⟨⟨hx, hy⟩, rfl⟩
  simp only [← hplace]
  exact pixelTaken_canvasEntry c idx (c.pixelIndex x y)

/-! ## An image in progress -/

/-- `d` is the compositor `c`, which has just begun an image, after the pixels `px` of that image. -/
structure Composited (c : Cmp) (px : List Byte) (d : Cmp) : Prop where
  /-- only the canvas and the count have changed -/
  kept   : d = { c with canvas := d.canvas, pixCount := d.pixCount }
  count  : d.pixCount.toNat = px.length
  canvas : ∀ x y, x < c.screenW.toNat → y < c.screenH.toNat →
    d.pixelAt x y = imagePixel c c.imgLeft.toNat c.imgTop.toNat c.imgW.toNat c.imgH.toNat px x y

theorem Composited.begin {c : Cmp} (h : c.pixCount = 0#32) : Composited c [] c where
  kept := rfl
  count := by simp [h]
  canvas x y _ _ := by simp [imagePixel]

section
variable {c d : Cmp} {px : List Byte} (h : Composited c px d)
include h

theorem Composited.screenW : d.screenW = c.screenW := by rw [h.kept]
theorem Composited.screenH : d.screenH = c.screenH := by rw [h.kept]
theorem Composited.gce : d.gce = c.gce := by rw [h.kept]
theorem Composited.phase : d.st.phase = c.st.phase := by rw [h.kept]
theorem Composited.imageArea : d.imageArea = c.imageArea := by rw [h.kept]; rfl

/-- The next pixel of the image (R237). -/
theorem Composited.pixelTaken (idx : Byte)
    (hlen : px.length < c.imageArea) : Composited c (px ++ [idx]) (d.pixelTaken idx) := by
  have harea := h.imageArea
  obtain ⟨hkept, hcount, hcanvas⟩ := h
  refine ⟨?_, ?_, fun x y hx hy => ?_⟩
  · rw [Cmp.pixelTaken, hkept]
  · rw [pixelTaken_pixCount idx (by omega), hcount, List.length_append]
    rfl
  · rw [imagePixel_concat c idx hlen, ← hcanvas x y hx hy, ← hcount]
    generalize d.canvas = m, d.pixCount = n at hkept
    subst hkept
    exact pixelTaken_pixelAt { c with canvas := m, pixCount := n } idx hx hy

end

theorem runCommands_trans {is js : List Instr} {s t u : State} (h : runCommands is s = some t) (k : runCommands js t = some u) :
    runCommands (is ++ js) s = some u := by
  rw [runCommands_append, h, Option.bind_some, k]

/-- The block `s` once CMP, as `c`, has emitted its frame (R243), with the responses `rs`. -/
def State.afterFrame (s : State) (c : Cmp) (rs : List Word) : State :=
  { s with cmp := frameEmitted c, responses := rs, out := { s.out with frameOut := s.out.frameOut ++ [frameOf c] } }

/-- The rest of the image: its last pixel emits the frame (R237, R243). -/
theorem Composited.runCommands_pixels {c d : Cmp} {s : State} {px rest : List Byte} (h : Composited c px d) (hs : s.cmp = d)
    (hp : c.st.phase = .active) (hlen : (px ++ rest).length = c.imageArea) (hrest : rest ≠ []) :
    ∃ d' rs, Composited c (px ++ rest) d' ∧ runCommands (rest.map Instr.cmpPixel) s = some (s.afterFrame d' rs) := by
  induction rest generalizing px d s with
  | nil => exact absurd rfl hrest
  | cons idx rest ih =>
    subst hs
    have hphase : s.cmp.st.phase = .active := h.phase.trans hp
    have hcount := h.count
    have harea := h.imageArea
    simp only [List.length_append, List.length_cons] at hlen
    have hnext := h.pixelTaken idx (by omega)
    cases rest with
    | nil =>
      refine ⟨_, _, hnext, congrArg some (congrArg (respond 0#64) ((cmpPixel_last idx hphase ?_).trans (emitFrame_eq _)))⟩
      simp only [List.length_nil] at hlen
      omega
    | cons idx' rest =>
      simp only [List.length_cons] at hlen
      have hmore : exec (.cmpPixel idx) s = complete (s.setCmp (s.cmp.pixelTaken idx)) :=
        congrArg complete (cmpPixel_more idx hphase (by omega) (by omega))
      obtain ⟨d', rs, hd', hrun⟩ := ih (s := respond 0#64 (s.setCmp (s.cmp.pixelTaken idx))) hnext rfl
        (by simp only [List.length_append, List.length_cons, List.length_nil]; omega) (by simp)
      exact ⟨d', rs, by simpa using hd', (runCommands_cons hmore _).trans hrun⟩

/-- A whole image: it ends in one frame, whatever its area (R235, R237, R243). -/
theorem runCommands_image (l : Bool) {w h : BitVec 16} {px : List Byte} {s : State} (hp : s.cmp.st.phase = .idle)
    (hlen : px.length = w.toNat * h.toNat) :
    ∃ d rs, Composited (s.cmp.imageBegun l w h) px d ∧
      runCommands (.cmpImageBegin l w h :: px.map Instr.cmpPixel) s = some (s.afterFrame d rs) := by
  have hbegun : Composited (s.cmp.imageBegun l w h) [] (s.cmp.imageBegun l w h) := .begin rfl
  cases px with
  | nil =>
    have hrule := (cmpImageBegin_empty l hp hlen.symm).trans (emitFrame_eq _)
    exact ⟨_, _, hbegun, runCommands_cons (i := .cmpImageBegin l w h) (congrArg complete hrule) []⟩
  | cons idx px =>
    have hrule := cmpImageBegin_nonempty l hp (show w.toNat * h.toNat ≠ 0 by simp [← hlen])
    rw [runCommands_cons (i := .cmpImageBegin l w h) (congrArg complete hrule)]
    exact hbegun.runCommands_pixels rfl rfl hlen (by simp)

/-! ## The frame of an image -/

/-- Canvas entry `k` is the pixel in column `k % SCREEN_W` of row `k / SCREEN_W` (R37). -/
theorem canvasEntry_eq_pixelAt (c : Cmp) (k : Nat) :
    c.canvasEntry k = c.pixelAt (k % c.screenW.toNat) (k / c.screenW.toNat) := by
  rw [Cmp.pixelAt, Cmp.pixelIndex, Nat.div_add_mod']

theorem frameOf_eq (c : Cmp) :
    frameOf c = .frame c.screenW c.screenH c.canvasCopy (if c.gce.valid then c.gce.delay else 0#16) := rfl

/-- The frame holds the image's pixels, row by row (R80, R243). -/
theorem frameOf_composited {c d : Cmp} {px : List Byte} (h : Composited c px d) :
    frameOf d = .frame c.screenW c.screenH
      ((List.range (c.screenW.toNat * c.screenH.toNat)).map fun k =>
        imagePixel c c.imgLeft.toNat c.imgTop.toNat c.imgW.toNat c.imgH.toNat px (k % c.screenW.toNat) (k / c.screenW.toNat))
      (if c.gce.valid then c.gce.delay else 0#16) := by
  rw [frameOf, h.screenW, h.screenH, h.gce]
  congr 1
  refine List.map_congr_left fun k hk => ?_
  have hk : k < c.screenW.toNat * c.screenH.toNat := List.mem_range.1 hk
  rw [canvasEntry_eq_pixelAt, h.screenW, h.canvas _ _ (Nat.mod_lt k (Nat.pos_of_mul_pos_right (Nat.zero_lt_of_lt hk)))
    (Nat.div_lt_of_lt_mul hk)]

theorem length_canvasCopy (c : Cmp) : c.canvasCopy.length = c.screenW.toNat * c.screenH.toNat := by
  simp [Cmp.canvasCopy, Cmp.canvasSize]

theorem canvasCopy_getElem? {c : Cmp} {x y : Nat} (hx : x < c.screenW.toNat) (hy : y < c.screenH.toNat) :
    c.canvasCopy[c.pixelIndex x y]? = some (c.pixelAt x y) := by
  have hk : c.pixelIndex x y < c.canvasSize := pixelIndex_lt ((onCanvas_iff c x y).2 ⟨hx, hy⟩)
  rw [Cmp.canvasCopy, List.getElem?_map, List.getElem?_range hk]
  rfl

/-- Where an image carries its transparent index, the canvas shows through it (R239, R250). -/
theorem imagePixel_transparent {c : Cmp} {left top w h x y : Nat} {px : List Byte} (hen : c.gce.transpEn = true)
    (htr : left ≤ x ∧ x < left + w ∧ top ≤ y ∧ y < top + h → px[(y - top) * w + (x - left)]? = some c.gce.transpIndex) :
    imagePixel c left top w h px x y = c.pixelAt x y := by
  by_cases hin : left ≤ x ∧ x < left + w ∧ top ≤ y ∧ y < top + h
  · simp [imagePixel_inside c px hin, htr hin, isTransparent_iff, hen]
  · exact imagePixel_outside c px hin

/-! ## Colour-table loads -/

/-- A command that loads a colour table (R231, R232). -/
def IsTableLoad (i : Instr) : Prop := (∃ t n, i = .cmpCtSize t n) ∨ ∃ t j r g b, i = .cmpCtWrite t j r g b

/-- From `s` to `t`, CMP is in IDLE, and the canvas and the frames stay. -/
structure ScreenKept (s t : State) : Prop where
  idle    : t.cmp.st.phase = .idle
  screenW : t.cmp.screenW = s.cmp.screenW
  screenH : t.cmp.screenH = s.cmp.screenH
  canvas  : t.cmp.canvas = s.cmp.canvas
  frames  : t.out.frameOut = s.out.frameOut

theorem ScreenKept.trans {s t u : State} (h : ScreenKept s t) (k : ScreenKept t u) : ScreenKept s u :=
  ⟨k.idle, k.screenW.trans h.screenW, k.screenH.trans h.screenH, k.canvas.trans h.canvas, k.frames.trans h.frames⟩

theorem ScreenKept.pixelAt {s t : State} (h : ScreenKept s t) (x y : Nat) : t.cmp.pixelAt x y = s.cmp.pixelAt x y := by
  simp only [Cmp.pixelAt, Cmp.canvasEntry, Cmp.pixelIndex, h.screenW, h.canvas]

theorem IsTableLoad.exec {i : Instr} (hi : IsTableLoad i) {s : State} (hp : s.cmp.st.phase = .idle) :
    ∃ t, exec i s = .next t ∧ ScreenKept s t := by
  rcases hi with ⟨t, n, rfl⟩ | ⟨t, j, r, g, b, rfl⟩
  · by_cases hn : n.toNat ≤ 256
    · refine ⟨_, (execCmpCtSize_legal hn s).trans (congrArg complete (whenIdle_idle hp)), ?_⟩
      cases t <;> exact ⟨hp, rfl, rfl, rfl, rfl⟩
    · exact ⟨_, execCmpCtSize_illegal (Nat.lt_of_not_le hn) s, hp, rfl, rfl, rfl, rfl⟩
  · refine ⟨_, congrArg complete (whenIdle_idle hp), ?_⟩
    cases t <;> exact ⟨hp, rfl, rfl, rfl, rfl⟩

theorem runCommands_tableLoads {is : List Instr} (his : ∀ i ∈ is, IsTableLoad i) {s : State} (hp : s.cmp.st.phase = .idle) :
    ∃ t, runCommands is s = some t ∧ ScreenKept s t := by
  induction is generalizing s with
  | nil => exact ⟨s, rfl, hp, rfl, rfl, rfl, rfl⟩
  | cons i is ih =>
    obtain ⟨hi, his⟩ := List.forall_mem_cons.1 his
    obtain ⟨t, hexec, hst⟩ := hi.exec hp
    obtain ⟨u, hrun, htu⟩ := ih his hst.idle
    exact ⟨u, (runCommands_cons hexec is).trans hrun, hst.trans htu⟩

/-- The GCE and the position of the next image (R233, R234). -/
theorem runCommands_gce_position (d : BitVec 3) (u f : Bool) (ti : Byte) (dl left top : BitVec 16) {s : State}
    (hp : s.cmp.st.phase = .idle) :
    ∃ t, runCommands [.cmpGce d u f ti dl, .cmpImagePos left top] s = some t ∧ ScreenKept s t ∧
      t.cmp.gce = { valid := true, disposal := d, userInput := u, transpEn := f, transpIndex := ti, delay := dl } ∧
      t.cmp.imgLeft = left ∧ t.cmp.imgTop = top := by
  refine ⟨{ s with
    cmp := { s.cmp with gce := { valid := true, disposal := d, userInput := u, transpEn := f, transpIndex := ti, delay := dl },
                        imgLeft := left, imgTop := top },
    responses := s.responses ++ [0#64] ++ [0#64] }, ?_, ⟨hp, rfl, rfl, rfl, rfl⟩, rfl, rfl, rfl⟩
  rw [runCommands_cons (i := .cmpGce d u f ti dl) (congrArg complete (whenIdle_idle hp))]
  refine runCommands_cons (i := .cmpImagePos left top) (congrArg complete (whenIdle_idle ?_)) []
  exact hp

/-- Between two images: the end of the first, colour-table loads, and the second's GCE and position (R231 to R234, R244). -/
theorem runCommands_between {loads : List Instr} (hloads : ∀ i ∈ loads, IsTableLoad i) (d : BitVec 3) (u f : Bool) (ti : Byte)
    (dl left top : BitVec 16) {s : State} (hp : s.cmp.st.phase = .done) :
    ∃ t, runCommands (.cmpImageEnd :: (loads ++ [.cmpGce d u f ti dl, .cmpImagePos left top])) s = some t ∧ ScreenKept s t ∧
      t.cmp.gce = { valid := true, disposal := d, userInput := u, transpEn := f, transpIndex := ti, delay := dl } ∧
      t.cmp.imgLeft = left ∧ t.cmp.imgTop = top := by
  have hend : ScreenKept s (respond 0#64 (setPhase .cmp .idle s)) := ⟨rfl, rfl, rfl, rfl, rfl⟩
  obtain ⟨v, hrun, hv⟩ := runCommands_tableLoads hloads hend.idle
  obtain ⟨t, hrun', ht, hcmp⟩ := runCommands_gce_position d u f ti dl left top hv.idle
  refine ⟨t, ?_, (hend.trans hv).trans ht, hcmp⟩
  rw [runCommands_cons (i := .cmpImageEnd) (congrArg complete (cmpImageEnd_done hp))]
  exact runCommands_trans hrun hrun'

end Sys2Proof.Machine

namespace Sys2Proof.Compositor

open Machine

/-! ## The laws of images -/

/-- Settles O55: the pixels of the image make the canvas what the law says (`Composited`), and the frame is of that canvas. -/
theorem imageLaw : Obligations.ImageLaw := by
  intro s l w h px hp hlen
  obtain ⟨d, rs, hd, hrun⟩ := runCommands_image l hp hlen
  refine ⟨_, _, rfl, hrun, rfl, rfl, ?_, hd.canvas⟩
  exact congrArg (s.out.frameOut ++ [·]) (frameOf_composited hd)

/-- Settles O56: the canvas of the first frame is still there when the second image begins (`ScreenKept`), and it shows through the second
image wherever that is transparent or absent (`imagePixel_transparent`). -/
theorem transparencyLaw : Obligations.TransparencyLaw := by
  intro s l1 l2 u w1 h1 w2 h2 left top dl d ti px1 px2 loads hp hlen1 hlen2 hloads
  obtain ⟨c1, rs1, hc1, hrun1⟩ := runCommands_image l1 hp hlen1
  obtain ⟨t, hrun, ht, hgce, rfl, rfl⟩ := runCommands_between hloads d u true ti dl left top (s := s.afterFrame c1 rs1) rfl
  obtain ⟨c2, rs2, hc2, hrun2⟩ := runCommands_image l2 ht.idle hlen2
  have hW1 : c1.screenW = s.cmp.screenW := hc1.screenW
  have hH1 : c1.screenH = s.cmp.screenH := hc1.screenH
  have hW2 : c2.screenW = s.cmp.screenW := hc2.screenW.trans (ht.screenW.trans hW1)
  have hH2 : c2.screenH = s.cmp.screenH := hc2.screenH.trans (ht.screenH.trans hH1)
  refine ⟨t.afterFrame c2 rs2, c1.canvasCopy, c2.canvasCopy, if c1.gce.valid then c1.gce.delay else 0#16, ?_, ?_, ?_, ?_,
    fun x y hx hy htransp => ?_⟩
  · simpa using runCommands_trans hrun1 (runCommands_trans hrun hrun2)
  · have hdelay : (if c2.gce.valid then c2.gce.delay else 0#16) = dl := by
      rw [hc2.gce, show (t.cmp.imageBegun l2 w2 h2).gce = t.cmp.gce from rfl, hgce]
      rfl
    calc (t.afterFrame c2 rs2).out.frameOut = t.out.frameOut ++ [frameOf c2] := rfl
      _ = s.out.frameOut ++ [frameOf c1] ++ [frameOf c2] := congrArg (· ++ [frameOf c2]) ht.frames
      _ = _ := by rw [List.append_assoc, frameOf_eq, frameOf_eq, hW1, hH1, hW2, hH2, hdelay]; rfl
  · rw [length_canvasCopy, hW1, hH1]
  · rw [length_canvasCopy, length_canvasCopy, hW1, hH1, hW2, hH2]
  · have hshown : c2.pixelAt x y = c1.pixelAt x y := by
      rw [hc2.canvas x y (by rwa [← hc2.screenW, hW2]) (by rwa [← hc2.screenH, hH2]), imagePixel_transparent]
      · exact ht.pixelAt x y
      · exact congrArg Gce.transpEn hgce
      · exact fun hin => (htransp hin).trans (congrArg (fun g => some g.transpIndex) hgce.symm)
    have hget1 := canvasCopy_getElem? (c := c1) (x := x) (y := y) (by rwa [hW1]) (by rwa [hH1])
    have hget2 := canvasCopy_getElem? (c := c2) (x := x) (y := y) (by rwa [hW2]) (by rwa [hH2])
    rw [Cmp.pixelIndex, hW1] at hget1
    rw [Cmp.pixelIndex, hW2] at hget2
    rw [hget1, hget2, hshown]

end Sys2Proof.Compositor
end

section
/-! The disposal method (R233, R236). `s.withDisposal d rs` is the block `s` with another stored disposal method and other responses; a rule
is blind to the method if it takes that block to its own result, again but for the method stored (`DisposalBlind`). CMP's rules are, because
none reads the method, and every other unit's, because they reach CMP by CMP's rules alone (R78). -/

namespace Sys2Proof.Machine

/-! ## Blocks that differ in the disposal method -/

/-- CMP with another disposal method stored. -/
def Cmp.withDisposal (c : Cmp) (d : BitVec 3) : Cmp := { c with gce := { c.gce with disposal := d } }

/-- The block with another disposal method stored, and other responses. -/
def State.withDisposal (s : State) (d : BitVec 3) (rs : List Word) : State :=
  { s with cmp := s.cmp.withDisposal d, responses := rs }

section
variable (s : State) (d : BitVec 3) (rs : List Word)

@[simp] theorem State.withDisposal_sbu : (s.withDisposal d rs).sbu = s.sbu := rfl
@[simp] theorem State.withDisposal_sbf : (s.withDisposal d rs).sbf = s.sbf := rfl
@[simp] theorem State.withDisposal_lzd : (s.withDisposal d rs).lzd = s.lzd := rfl
@[simp] theorem State.withDisposal_cmp_st : (s.withDisposal d rs).cmp.st = s.cmp.st := rfl
@[simp] theorem lzdEodLenient_withDisposal : lzdEodLenient (s.withDisposal d rs) = lzdEodLenient s := rfl
@[simp] theorem cmpShortLenient_withDisposal : cmpShortLenient (s.withDisposal d rs) = cmpShortLenient s := rfl

end

theorem sameButDisposal_iff {s t : State} : SameButDisposal s t ↔ ∃ d rs, t = s.withDisposal d rs := by
  constructor
  · exact fun h => ⟨t.cmp.gce.disposal, t.responses, h⟩
  · rintro ⟨d, rs, rfl⟩
    rfl

/-- `f` does the same whatever disposal method is stored. -/
def DisposalBlind (f : State → State) : Prop :=
  ∀ s d rs, ∃ d', f (s.withDisposal d rs) = (f s).withDisposal d' rs

namespace DisposalBlind

variable {f g : State → State}

theorem of_commutes (h : ∀ s d rs, f (s.withDisposal d rs) = (f s).withDisposal d rs) : DisposalBlind f :=
  fun s d rs => ⟨d, h s d rs⟩

protected theorem id : DisposalBlind fun s => s := of_commutes fun _ _ _ => rfl

theorem comp (hg : DisposalBlind g) (hf : DisposalBlind f) : DisposalBlind fun s => g (f s) := by
  intro s d rs
  obtain ⟨d₁, h₁⟩ := hf s d rs
  obtain ⟨d₂, h₂⟩ := hg (f s) d₁ rs
  exact ⟨d₂, (congrArg g h₁).trans h₂⟩

theorem foldl {α : Type} {k : α → State → State} (h : ∀ a, DisposalBlind (k a)) :
    ∀ xs : List α, DisposalBlind fun s => xs.foldl (fun t a => k a t) s
  | [] => .id
  | a :: xs => (foldl h xs).comp (h a)

/-- One choice between results that differ in the disposal method. -/
theorem exists_ite {p : Prop} [Decidable p] {a b a' b' : State} {rs : List Word} (ha : ∃ d, a' = a.withDisposal d rs)
    (hb : ∃ d, b' = b.withDisposal d rs) : ∃ d, (if p then a' else b') = (if p then a else b).withDisposal d rs := by
  by_cases h : p <;> simpa only [h, if_true, if_false]

/-- A choice that does not depend on the disposal method. -/
theorem ite {p : State → Bool} (hp : ∀ s d rs, p (s.withDisposal d rs) = p s) (hf : DisposalBlind f) (hg : DisposalBlind g) :
    DisposalBlind fun s => if p s then f s else g s := by
  intro s d rs
  simp only [hp]
  exact exists_ite (hf s d rs) (hg s d rs)

/-! ## CMP -/

/-- The frame clears the GCE, the method with it (R243). -/
protected theorem emitFrame : DisposalBlind emitFrame := fun _ _ _ => ⟨0#3, rfl⟩

protected theorem emitWhenFilled : DisposalBlind emitWhenFilled :=
  ite (p := fun s => s.cmp.areaFilled) (fun _ _ _ => rfl) .emitFrame .id

protected theorem cmpScreen (w h : BitVec 16) : DisposalBlind (cmpScreen w h) := by
  intro s d rs
  exact exists_ite ⟨d, rfl⟩ ⟨0#3, rfl⟩

protected theorem whenIdle (op : Byte) {k : Cmp → Cmp} (hk : ∀ c d, ∃ d', k (c.withDisposal d) = (k c).withDisposal d') :
    DisposalBlind (whenIdle op k) := by
  intro s d rs
  unfold whenIdle
  simp only [State.withDisposal_cmp_st]
  split
  · exact ⟨d, rfl⟩
  · exact ⟨d, rfl⟩
  · exact ⟨d, rfl⟩
  · obtain ⟨d', h⟩ := hk s.cmp d
    exact ⟨d', congrArg (s.withDisposal d rs).setCmp h⟩

protected theorem cmpCtSize (t : Table) (n : BitVec 9) : DisposalBlind (cmpCtSize t n) :=
  .whenIdle _ fun _ d => ⟨d, by cases t <;> rfl⟩

protected theorem cmpCtWrite (t : Table) (i r g bl : Byte) : DisposalBlind (cmpCtWrite t i r g bl) :=
  .whenIdle _ fun _ d => ⟨d, by cases t <;> rfl⟩

/-- The new method replaces whichever was stored (R233). -/
protected theorem cmpGce (d : BitVec 3) (u f : Bool) (ti : Byte) (dl : BitVec 16) : DisposalBlind (cmpGce d u f ti dl) :=
  .whenIdle _ fun _ _ => ⟨d, rfl⟩

protected theorem cmpImagePos (left top : BitVec 16) : DisposalBlind (cmpImagePos left top) :=
  .whenIdle _ fun _ d => ⟨d, rfl⟩

protected theorem cmpImageBegin (l : Bool) (w h : BitVec 16) : DisposalBlind (cmpImageBegin l w h) := by
  intro s d rs
  unfold cmpImageBegin
  simp only [State.withDisposal_cmp_st]
  split
  · exact ⟨d, rfl⟩
  · exact ⟨d, rfl⟩
  · exact ⟨d, rfl⟩
  · exact exists_ite (DisposalBlind.emitFrame (s.setCmp (s.cmp.imageBegun l w h)) d rs) ⟨d, rfl⟩

protected theorem cmpPixel (idx : Byte) : DisposalBlind (cmpPixel idx) := by
  intro s d rs
  unfold cmpPixel
  simp only [State.withDisposal_cmp_st]
  split
  · exact ⟨d, rfl⟩
  · exact ⟨d, rfl⟩
  · exact ⟨d, rfl⟩
  · exact DisposalBlind.emitWhenFilled (s.setCmp (s.cmp.pixelTaken idx)) d rs

protected theorem cmpImageEnd : DisposalBlind cmpImageEnd := by
  intro s d rs
  unfold cmpImageEnd
  simp only [State.withDisposal_cmp_st, cmpShortLenient_withDisposal]
  split
  · exact ⟨d, rfl⟩
  · exact ⟨d, rfl⟩
  · exact exists_ite ⟨0#3, rfl⟩ ⟨d, rfl⟩
  · exact ⟨d, rfl⟩

protected theorem cmpFinish : DisposalBlind cmpFinish := by
  intro s d rs
  unfold cmpFinish
  simp only [State.withDisposal_cmp_st]
  split <;> exact ⟨d, rfl⟩

/-! ## LZD and SBU, which may forward to CMP (R78) -/

protected theorem lzdEmit (xs : List Byte) : DisposalBlind (lzdEmit xs) :=
  foldl (k := lzdOutByte) (fun x => ite (p := lzdToCmp) (fun _ _ _ => rfl) (.cmpPixel x) (.of_commutes fun _ _ _ => rfl)) xs

protected theorem lzdForwardEnd : DisposalBlind lzdForwardEnd := ite (p := lzdToCmp) (fun _ _ _ => rfl) .cmpImageEnd .id

protected theorem lzdBegin (cs : Byte) : DisposalBlind (lzdBegin cs) := by
  intro s d rs
  exact exists_ite ⟨d, rfl⟩ ⟨d, rfl⟩

protected theorem lzdFeed (b : Byte) : DisposalBlind (lzdFeed b) := by
  intro s d rs
  rw [lzdFeed_eq, lzdFeed_eq]
  exact DisposalBlind.lzdEmit _ (s.setLzd (s.lzd.feedResult b).1) d rs

protected theorem lzdFinish : DisposalBlind lzdFinish := by
  intro s d rs
  unfold lzdFinish
  simp only [State.withDisposal_lzd, lzdEodLenient_withDisposal]
  split
  · exact ⟨d, rfl⟩
  · exact ⟨d, rfl⟩
  · exact exists_ite (DisposalBlind.lzdForwardEnd (s.setLzd s.lzd.ended) d rs) ⟨d, rfl⟩
  · exact DisposalBlind.lzdForwardEnd s d rs

protected theorem sbuFeed (b : Byte) : DisposalBlind (sbuFeed b) := by
  intro s d rs
  unfold sbuFeed
  simp only [State.withDisposal_sbu]
  split
  · exact ⟨d, rfl⟩
  · exact ⟨d, rfl⟩
  · exact ⟨d, rfl⟩
  · refine exists_ite (exists_ite ?_ ⟨d, rfl⟩) ?_
    · exact ite (p := sbuToLzd) (fun _ _ _ => rfl) .lzdFinish .id (setPhase .sbu .done s) d rs
    · exact ite (p := sbuToLzd) (fun _ _ _ => rfl) (.lzdFeed b) (.of_commutes (f := outSbu b) fun _ _ _ => rfl)
        (s.setSbu { s.sbu with count := BitVec.ofNat 8 (s.sbu.count.toNat - 1) }) d rs

protected theorem sbuFinish : DisposalBlind sbuFinish := by
  intro s d rs
  unfold sbuFinish
  simp only [State.withDisposal_sbu]
  split <;> exact ⟨d, rfl⟩

/-! ## SBF and LZE, which never reach CMP -/

protected theorem sbfPut (b : Byte) : DisposalBlind (sbfPut b) := by
  intro s d rs
  unfold sbfPut
  simp only [State.withDisposal_sbf]
  split
  · exact ⟨d, rfl⟩
  · exact ⟨d, rfl⟩
  · exact ⟨d, rfl⟩
  · exact exists_ite ⟨d, rfl⟩ ⟨d, rfl⟩

protected theorem sbfEnd : DisposalBlind sbfEnd := by
  intro s d rs
  unfold sbfEnd
  simp only [State.withDisposal_sbf]
  split <;> exact ⟨d, rfl⟩

protected theorem lzeEmit (xs : List Byte) : DisposalBlind (lzeEmit xs) :=
  foldl (k := lzeOutByte) (fun x => ite (p := lzeToSbf) (fun _ _ _ => rfl) (.sbfPut x) (.of_commutes fun _ _ _ => rfl)) xs

protected theorem forwardTrailer (i : Instr) (e : Lze) : DisposalBlind (forwardAll (lzeTrailer i e)) := by
  unfold lzeTrailer
  split
  · exact .sbfEnd
  · exact .id

/-- What an LZE command emits and forwards is fixed by the encoder and `LZE_LEADING_CLEAR` (`ruleEmitsFrom_of_target`). -/
theorem of_target_lze {i : Instr} (hi : targetOf i = some .lze) : DisposalBlind (unitRule · i) := by
  intro s d rs
  obtain ⟨e, xs, hrule⟩ := ruleEmitsFrom_of_target hi s.lze (lzeLeadingClear s)
  have hforward : DisposalBlind fun t => forwardAll (if lzeToSbf s then lzeTrailer i s.lze else []) t := by
    cases lzeToSbf s with
    | true => exact .forwardTrailer i s.lze
    | false => exact .id
  obtain ⟨d', h⟩ := hforward.comp (.lzeEmit xs) (s.setLze e) d rs
  have halike := congrArg (·.withDisposal d' rs) (hrule s rfl rfl)
  exact ⟨d', (hrule (s.withDisposal d rs) rfl rfl).trans (h.trans halike.symm)⟩

end DisposalBlind

/-! ## Every command -/

theorem unitRule_disposalBlind : ∀ i : Instr, DisposalBlind (unitRule · i)
  | .nop | .reset | .cfg _ | .rdReg _ | .rdCanvas _ _ | .rdCt _ _ => .id
  | .sbuBegin | .sbfBegin => .of_commutes fun _ _ _ => rfl
  | .sbuFeed b => .sbuFeed b
  | .sbuFinish => .sbuFinish
  | .sbfPut b => .sbfPut b
  | .sbfEnd => .sbfEnd
  | .lzdBegin cs => .lzdBegin cs
  | .lzdFeed b => .lzdFeed b
  | .lzdFinish => .lzdFinish
  | .lzeBegin _ | .lzeFeed _ | .lzeFinish => .of_target_lze rfl
  | .cmpScreen w h => .cmpScreen w h
  | .cmpCtSize t n => .cmpCtSize t n
  | .cmpCtWrite t i r g bl => .cmpCtWrite t i r g bl
  | .cmpGce d u f ti dl => .cmpGce d u f ti dl
  | .cmpImagePos left top => .cmpImagePos left top
  | .cmpImageBegin l w h => .cmpImageBegin l w h
  | .cmpPixel idx => .cmpPixel idx
  | .cmpImageEnd => .cmpImageEnd
  | .cmpFinish => .cmpFinish

/-- No unit's rule responds (R280). -/
theorem TargetEffect.responses {s t : State} : ∀ {u : Option UnitId}, TargetEffect u s t → t.responses = s.responses
  | none, h => congrArg State.responses h
  | some .sbu, ⟨_, _, _, _, _, _, h⟩ => h ▸ rfl
  | some .sbf, ⟨_, _, h⟩ => h ▸ rfl
  | some .lzd, ⟨_, _, _, _, h⟩ => h ▸ rfl
  | some .lze, ⟨_, _, _, _, h⟩ => h ▸ rfl
  | some .cmp, ⟨_, _, h⟩ => h ▸ rfl

/-- `CMP_GCE` is the only register that shows the method (R39, R45). -/
theorem regWord_withDisposal {r : Reg} (hr : r ≠ .cmpGce) (s : State) (d : BitVec 3) (rs : List Word) :
    regWord r (s.withDisposal d rs) = regWord r s := by
  cases r with
  | cmpGce => exact absurd rfl hr
  | _ => rfl

/-- The command `i` completes in `s` and in that block with another disposal method, with blocks that differ in it again, and with one
response, unless it reads the register that shows the method. -/
def CompletesAlike (i : Instr) (s : State) (d : BitVec 3) (rs : List Word) : Prop :=
  ∃ t v v' d', t.responses = s.responses ∧ exec i s = .next (respond v t) ∧
    exec i (s.withDisposal d rs) = .next (respond v' (t.withDisposal d' rs)) ∧ (i ≠ .rdReg .cmpGce → v' = v)

theorem completesAlike_of_target {i : Instr} {u : UnitId} (hu : targetOf i = some u) (hw : i.wellFormed = true) (s : State)
    (d : BitVec 3) (rs : List Word) : CompletesAlike i s d rs := by
  obtain ⟨d', h⟩ := unitRule_disposalBlind i s d rs
  exact ⟨unitRule s i, 0#64, 0#64, d', (unitRule_effect s i).responses, exec_of_target hu hw s,
    (exec_of_target hu hw _).trans (congrArg complete h), fun _ => rfl⟩

theorem completesAlike_of_illegal {i : Instr} {op : Byte} {s : State} {d : BitVec 3} {rs : List Word}
    (h : exec i s = .next (illegalCommand op s))
    (h' : exec i (s.withDisposal d rs) = .next (illegalCommand op (s.withDisposal d rs))) : CompletesAlike i s d rs :=
  ⟨s.setSys { illegal := true, illOp := if s.sys.illegal then s.sys.illOp else op }, 0#64, 0#64, d, rfl, h, h', fun _ => rfl⟩

theorem completesAlike (s : State) (d : BitVec 3) (rs : List Word) : ∀ i : Instr, CompletesAlike i s d rs
  | .nop => ⟨s, 0#64, 0#64, d, rfl, rfl, rfl, fun _ => rfl⟩
  | .reset => ⟨resetBlock s, 0#64, 0#64, 0#3, rfl, rfl, rfl, fun _ => rfl⟩
  | .cfg c => ⟨s.setConfig c, 0#64, 0#64, d, rfl, rfl, rfl, fun _ => rfl⟩
  | .rdReg r => ⟨s, regWord r s, regWord r (s.withDisposal d rs), d, rfl, rfl, rfl,
      fun hi => regWord_withDisposal (fun hr => hi (congrArg Instr.rdReg hr)) s d rs⟩
  | .rdCt t j => ⟨s, (s.cmp.tableEntry t j).toWord, _, d, rfl, rfl, rfl, fun _ => rfl⟩
  | .rdCanvas x y => by
    by_cases h : s.cmp.onCanvas x.toNat y.toNat = true
    · exact ⟨s, (s.cmp.pixelAt x.toNat y.toNat).toWord, _, d, rfl, if_pos h, if_pos h, fun _ => rfl⟩
    · exact completesAlike_of_illegal (op := 0x04#8) (if_neg h) (if_neg h)
  | .cmpCtSize t n => by
    by_cases h : n.toNat ≤ 256
    · exact completesAlike_of_target (i := .cmpCtSize t n) rfl (decide_eq_true h) s d rs
    · have hbig := Nat.lt_of_not_le h
      exact completesAlike_of_illegal (execCmpCtSize_illegal hbig s) (execCmpCtSize_illegal hbig _)
  | .sbuBegin | .sbuFeed _ | .sbuFinish | .sbfBegin | .sbfPut _ | .sbfEnd
  | .lzdBegin _ | .lzdFeed _ | .lzdFinish | .lzeBegin _ | .lzeFeed _ | .lzeFinish
  | .cmpScreen _ _ | .cmpCtWrite _ _ _ _ _ | .cmpGce _ _ _ _ _ | .cmpImagePos _ _ | .cmpImageBegin _ _ _
  | .cmpPixel _ | .cmpImageEnd | .cmpFinish => completesAlike_of_target rfl rfl s d rs

end Sys2Proof.Machine

namespace Sys2Proof.Compositor

open Machine

/-- Settles O54: related blocks are one block with two disposal methods (`sameButDisposal_iff`), in which every command completes alike. -/
theorem disposalHasNoEffect : Obligations.DisposalHasNoEffect := by
  intro i s s' h
  obtain ⟨d, rs, rfl⟩ := sameButDisposal_iff.1 h
  obtain ⟨t, v, v', d', hresponses, hexec, hexec', hv⟩ := completesAlike s d rs i
  refine ⟨_, _, hexec, hexec', sameButDisposal_iff.2 ⟨d', rs ++ [v'], rfl⟩, fun hi => ⟨v, ?_, ?_⟩⟩
  · rw [respond_responses, hresponses]
  · rw [respond_responses, hv hi]
    rfl

end Sys2Proof.Compositor
end

section
/-! The system commands and the read-back (45_system.md). What each command makes of the block is `exec_result`; here are the words of the
reads as the numbers that their layout rules make of the state (`toNat_regWord`), the values `RESET` leaves, and what no command changes. -/

namespace Sys2Proof.Machine

/-! ## The words of the reads, as numbers -/

/-- Fields side by side, as a number: the upper one counts from the lower one's width up. -/
theorem toNat_append_eq_add {m n : Nat} (a : BitVec m) (b : BitVec n) : (a ++ b).toNat = 2 ^ n * a.toNat + b.toNat := by
  rw [BitVec.toNat_append, ← Nat.shiftLeft_add_eq_or_of_lt b.isLt, Nat.shiftLeft_eq, Nat.mul_comm]

theorem toNat_phaseBits (p : Phase) : p.bits.toNat = phaseNumber p := by
  cases p <;> rfl

theorem toNat_errCodeBits (c : ErrCode) : c.bits.toNat = errorNumber c := by
  cases c <;> rfl

theorem toNat_statusWord (u : UnitId) (s : State) :
    (statusWord u s).toNat = statusNumber (s.status u) (statusFlag s u) := by
  simp only [statusWord, statusNumber, toNat_append_eq_add, toNat_phaseBits, toNat_errCodeBits, BitVec.toNat_ofBool,
    BitVec.toNat_ofNat]
  omega

theorem unitErr_eq_inErr (u : UnitId) (s : State) : unitErr u s = inErr (s.status u) := rfl

theorem toNat_sysStatusWord (s : State) : (sysStatusWord s).toNat = sysStatusNumber s := by
  simp only [sysStatusWord, sysStatusNumber, anyErr, unitErr_eq_inErr, status_sbu, status_sbf, status_lzd, status_lze, status_cmp,
    toNat_append_eq_add, BitVec.toNat_ofBool, BitVec.toNat_ofNat]
  omega

theorem toNat_codeWord (c : Option Code) : (codeWord c).toNat = codeNumber c := by
  cases c with
  | none => rfl
  | some c => exact toNat_append_eq_add (0#51 ++ 1#1) c

theorem toNat_bitsWord (acc : BitVec 32) (nbits : BitVec 5) :
    (bitsWord acc nbits).toNat = nbits.toNat + 2 ^ 32 * acc.toNat := by
  simp only [bitsWord, toNat_append_eq_add, BitVec.toNat_ofNat]
  omega

theorem toNat_gceWord (g : Gce) : (gceWord g).toNat = gceNumber g := by
  simp only [gceWord, gceNumber, toNat_append_eq_add, BitVec.toNat_ofBool, BitVec.toNat_ofNat]
  omega

/-- Every register reads as the number its layout rule makes of the state (R45). -/
theorem toNat_regWord (s : State) (r : Reg) : (regWord r s).toNat = registerNumber s r := by
  cases r with
  | sysStatus => exact toNat_sysStatusWord s
  | sbuStatus | sbfStatus | lzdStatus | lzeStatus | cmpStatus => exact toNat_statusWord _ s
  | lzdPrev | lzePending => exact toNat_codeWord _
  | lzdBits | lzeBits => exact toNat_bitsWord _ _
  | cmpGce => exact toNat_gceWord _
  | cmpScreen | cmpImgPos | cmpImgSize =>
    simp only [regWord, registerNumber, toNat_append_eq_add, BitVec.toNat_ofBool, BitVec.toNat_ofNat]
    omega
  | config | canvasCap | sbuCount | sbfFill | lzdCs | lzdWidth | lzdNext | lzeCs | lzeWidth | lzeNext | cmpGctSize | cmpLctSize
  | cmpPixCount | cmpFrameCount => exact BitVec.toNat_setWidth_of_le (by decide)

theorem toNat_rgbaWord (c : Rgba) :
    c.toWord.toNat = c.r.toNat * 2 ^ 24 + c.g.toNat * 2 ^ 16 + c.b.toNat * 2 ^ 8 + c.a.toNat := by
  simp only [Rgba.toWord, toNat_append_eq_add, BitVec.toNat_ofNat]
  omega

theorem toNat_rgbWord (c : Rgb) : c.toWord.toNat = c.r.toNat * 2 ^ 16 + c.g.toNat * 2 ^ 8 + c.b.toNat := by
  simp only [Rgb.toWord, toNat_append_eq_add, BitVec.toNat_ofNat]
  omega

/-! ## The reads -/

/-- A read that is answered with the word `v` is answered with the number of `v`, and changes nothing else (R79, R280). -/
theorem exec_eq_of_toNat {i : Instr} {s : State} {v : Word} {n : Nat} (he : exec i s = .next (respond v s)) (hn : v.toNat = n) :
    exec i s = .next { s with responses := s.responses ++ [BitVec.ofNat 64 n] } := by
  rw [he, ← hn, BitVec.ofNat_toNat, BitVec.setWidth_eq]
  rfl

theorem encode_rdReg (r : Reg) : encode (.rdReg r) = 0x03#8 ++ (0#48 ++ r.number) := rfl

/-- Settles O12: the word has the register's number, and the answer is the number of its word (`toNat_regWord`). -/
theorem rdRegReads : Obligations.RdRegReads := by
  unfold Obligations.RdRegReads
  simp only [encode_rdReg, Reg.number, true_and]
  exact fun s r => ⟨exec_eq_of_toNat rfl (toNat_regWord s r), toNat_regWord s r ▸ (regWord r s).isLt⟩

/-- Settles O13: `RD_CANVAS` tests that the pixel is on the canvas (`onCanvas_iff`). -/
theorem rdCanvasReads : Obligations.RdCanvasReads := by
  refine ⟨fun _ _ => rfl, fun s x y => ⟨fun hon => ?_, fun hoff => ?_⟩⟩
  · exact exec_eq_of_toNat (if_pos ((onCanvas_iff _ _ _).2 hon)) (toNat_rgbaWord _)
  · have hoff' : ¬ (x.toNat < s.cmp.screenW.toNat ∧ y.toNat < s.cmp.screenH.toNat) := by omega
    exact if_neg (mt (onCanvas_iff _ _ _).1 hoff')

/-- Settles O14: the entry is read whatever the table's size. -/
theorem rdCtReads : Obligations.RdCtReads :=
  ⟨fun _ => ⟨rfl, rfl⟩, fun _ _ => ⟨exec_eq_of_toNat rfl (toNat_rgbWord _), exec_eq_of_toNat rfl (toNat_rgbWord _)⟩⟩

/-! ## NOP and CFG -/

/-- The word of `NOP` is the only one with opcode 0x00 that spells a command (R281). -/
theorem eq_encode_nop_of_decode {w : Word} {i : Instr} (hop : opcodeOf w = 0x00#8) (h : decode w = .ok i) : w = encode .nop := by
  have hread := h
  rw [decode_of_opcode (i := .nop) hop] at hread
  obtain ⟨-, hnop⟩ := guarded_eq_ok.1 hread
  obtain rfl : Instr.nop = i := Except.ok.inj hnop
  exact (encodeDecode w .nop h).2.symm

/-- Settles O10: a second word with `NOP`'s opcode would be `NOP`'s own (`eq_encode_nop_of_decode`). -/
theorem nopDoesNothing : Obligations.NopDoesNothing :=
  ⟨rfl, fun _ hop hne _ h => hne (eq_encode_nop_of_decode hop h), fun _ => rfl⟩

/-- Settles O11: `CFG` is one update of `CONFIG` and the response. -/
theorem cfgWritesConfig : Obligations.CfgWritesConfig := ⟨fun _ => rfl, fun _ _ => rfl⟩

/-! ## RESET (R341 to R343) -/

section
variable (s : State)

@[simp] theorem resetBlock_responses : (resetBlock s).responses = s.responses := rfl
@[simp] theorem resetBlock_sys : (resetBlock s).sys = Sys.reset := rfl
@[simp] theorem resetBlock_config : (resetBlock s).config = 0#6 := rfl
@[simp] theorem resetBlock_canvasCap : (resetBlock s).canvasCap = s.canvasCap := rfl
@[simp] theorem resetBlock_sbu : (resetBlock s).sbu = Sbu.reset := rfl
@[simp] theorem resetBlock_sbf : (resetBlock s).sbf = { Sbf.reset with buf := s.sbf.buf } := rfl
@[simp] theorem resetBlock_lzd : (resetBlock s).lzd = { Lzd.reset with pfx := s.lzd.pfx, sfx := s.lzd.sfx } := rfl
@[simp] theorem resetBlock_lze : (resetBlock s).lze = Lze.reset := rfl
@[simp] theorem resetBlock_cmp : (resetBlock s).cmp = Cmp.reset := rfl
@[simp] theorem resetBlock_out : (resetBlock s).out = s.out := rfl

end

theorem hashLookup_nil (p : Code) (x : Byte) : hashLookup [] p x = none := rfl

theorem tableEntry_of_tables_nil {c : Cmp} (hg : c.gct = []) (hl : c.lct = []) (t : Table) (i : Byte) : c.tableEntry t i = black := by
  have hnil : c.table t = [] := by cases t <;> assumption
  rw [Cmp.tableEntry, hnil, Memory.read_nil]

/-- Settles O8: `resetBlock`, field by field. -/
theorem resetCommand : Obligations.ResetCommand := by
  refine ⟨rfl, fun s => ⟨respond 0#64 (resetBlock s), rfl, ?_⟩⟩
  simp [Sys.reset, Sbu.reset, Sbf.reset, Lzd.reset, Lze.reset, Cmp.reset, UnitStatus.reset, Gce.cleared, black, hashLookup_nil,
    tableEntry_of_tables_nil]

/-! ## Every command -/

/-- No unit's rule touches the port or `CANVAS_CAP` (R26, R76). -/
theorem TargetEffect.port_canvasCap {s t : State} : ∀ {u : Option UnitId}, TargetEffect u s t →
    t.port = s.port ∧ t.canvasCap = s.canvasCap
  | none, h => h ▸ ⟨rfl, rfl⟩
  | some .sbu, ⟨_, _, _, _, _, _, h⟩ => h ▸ ⟨rfl, rfl⟩
  | some .sbf, ⟨_, _, h⟩ => h ▸ ⟨rfl, rfl⟩
  | some .lzd, ⟨_, _, _, _, h⟩ => h ▸ ⟨rfl, rfl⟩
  | some .lze, ⟨_, _, _, _, h⟩ => h ▸ ⟨rfl, rfl⟩
  | some .cmp, ⟨_, _, h⟩ => h ▸ ⟨rfl, rfl⟩

/-- Settles O15, by the kinds of command: only the reads answer another word than 0. -/
theorem everyCommandResponds : Obligations.EveryCommandResponds := by
  intro i s
  obtain ⟨t, ht, hresult⟩ := exec_result s i
  cases hresult with
  | unit _ _ =>
    have heffect := unitRule_effect s i
    obtain ⟨hport, hcap⟩ := heffect.port_canvasCap
    exact ⟨_, 0#64, ht, congrArg (· ++ [0#64]) heffect.responses, fun _ => rfl, hport, hcap⟩
  | answered v hi =>
    rcases hi with rfl | hread
    · exact ⟨respond 0#64 s, 0#64, rfl, rfl, fun _ => rfl, rfl, rfl⟩
    · exact ⟨_, v, ht, rfl, fun hno => absurd hread (by simp [hno]), rfl, rfl⟩
  | reset | cfg _ | offCanvas _ | badTableSize _ => exact ⟨_, 0#64, ht, rfl, fun _ => rfl, rfl, rfl⟩

end Sys2Proof.Machine
end

section
/-! Errors (60_exceptions.md): illegal commands (R302), the phase checks (R301, R307), how long an error stays (R304 to R306), and that no
unit depends on the units it forwards to (R308). The sections on the units say what each rule does in each phase; here the phases that
refuse or ignore a command are put together for all commands. -/

namespace Sys2Proof.Machine

/-! ## Illegal words (R302) -/

/-- A word with the opcode of `RD_CANVAS` that decodes spells a `RD_CANVAS` of its own two fields (R91, R94). -/
theorem eq_rdCanvas_of_decode {w : Word} {i : Instr} (hop : opcodeOf w = 0x04#8) (h : decode w = .ok i) :
    i = .rdCanvas (field w 16 16) (field w 0 16) := by
  rw [decode_of_opcode (i := .rdCanvas 0#16 0#16) hop] at h
  obtain ⟨-, hread⟩ := guarded_eq_ok.1 h
  exact (Except.ok.inj hread).symm

/-- A word that decodes and breaks the constraint of `RD_CANVAS` runs as an illegal command (R285). -/
theorem exec_of_not_canvasConstraint {w : Word} {i : Instr} {s : State} (h : decode w = .ok i)
    (hoff : ¬ canvasConstraint s w) : exec i s = .next (afterIllegal (opcodeOf w) s) := by
  obtain ⟨hnum, hpixel⟩ := Classical.not_imp.1 hoff
  have hop : opcodeOf w = 0x04#8 := BitVec.eq_of_toNat_eq (by
    rw [opcodeOf, toNat_field, hnum]
    rfl)
  obtain rfl := eq_rdCanvas_of_decode hop h
  rw [hop]
  refine (rdCanvasReads.2 s _ _).2 ?_
  rw [toNat_field, toNat_field, Nat.pow_zero, Nat.div_one]
  omega

theorem step_of_decode_error {s : State} {w : Word} {ws : List Word} {e : Illegal} (hport : s.port = w :: ws)
    (h : decode w = .error e) : step s = .next (afterIllegal (opcodeOf w) { s with port := ws }) := by
  simp only [step, takeCommand_cons hport, h]
  rfl

/-- Settles O6: a word that does not decode is illegal whatever the state; one that decodes is in R94 (`decodeMatchesTable`), so it breaks
the constraint of `RD_CANVAS`. -/
theorem stepOnIllegalWord : Obligations.StepOnIllegalWord := by
  intro s w ws hport hillegal
  cases hdecode : decode w with
  | error e => exact step_of_decode_error hport hdecode
  | ok i =>
    obtain ⟨hrow, hword⟩ := (decodeMatchesTable w).1 ⟨i, hdecode⟩
    have hoff : ¬ canvasConstraint s w := fun hcanvas => hillegal ⟨hrow, hword, hcanvas⟩
    rw [stepRunsCommand s w ws i hport hdecode]
    exact exec_of_not_canvasConstraint (s := { s with port := ws }) hdecode hoff

/-! ## The phase checks (R301, R307) -/

theorem Phase.idle_or_done_of_ne_active : ∀ {p : Phase}, p ≠ .err → decide (p = .active) = false → p = .idle ∨ p = .done
  | .idle, _, _ => .inl rfl
  | .active, _, h => absurd h (by decide)
  | .done, _, _ => .inr rfl
  | .err, h, _ => absurd rfl h

theorem Phase.idle_of_not_running : ∀ {p : Phase}, p ≠ .err → decide (p = .active ∨ p = .done) = false → p = .idle
  | .idle, _, _ => rfl
  | .active, _, h | .done, _, h => absurd h (by decide)
  | .err, h, _ => absurd rfl h

theorem Phase.active_or_done_of_ne_idle : ∀ {p : Phase}, p ≠ .err → decide (p = .idle) = false → p = .active ∨ p = .done
  | .idle, _, h => absurd h (by decide)
  | .active, _, _ => .inl rfl
  | .done, _, _ => .inr rfl
  | .err, h, _ => absurd rfl h

/-- In a phase that does not accept it, the rule of a command is to raise `PROTOCOL` with its opcode. -/
theorem unitRule_protocol {s : State} : ∀ {i : Instr} {u : UnitId}, targetOf i = some u → (s.status u).phase ≠ .err →
    accepts i (s.status u).phase = false → unitRule s i = protocolErr u i.opcode s
  | .sbuFeed b, _, rfl, herr, hno => sbuFeed_protocol b (Phase.idle_or_done_of_ne_active herr hno)
  | .sbuFinish, _, rfl, herr, hno => sbuFinish_idle (Phase.idle_of_not_running herr hno)
  | .sbfPut b, _, rfl, herr, hno => sbfPut_protocol b (Phase.idle_or_done_of_ne_active herr hno)
  | .sbfEnd, _, rfl, herr, hno => sbfEnd_protocol (Phase.idle_or_done_of_ne_active herr hno)
  | .lzdFeed b, _, rfl, herr, hno => lzdFeed_idle b (Phase.idle_of_not_running herr hno)
  | .lzdFinish, _, rfl, herr, hno => lzdFinish_idle (Phase.idle_of_not_running herr hno)
  | .lzeFeed b, _, rfl, herr, hno => lzeFeed_protocol b (Phase.idle_or_done_of_ne_active herr hno)
  | .lzeFinish, _, rfl, herr, hno => lzeFinish_protocol (Phase.idle_or_done_of_ne_active herr hno)
  | .cmpCtSize _ _, _, rfl, herr, hno | .cmpCtWrite _ _ _ _ _, _, rfl, herr, hno | .cmpGce _ _ _ _ _, _, rfl, herr, hno
  | .cmpImagePos _ _, _, rfl, herr, hno => by
    rw [unitRule]
    exact whenIdle_protocol (Phase.active_or_done_of_ne_idle herr hno)
  | .cmpImageBegin l w h, _, rfl, herr, hno => cmpImageBegin_protocol l w h (Phase.active_or_done_of_ne_idle herr hno)
  | .cmpPixel idx, _, rfl, herr, hno => cmpPixel_idle idx (Phase.idle_of_not_running herr hno)
  | .cmpImageEnd, _, rfl, herr, hno => cmpImageEnd_idle (Phase.idle_of_not_running herr hno)
  | .cmpFinish, _, rfl, herr, hno => cmpFinish_protocol (Phase.active_or_done_of_ne_idle herr hno)

@[simp] theorem setStatus_responses (s : State) (u : UnitId) (st : UnitStatus) : (s.setStatus u st).responses = s.responses := by
  cases u <;> rfl

/-- Settles O16: the command's rule is the error (`unitRule_protocol`), and the response follows it. -/
theorem phaseChecks : Obligations.PhaseChecks := by
  intro i u s hw hu herr hno
  rw [exec_of_target hu hw, unitRule_protocol hu herr hno, respond, protocolErr, raiseErr, setStatus_responses]

/-! ## A unit in ERR (R304) -/

/-- In ERR the rule of every command but the BEGIN is to do nothing. -/
theorem unitRule_err {s : State} : ∀ {i : Instr} {u : UnitId}, targetOf i = some u → isBegin i = false →
    (s.status u).phase = .err → unitRule s i = s
  | .sbuFeed b, _, rfl, _, herr => sbuFeed_err b herr
  | .sbuFinish, _, rfl, _, herr => sbuFinish_ignored (.inl herr)
  | .sbfPut b, _, rfl, _, herr => sbfPut_err b herr
  | .sbfEnd, _, rfl, _, herr => sbfEnd_err herr
  | .lzdFeed b, _, rfl, _, herr => lzdFeed_ignored b (.inr herr)
  | .lzdFinish, _, rfl, _, herr => lzdFinish_err herr
  | .lzeFeed b, _, rfl, _, herr => lzeFeed_err b herr
  | .lzeFinish, _, rfl, _, herr => lzeFinish_err herr
  | .cmpCtSize _ _, _, rfl, _, herr | .cmpCtWrite _ _ _ _ _, _, rfl, _, herr | .cmpGce _ _ _ _ _, _, rfl, _, herr
  | .cmpImagePos _ _, _, rfl, _, herr => by
    rw [unitRule]
    exact whenIdle_err herr
  | .cmpImageBegin l w h, _, rfl, _, herr => cmpImageBegin_err l w h herr
  | .cmpPixel idx, _, rfl, _, herr => cmpPixel_ignored idx (.inl herr)
  | .cmpImageEnd, _, rfl, _, herr => cmpImageEnd_err herr
  | .cmpFinish, _, rfl, _, herr => cmpFinish_err herr

/-- Settles O17: a command of the host and a forwarded one run the same rule, which does nothing (`unitRule_err`). -/
theorem errIgnores : Obligations.ErrIgnores := by
  refine ⟨fun i u s hw hu hbegin herr => ?_, fun s b herr => ?_, fun s b herr => ?_, fun s b herr => ?_⟩
  · rw [exec_of_target hu hw, unitRule_err hu hbegin herr, respond]
  · exact ⟨lzdFeed_ignored b (.inr herr), lzdFinish_err herr⟩
  · exact ⟨cmpPixel_ignored b (.inl herr), cmpImageEnd_err herr⟩
  · exact ⟨sbfPut_err b herr, sbfEnd_err herr⟩

/-! ## The units behind a route (R78), in ERR -/

theorem lzdOutByte_cmp_of_err (x : Byte) {s : State} (herr : s.cmp.st.phase = .err) : (lzdOutByte x s).cmp = s.cmp := by
  unfold lzdOutByte
  split
  · rw [cmpPixel_ignored x (.inl herr)]
  · rfl

theorem lzdEmit_cmp_of_err (xs : List Byte) {s : State} (herr : s.cmp.st.phase = .err) : (lzdEmit xs s).cmp = s.cmp := by
  unfold lzdEmit
  induction xs generalizing s with
  | nil => rfl
  | cons x xs ih =>
    have hone := lzdOutByte_cmp_of_err x herr
    rw [List.foldl_cons, ih (by rw [hone]; exact herr), hone]

theorem lzdForwardEnd_cmp_of_err {s : State} (herr : s.cmp.st.phase = .err) : (lzdForwardEnd s).cmp = s.cmp := by
  unfold lzdForwardEnd
  split
  · rw [cmpImageEnd_err herr]
  · rfl

theorem lzdFinish_cmp_of_err {s : State} (herr : s.cmp.st.phase = .err) : (lzdFinish s).cmp = s.cmp := by
  unfold lzdFinish
  split
  · rfl
  · rfl
  · split
    · exact lzdForwardEnd_cmp_of_err herr
    · rfl
  · exact lzdForwardEnd_cmp_of_err herr

theorem unitRule_lzd_cmp_of_err {s : State} (herr : s.cmp.st.phase = .err) :
    ∀ {i : Instr}, targetOf i = some .lzd → (unitRule s i).cmp = s.cmp
  | .lzdBegin cs, _ => lzdBegin_keeps_cmp cs s
  | .lzdFeed b, _ => by
    rw [unitRule, lzdFeed_eq]
    exact lzdEmit_cmp_of_err _ (s := s.setLzd (s.lzd.feedResult b).1) herr
  | .lzdFinish, _ => lzdFinish_cmp_of_err herr

theorem unitRule_sbu_cmp_of_err {i : Instr} (hi : targetOf i = some .sbu) {s : State} (herr : s.cmp.st.phase = .err) :
    (unitRule s i).cmp = s.cmp := by
  rcases unitRule_sbu hi s with ⟨_, _, h⟩ | ⟨-, t, j, ⟨_, _, ht⟩, hj, h⟩
  · rw [h]
    rfl
  · have hcmp : t.cmp = s.cmp := by
      rw [ht]
      rfl
    rw [h, unitRule_lzd_cmp_of_err (by rwa [hcmp]) hj, hcmp]

theorem lzdFeed_lzd_of_err (b : Byte) {s : State} (herr : s.lzd.st.phase = .err) : (lzdFeed b s).lzd = s.lzd :=
  congrArg State.lzd (lzdFeed_ignored b (.inr herr))

theorem lzdFinish_lzd_of_err {s : State} (herr : s.lzd.st.phase = .err) : (lzdFinish s).lzd = s.lzd :=
  congrArg State.lzd (lzdFinish_err herr)

/-- `SBU_FEED` forwards `LZD_FEED` and `LZD_FINISH`, which a decoder in ERR ignores. -/
theorem sbuFeed_lzd_of_err (b : Byte) {s : State} (herr : s.lzd.st.phase = .err) : (sbuFeed b s).lzd = s.lzd := by
  unfold sbuFeed
  split
  · rfl
  · rfl
  · rfl
  · split
    · split
      · simp only []
        split
        · exact lzdFinish_lzd_of_err herr
        · rfl
      · rfl
    · simp only []
      split
      · exact lzdFeed_lzd_of_err b herr
      · rfl

theorem unitRule_sbu_lzd_of_err {s : State} (herr : s.lzd.st.phase = .err) :
    ∀ {i : Instr}, targetOf i = some .sbu → (unitRule s i).lzd = s.lzd
  | .sbuBegin, _ => rfl
  | .sbuFeed b, _ => sbuFeed_lzd_of_err b herr
  | .sbuFinish, _ => (sbuFinish_keeps_lzd_cmp s).1

theorem lzeOutByte_sbf_of_err (x : Byte) {s : State} (herr : s.sbf.st.phase = .err) : (lzeOutByte x s).sbf = s.sbf := by
  unfold lzeOutByte
  split
  · rw [sbfPut_err x herr]
  · rfl

theorem lzeEmit_sbf_of_err (xs : List Byte) {s : State} (herr : s.sbf.st.phase = .err) : (lzeEmit xs s).sbf = s.sbf := by
  induction xs generalizing s with
  | nil => rfl
  | cons x xs ih =>
    have hone := lzeOutByte_sbf_of_err x herr
    rw [lzeEmit_cons, ih (by rw [hone]; exact herr), hone]

/-- What an LZE command forwards after the bytes it emits is nothing or one `SBF_END` (R198). -/
theorem forwardAll_lzeTrailer (route : Bool) (i : Instr) (e : Lze) (s : State) :
    forwardAll (if route then lzeTrailer i e else []) s = s ∨ forwardAll (if route then lzeTrailer i e else []) s = sbfEnd s := by
  cases route with
  | false => exact .inl rfl
  | true =>
    rcases ite_eq_or_eq (i = .lzeFinish ∧ e.st.phase = .active) [Instr.sbfEnd] [] with h | h
    · exact .inr (congrArg (forwardAll · s) h)
    · exact .inl (congrArg (forwardAll · s) h)

theorem unitRule_lze_sbf_of_err {i : Instr} (hi : targetOf i = some .lze) {s : State} (herr : s.sbf.st.phase = .err) :
    (unitRule s i).sbf = s.sbf := by
  obtain ⟨e, xs, hrule⟩ := ruleEmitsFrom_of_target hi s.lze (lzeLeadingClear s)
  have hemit : (lzeEmit xs (s.setLze e)).sbf = s.sbf := lzeEmit_sbf_of_err xs (s := s.setLze e) herr
  rw [hrule s rfl rfl]
  rcases forwardAll_lzeTrailer (lzeToSbf s) i s.lze (lzeEmit xs (s.setLze e)) with h | h
  · rw [h, hemit]
  · rw [h, sbfEnd_err (by rw [hemit]; exact herr), hemit]

/-! ## The first error stays (R305, R306) -/

/-- The units that the commands of a unit may reach by forwarding, over one route or two (R78). -/
def downstream : UnitId → List UnitId
  | .sbu => [.lzd, .cmp]
  | .lzd => [.cmp]
  | .lze => [.sbf]
  | .sbf | .cmp => []

/-- A command leaves the status of every unit alone but its own and those behind it. -/
theorem TargetEffect.status_of_not_mem_downstream {s t : State} {v u : UnitId} (h : TargetEffect (some v) s t) (hne : v ≠ u)
    (hu : u ∉ downstream v) : t.status u = s.status u := by
  cases v with
  | sbu =>
    obtain ⟨_, _, _, _, _, _, rfl⟩ := h
    cases u with
    | sbu => exact absurd rfl hne
    | lzd | cmp => exact absurd hu (by decide)
    | sbf | lze => rfl
  | sbf =>
    obtain ⟨_, _, rfl⟩ := h
    cases u with
    | sbf => exact absurd rfl hne
    | sbu | lzd | lze | cmp => rfl
  | lzd =>
    obtain ⟨_, _, _, _, rfl⟩ := h
    cases u with
    | lzd => exact absurd rfl hne
    | cmp => exact absurd hu (by decide)
    | sbu | sbf | lze => rfl
  | lze =>
    obtain ⟨_, _, _, _, rfl⟩ := h
    cases u with
    | lze => exact absurd rfl hne
    | sbf => exact absurd hu (by decide)
    | sbu | lzd | cmp => rfl
  | cmp =>
    obtain ⟨_, _, rfl⟩ := h
    cases u with
    | cmp => exact absurd rfl hne
    | sbu | sbf | lzd | lze => rfl

/-- A unit in ERR behind a command's unit keeps its status, whatever is forwarded to it. -/
theorem unitRule_status_downstream {i : Instr} {v u : UnitId} {s : State} (hv : targetOf i = some v) (hu : u ∈ downstream v)
    (herr : (s.status u).phase = .err) : (unitRule s i).status u = s.status u := by
  cases v with
  | sbu =>
    obtain rfl | rfl : u = .lzd ∨ u = .cmp := by simpa [downstream] using hu
    · exact congrArg Lzd.st (unitRule_sbu_lzd_of_err herr hv)
    · exact congrArg Cmp.st (unitRule_sbu_cmp_of_err hv herr)
  | lzd =>
    obtain rfl : u = .cmp := by simpa [downstream] using hu
    exact congrArg Cmp.st (unitRule_lzd_cmp_of_err herr hv)
  | lze =>
    obtain rfl : u = .sbf := by simpa [downstream] using hu
    exact congrArg Sbf.st (unitRule_lze_sbf_of_err hv herr)
  | sbf | cmp => cases hu

theorem unitRule_status_of_err {i : Instr} {v u : UnitId} {s : State} (hv : targetOf i = some v) (herr : (s.status u).phase = .err)
    (hbegin : ¬ (targetOf i = some u ∧ isBegin i = true)) : (unitRule s i).status u = s.status u := by
  by_cases hvu : v = u
  · subst hvu
    have hother : isBegin i = false := Bool.eq_false_iff.2 fun h => hbegin ⟨hv, h⟩
    rw [unitRule_err hv hother herr]
  · by_cases hu : u ∈ downstream v
    · exact unitRule_status_downstream hv hu herr
    · exact TargetEffect.status_of_not_mem_downstream (hv ▸ unitRule_effect s i) hvu hu

@[simp] theorem respond_status (v : Word) (s : State) (u : UnitId) : (respond v s).status u = s.status u := by
  cases u <;> rfl

/-- Settles O18, by the kinds of command: a unit's command leaves the status of a unit in ERR alone, whether that is its own unit, one
behind it or another (`unitRule_status_of_err`), and the SYS commands but `RESET` write no unit. -/
theorem errStaysUntilBegin : Obligations.ErrStaysUntilBegin := by
  intro i u s t herr he hreset hbegin
  cases execResult_of_exec he with
  | unit hv _ => rw [respond_status, unitRule_status_of_err hv herr hbegin]
  | reset => exact absurd rfl hreset
  | answered _ _ | cfg _ | offCanvas _ | badTableSize _ => cases u <;> rfl

/-! ## A unit and the units behind it (R308) -/

theorem LzdEffect.sbu {s t : State} : LzdEffect s t → t.sbu = s.sbu
  | ⟨_, _, _, _, h⟩ => h ▸ rfl

theorem CmpEffect.lzd {s t : State} : CmpEffect s t → t.lzd = s.lzd
  | ⟨_, _, h⟩ => h ▸ rfl

theorem SbfEffect.lze {s t : State} : SbfEffect s t → t.lze = s.lze
  | ⟨_, _, h⟩ => h ▸ rfl

/-- What `SBU_FEED b` makes of SBU (R121). -/
def Sbu.feedResult (u : Sbu) (b : Byte) : Sbu :=
  match u.st.phase with
  | .err => u
  | .idle | .done => { u with st := { phase := .err, errCode := .protocol, errInfo := (0x11#8).setWidth 16 } }
  | .active =>
    if u.count.toNat = 0 then
      if b.toNat = 0 then { u with st := { u.st with phase := .done } } else { u with count := b }
    else { u with count := BitVec.ofNat 8 (u.count.toNat - 1) }

/-- What `SBU_FEED` makes of SBU depends on SBU alone: the command it forwards does not touch SBU. -/
theorem sbuFeed_sbu (b : Byte) (s : State) : (sbuFeed b s).sbu = s.sbu.feedResult b := by
  unfold sbuFeed Sbu.feedResult
  cases s.sbu.st.phase with
  | err | idle | done => rfl
  | active =>
    simp only []
    split
    · split
      · split
        · exact (lzdFinish_effect _).sbu
        · rfl
      · rfl
    · split
      · exact (lzdFeed_effect b _).sbu
      · rfl

theorem lzdBegin_lzd_congr (cs : Byte) {s s' : State} (h : s.lzd = s'.lzd) : (lzdBegin cs s).lzd = (lzdBegin cs s').lzd := by
  unfold lzdBegin
  simp only [clearErr_lzd, h]
  split <;> rfl

theorem lzdFeed_lzd (b : Byte) (s : State) : (lzdFeed b s).lzd = (s.lzd.feedResult b).1 := by
  rw [lzdFeed_eq, lzdEmit_lzd, State.setLzd_lzd]

/-- What `LZD_FINISH` makes of the decoder, with `LZD_EOD_LENIENT` on or off (R163). -/
def Lzd.finishResult (d : Lzd) (lenient : Bool) : Lzd :=
  match d.st.phase with
  | .err | .done => d
  | .idle => { d with st := { phase := .err, errCode := .protocol, errInfo := (0x22#8).setWidth 16 } }
  | .active => if lenient then d.ended else { d with st := { phase := .err, errCode := .missingEnd, errInfo := 0#16 } }

/-- The forwarded `CMP_IMAGE_END` does not touch the decoder. -/
theorem lzdFinish_lzd (s : State) : (lzdFinish s).lzd = s.lzd.finishResult (lzdEodLenient s) := by
  unfold lzdFinish Lzd.finishResult
  cases s.lzd.st.phase with
  | err | idle => rfl
  | done => exact (lzdForwardEnd_effect s).lzd
  | active =>
    simp only []
    split
    · exact (lzdForwardEnd_effect _).lzd
    · rfl

/-- What an LZD command makes of the decoder depends on the decoder and on `LZD_EOD_LENIENT` alone. -/
theorem unitRule_lzd_congr {s s' : State} (h : s.lzd = s'.lzd) (hl : lzdEodLenient s = lzdEodLenient s') :
    ∀ {i : Instr}, targetOf i = some .lzd → (unitRule s i).lzd = (unitRule s' i).lzd
  | .lzdBegin cs, _ => lzdBegin_lzd_congr cs h
  | .lzdFeed b, _ => by rw [unitRule, unitRule, lzdFeed_lzd, lzdFeed_lzd, h]
  | .lzdFinish, _ => by rw [unitRule, unitRule, lzdFinish_lzd, lzdFinish_lzd, h, hl]

/-- What an LZE command makes of the encoder depends on the encoder and on `LZE_LEADING_CLEAR` alone. -/
theorem unitRule_lze_congr {s s' : State} (h : s.lze = s'.lze) (hl : lzeLeadingClear s = lzeLeadingClear s') {i : Instr}
    (hi : targetOf i = some .lze) : (unitRule s i).lze = (unitRule s' i).lze := by
  obtain ⟨e, xs, hrule⟩ := ruleEmitsFrom_of_target hi s'.lze (lzeLeadingClear s')
  have hlze {t : State} (ht : t.lze = s'.lze) (htl : lzeLeadingClear t = lzeLeadingClear s') : (unitRule t i).lze = e := by
    rw [hrule t ht htl]
    rcases forwardAll_lzeTrailer (lzeToSbf t) i s'.lze (lzeEmit xs (t.setLze e)) with htrailer | htrailer
    · rw [htrailer, lzeEmit_lze, State.setLze_lze]
    · rw [htrailer, (sbfEnd_effect _).lze, lzeEmit_lze, State.setLze_lze]
  rw [hlze h hl, hlze rfl rfl]

theorem wellFormed_of_target_lzd {i : Instr} (h : targetOf i = some .lzd) : i.wellFormed = true := by
  cases i with
  | lzdBegin _ | lzdFeed _ | lzdFinish => rfl
  | _ => cases h

/-- A unit's command leaves what its rule leaves, and its response. -/
theorem eq_respond_of_exec {i : Instr} {u : UnitId} {s t : State} (hu : targetOf i = some u) (hw : i.wellFormed = true)
    (he : exec i s = .next t) : t = respond 0#64 (unitRule s i) := by
  rw [exec_of_target hu hw] at he
  exact (Host.Outcome.next.inj he).symm

/-- Settles O19, a clause per unit that forwards: what its rule makes of it is a function of the unit and of its own bit of `CONFIG`. -/
theorem errorsDoNotPropagate : Obligations.ErrorsDoNotPropagate := by
  refine ⟨fun b s s' t t' h he he' => ?_, fun i s s' t t' hi h hl he he' => ?_, fun i s s' t t' hi h hl he he' => ?_⟩
  · obtain rfl := eq_respond_of_exec (u := .sbu) rfl rfl he
    obtain rfl := eq_respond_of_exec (u := .sbu) rfl rfl he'
    rw [respond_sbu, respond_sbu, unitRule, unitRule, sbuFeed_sbu, sbuFeed_sbu, h]
  · obtain rfl := eq_respond_of_exec hi (wellFormed_of_target_lzd hi) he
    obtain rfl := eq_respond_of_exec hi (wellFormed_of_target_lzd hi) he'
    exact unitRule_lzd_congr h hl hi
  · obtain rfl := eq_respond_of_exec hi (wellFormed_of_target_lze hi) he
    obtain rfl := eq_respond_of_exec hi (wellFormed_of_target_lze hi) he'
    exact unitRule_lze_congr h hl hi

end Sys2Proof.Machine
end

section
/-! RESET against power-on reset (R340 to R342), and the reset state as a legal state. -/

namespace Sys2Proof.Machine

/-! ## The reset state -/

/-- Power-on reset is what `RESET` leaves of a block that was just powered on. -/
theorem resetBlock_reset : resetBlock State.reset = State.reset := rfl

/-- R340, R341: after `RESET` every register of R45 but `CANVAS_CAP` reads 0. -/
theorem registerNumber_resetBlock (s : State) {r : Reg} (hr : r ≠ .canvasCap) : registerNumber (resetBlock s) r = 0 := by
  cases r with
  | canvasCap => exact absurd rfl hr
  | _ => rfl

/-- A response shows in no register (R280). -/
theorem registerNumber_respond (v : Word) (s : State) (r : Reg) : registerNumber (respond v s) r = registerNumber s r := by
  cases r <;> rfl

/-- Settles O9: `resetBlock` field by field, and for the registers power-on reset taken as a `RESET` of itself. -/
theorem resetIsPowerOn : Obligations.ResetIsPowerOn := fun s =>
  ⟨respond 0#64 (resetBlock s), rfl, rfl, rfl, rfl, rfl, rfl, rfl, rfl, fun r hr =>
    ⟨(registerNumber_respond 0#64 _ r).trans (registerNumber_resetBlock s hr),
      resetBlock_reset ▸ registerNumber_resetBlock State.reset hr⟩⟩

theorem Sbf.reset_ok : Sbf.reset.Ok where
  fill := by decide
  wf := rfl
  size := rfl

/-- Settles O23, by the parts' own lemmas: every unit is idle with no error, and the memories list nothing. -/
theorem resetIsLegal : Obligations.ResetIsLegal where
  cap := by decide
  sys := fun _ => rfl
  status := resetBlock_reset ▸ resetBlock_status State.reset
  sbf := Sbf.reset_ok
  lzd := Lzd.reset_ok
  lze := Lze.reset_ok
  cmp := Cmp.reset_ok _

end Sys2Proof.Machine
end
